-- ==== Sys2Proof/Word.lean ====
section
/-! DEFINITION. The machine's data units: the Word of 32 bits, the byte, the register number and the access width.
Only the types stand here; every operation on them is in Sys2Proof/Machine/ or Sys2Proof/Decode.lean. -/

namespace Sys2Proof

/-- A Word: 32 bits, read signed (`toInt`, the spec's `s`) or unsigned (`toNat`, the spec's `u`); R7, R140. -/
abbrev Word := BitVec 32

/-- The unit of addressing, 8 bits (R40). -/
abbrev Byte := BitVec 8

/-- A general register's number, 0 to 31 (R10). -/
abbrev Reg := Fin 32

/-- The three access widths (R54): "width in {1,2,4}". -/
inductive Width where
  | byte
  | half
  | word
deriving DecidableEq, Repr, Inhabited

/-- How many bytes an access of this width moves (R54). -/
def Width.bytes : Width → Nat
  | .byte => 1
  | .half => 2
  | .word => 4

end Sys2Proof
end

