-- ==== Sys2Proof/Syntax.lean ====
section
/-! DEFINITION. The instructions: one constructor per row of spec/opcode_table.json (39 rows), with the operands the row's
format gives it (R83 to R90), and the closed set of their mnemonics. -/

namespace Sys2Proof

/-- The 39 canonical instructions. Register operands are numbers 0 to 31; an immediate is held as the bits of its
field, not yet extended. A branch or `jal` holds its byte offset (13 or 21 bits, R87 and R89), which is relative to the
instruction's own address (R90); the handler adds the two (log entry 4). -/
inductive Instr where
  -- U format (R88, R97)
  | lui   (rd : Reg) (imm20 : BitVec 20)
  | auipc (rd : Reg) (imm20 : BitVec 20)
  -- jumps (R89, R98)
  | jal   (rd : Reg) (off : BitVec 21)
  | jalr  (rd rs1 : Reg) (imm : BitVec 12)
  -- conditional branches (R87, R96)
  | beq   (rs1 rs2 : Reg) (off : BitVec 13)
  | bne   (rs1 rs2 : Reg) (off : BitVec 13)
  | blt   (rs1 rs2 : Reg) (off : BitVec 13)
  | bge   (rs1 rs2 : Reg) (off : BitVec 13)
  | bltu  (rs1 rs2 : Reg) (off : BitVec 13)
  | bgeu  (rs1 rs2 : Reg) (off : BitVec 13)
  -- loads (R84, R94)
  | lb    (rd rs1 : Reg) (imm : BitVec 12)
  | lh    (rd rs1 : Reg) (imm : BitVec 12)
  | lw    (rd rs1 : Reg) (imm : BitVec 12)
  | lbu   (rd rs1 : Reg) (imm : BitVec 12)
  | lhu   (rd rs1 : Reg) (imm : BitVec 12)
  -- stores (R86, R95): rs2 is stored at rs1 + imm
  | sb    (rs2 rs1 : Reg) (imm : BitVec 12)
  | sh    (rs2 rs1 : Reg) (imm : BitVec 12)
  | sw    (rs2 rs1 : Reg) (imm : BitVec 12)
  -- register-immediate (R84, R93)
  | addi  (rd rs1 : Reg) (imm : BitVec 12)
  | slti  (rd rs1 : Reg) (imm : BitVec 12)
  | sltiu (rd rs1 : Reg) (imm : BitVec 12)
  | xori  (rd rs1 : Reg) (imm : BitVec 12)
  | ori   (rd rs1 : Reg) (imm : BitVec 12)
  | andi  (rd rs1 : Reg) (imm : BitVec 12)
  -- shift-immediate (R85, R93)
  | slli  (rd rs1 : Reg) (shamt : BitVec 5)
  | srli  (rd rs1 : Reg) (shamt : BitVec 5)
  | srai  (rd rs1 : Reg) (shamt : BitVec 5)
  -- register-register (R83, R92)
  | add   (rd rs1 rs2 : Reg)
  | sub   (rd rs1 rs2 : Reg)
  | sll   (rd rs1 rs2 : Reg)
  | slt   (rd rs1 rs2 : Reg)
  | sltu  (rd rs1 rs2 : Reg)
  | xor   (rd rs1 rs2 : Reg)
  | srl   (rd rs1 rs2 : Reg)
  | sra   (rd rs1 rs2 : Reg)
  | or    (rd rs1 rs2 : Reg)
  | and   (rd rs1 rs2 : Reg)
  -- SYSTEM: two exact words, no operand (R99)
  | ecall
  | ebreak
deriving DecidableEq, Repr

/-- The mnemonics with a handler: "a closed tagged-variant (enumeration of instruction kinds)" (R125). -/
inductive Mnemonic where
  | lui | auipc | jal | jalr
  | beq | bne | blt | bge | bltu | bgeu
  | lb | lh | lw | lbu | lhu
  | sb | sh | sw
  | addi | slti | sltiu | xori | ori | andi
  | slli | srli | srai
  | add | sub | sll | slt | sltu | xor | srl | sra | or | and
  | ecall | ebreak
deriving DecidableEq, Repr

end Sys2Proof
end

