-- ==== Sys2Proof/WellFormed.lean ====
section
/-! DEFINITION. Which terms of `Instr` are instructions: those the encoding can write. Every register number, 12-bit and
20-bit immediate and shift amount is legal by its type (R82, R84, R85, R88); what is left to check is that a branch or
`jal` offset is even (R87, R89, R107: "the offset must be even and in range"). -/

namespace Sys2Proof

/-- Bit 0 of a branch offset is 0 (R87: "always even"). -/
def branchOffsetEven (off : BitVec 13) : Bool := !off.getLsbD 0

/-- Bit 0 of a `jal` offset is 0 (R89: "always even"). -/
def jumpOffsetEven (off : BitVec 21) : Bool := !off.getLsbD 0

/-- The instruction can be encoded. -/
def Instr.wf : Instr → Bool
  | .jal _ off    => jumpOffsetEven off
  | .beq _ _ off  => branchOffsetEven off
  | .bne _ _ off  => branchOffsetEven off
  | .blt _ _ off  => branchOffsetEven off
  | .bge _ _ off  => branchOffsetEven off
  | .bltu _ _ off => branchOffsetEven off
  | .bgeu _ _ off => branchOffsetEven off
  | .lui _ _ | .auipc _ _ | .jalr _ _ _ => true
  | .lb _ _ _ | .lh _ _ _ | .lw _ _ _ | .lbu _ _ _ | .lhu _ _ _ => true
  | .sb _ _ _ | .sh _ _ _ | .sw _ _ _ => true
  | .addi _ _ _ | .slti _ _ _ | .sltiu _ _ _ | .xori _ _ _ | .ori _ _ _ | .andi _ _ _ => true
  | .slli _ _ _ | .srli _ _ _ | .srai _ _ _ => true
  | .add _ _ _ | .sub _ _ _ | .sll _ _ _ | .slt _ _ _ | .sltu _ _ _ => true
  | .xor _ _ _ | .srl _ _ _ | .sra _ _ _ | .or _ _ _ | .and _ _ _ => true
  | .ecall | .ebreak => true

end Sys2Proof
end

