-- ==== Sys2Proof/Decode.lean ====
section
/-! DEFINITION. The decoder of spec/30_encoding.md, total on any word and any bytes, and after it the encoder, written from
the same tables. Bit positions, opcodes and funct values are rules R82 to R99. -/

namespace Sys2Proof

/-! ### Byte order of an instruction in memory (R48, R81, R155, R156) -/

/-- The low `n` bytes of a word, least significant byte first (R155). -/
def bytesOfWord : Nat → Word → List Byte
  | 0, _ => []
  | n + 1, v => v.setWidth 8 :: bytesOfWord n (v >>> 8)

/-- The word a little-endian byte sequence stands for, zero-extended (R156, R161). -/
def wordOfBytes : List Byte → Word
  | [] => 0#32
  | b :: bs => b.setWidth 32 ||| (wordOfBytes bs <<< 8)

/-! ### Fields (R82 to R89) -/

/-- `rd`, bits 11:7. -/
def fieldRd (w : Word) : Reg := (w.extractLsb' 7 5).toFin

/-- `rs1`, bits 19:15. -/
def fieldRs1 (w : Word) : Reg := (w.extractLsb' 15 5).toFin

/-- `rs2`, bits 24:20. -/
def fieldRs2 (w : Word) : Reg := (w.extractLsb' 20 5).toFin

/-- The shift amount, bits 24:20 (R85). -/
def fieldShamt (w : Word) : BitVec 5 := w.extractLsb' 20 5

/-- The I-format immediate, bits 31:20 (R84). -/
def fieldImmI (w : Word) : BitVec 12 := w.extractLsb' 20 12

/-- The S-format immediate, bits 31:25 above bits 11:7 (R86). -/
def fieldImmS (w : Word) : BitVec 12 := w.extractLsb' 25 7 ++ w.extractLsb' 7 5

/-- The B-format offset: bit 31, bit 7, bits 30:25, bits 11:8, then 0 (R87). -/
def fieldOffB (w : Word) : BitVec 13 :=
  w.extractLsb' 31 1 ++ w.extractLsb' 7 1 ++ w.extractLsb' 25 6 ++ w.extractLsb' 8 4 ++ 0#1

/-- The U-format immediate, bits 31:12 (R88). -/
def fieldImmU (w : Word) : BitVec 20 := w.extractLsb' 12 20

/-- The J-format offset: bit 31, bits 19:12, bit 20, bits 30:21, then 0 (R89). -/
def fieldOffJ (w : Word) : BitVec 21 :=
  w.extractLsb' 31 1 ++ w.extractLsb' 12 8 ++ w.extractLsb' 20 1 ++ w.extractLsb' 21 10 ++ 0#1

/-! ### Operand shapes, one per format -/

/-- R format: rd, rs1, rs2 (R83). -/
def shapeR (f : Reg → Reg → Reg → Instr) (w : Word) : Instr := f (fieldRd w) (fieldRs1 w) (fieldRs2 w)

/-- I format: rd, rs1, imm (R84). -/
def shapeI (f : Reg → Reg → BitVec 12 → Instr) (w : Word) : Instr := f (fieldRd w) (fieldRs1 w) (fieldImmI w)

/-- Shift-immediate: rd, rs1, shamt (R85). -/
def shapeShift (f : Reg → Reg → BitVec 5 → Instr) (w : Word) : Instr := f (fieldRd w) (fieldRs1 w) (fieldShamt w)

/-- S format: rs2, rs1, imm (R86). -/
def shapeS (f : Reg → Reg → BitVec 12 → Instr) (w : Word) : Instr := f (fieldRs2 w) (fieldRs1 w) (fieldImmS w)

/-- B format: rs1, rs2, offset (R87). -/
def shapeB (f : Reg → Reg → BitVec 13 → Instr) (w : Word) : Instr := f (fieldRs1 w) (fieldRs2 w) (fieldOffB w)

/-- U format: rd, imm20 (R88). -/
def shapeU (f : Reg → BitVec 20 → Instr) (w : Word) : Instr := f (fieldRd w) (fieldImmU w)

/-- J format: rd, offset (R89). -/
def shapeJ (f : Reg → BitVec 21 → Instr) (w : Word) : Instr := f (fieldRd w) (fieldOffJ w)

/-- No operand (R99). -/
def shapeFixed (i : Instr) (_ : Word) : Instr := i

/-! ### The opcode table (R80, R91 to R99) -/

/-- One row of spec/opcode_table.json: a word `w` is this row's instruction when `w &&& mask = mat`. -/
structure Row where
  mnemonic : Mnemonic
  mat      : Word
  mask     : Word
  build    : Word → Instr

/-- The row's test (R80). -/
def Row.hits (r : Row) (w : Word) : Bool := w &&& r.mask == r.mat

/-- LUI, AUIPC, JAL, JALR (R97, R98). -/
def upperAndJumpRows : List Row :=
  [⟨.lui,   0x00000037#32, 0x0000007F#32, shapeU .lui⟩,
   ⟨.auipc, 0x00000017#32, 0x0000007F#32, shapeU .auipc⟩,
   ⟨.jal,   0x0000006F#32, 0x0000007F#32, shapeJ .jal⟩,
   ⟨.jalr,  0x00000067#32, 0x0000707F#32, shapeI .jalr⟩]

/-- BRANCH (R96). -/
def branchRows : List Row :=
  [⟨.beq,  0x00000063#32, 0x0000707F#32, shapeB .beq⟩,
   ⟨.bne,  0x00001063#32, 0x0000707F#32, shapeB .bne⟩,
   ⟨.blt,  0x00004063#32, 0x0000707F#32, shapeB .blt⟩,
   ⟨.bge,  0x00005063#32, 0x0000707F#32, shapeB .bge⟩,
   ⟨.bltu, 0x00006063#32, 0x0000707F#32, shapeB .bltu⟩,
   ⟨.bgeu, 0x00007063#32, 0x0000707F#32, shapeB .bgeu⟩]

/-- LOAD (R94). -/
def loadRows : List Row :=
  [⟨.lb,  0x00000003#32, 0x0000707F#32, shapeI .lb⟩,
   ⟨.lh,  0x00001003#32, 0x0000707F#32, shapeI .lh⟩,
   ⟨.lw,  0x00002003#32, 0x0000707F#32, shapeI .lw⟩,
   ⟨.lbu, 0x00004003#32, 0x0000707F#32, shapeI .lbu⟩,
   ⟨.lhu, 0x00005003#32, 0x0000707F#32, shapeI .lhu⟩]

/-- STORE (R95). -/
def storeRows : List Row :=
  [⟨.sb, 0x00000023#32, 0x0000707F#32, shapeS .sb⟩,
   ⟨.sh, 0x00001023#32, 0x0000707F#32, shapeS .sh⟩,
   ⟨.sw, 0x00002023#32, 0x0000707F#32, shapeS .sw⟩]

/-- OP-IMM (R93). -/
def opImmRows : List Row :=
  [⟨.addi,  0x00000013#32, 0x0000707F#32, shapeI .addi⟩,
   ⟨.slti,  0x00002013#32, 0x0000707F#32, shapeI .slti⟩,
   ⟨.sltiu, 0x00003013#32, 0x0000707F#32, shapeI .sltiu⟩,
   ⟨.xori,  0x00004013#32, 0x0000707F#32, shapeI .xori⟩,
   ⟨.ori,   0x00006013#32, 0x0000707F#32, shapeI .ori⟩,
   ⟨.andi,  0x00007013#32, 0x0000707F#32, shapeI .andi⟩,
   ⟨.slli,  0x00001013#32, 0xFE00707F#32, shapeShift .slli⟩,
   ⟨.srli,  0x00005013#32, 0xFE00707F#32, shapeShift .srli⟩,
   ⟨.srai,  0x40005013#32, 0xFE00707F#32, shapeShift .srai⟩]

/-- OP (R92). -/
def opRows : List Row :=
  [⟨.add,  0x00000033#32, 0xFE00707F#32, shapeR .add⟩,
   ⟨.sub,  0x40000033#32, 0xFE00707F#32, shapeR .sub⟩,
   ⟨.sll,  0x00001033#32, 0xFE00707F#32, shapeR .sll⟩,
   ⟨.slt,  0x00002033#32, 0xFE00707F#32, shapeR .slt⟩,
   ⟨.sltu, 0x00003033#32, 0xFE00707F#32, shapeR .sltu⟩,
   ⟨.xor,  0x00004033#32, 0xFE00707F#32, shapeR .xor⟩,
   ⟨.srl,  0x00005033#32, 0xFE00707F#32, shapeR .srl⟩,
   ⟨.sra,  0x40005033#32, 0xFE00707F#32, shapeR .sra⟩,
   ⟨.or,   0x00006033#32, 0xFE00707F#32, shapeR .or⟩,
   ⟨.and,  0x00007033#32, 0xFE00707F#32, shapeR .and⟩]

/-- SYSTEM: exactly two words (R99). -/
def systemRows : List Row :=
  [⟨.ecall,  0x00000073#32, 0xFFFFFFFF#32, shapeFixed .ecall⟩,
   ⟨.ebreak, 0x00100073#32, 0xFFFFFFFF#32, shapeFixed .ebreak⟩]

/-- The whole table, 39 rows. -/
def opcodeRows : List Row :=
  upperAndJumpRows ++ branchRows ++ loadRows ++ storeRows ++ opImmRows ++ opRows ++ systemRows

/-! ### Decoding -/

/-- Why bytes are no instruction. -/
inductive Reject where
  /-- The word matches no row: the spec's `Unknown(w)` (R80, R104). -/
  | unknown (w : Word)
  /-- Fewer than the four bytes every instruction has (R81). -/
  | truncated (have_ : Nat)
deriving DecidableEq, Repr

/-- The spec's `Decode`: the one row that matches, or `Unknown(w)` (R80). It reads no state; the address that turns a
branch's offset into a target is added by the handler (log entry 4). -/
def decodeWord (w : Word) : Except Reject Instr :=
  match opcodeRows.find? (fun r => r.hits w) with
  | some r => .ok (r.build w)
  | none => .error (.unknown w)

/-- Decode the instruction at the head of a byte list (little-endian, R48) and give the bytes after it. -/
def decode : List Byte → Except Reject (Instr × List Byte)
  | b0 :: b1 :: b2 :: b3 :: rest =>
    match decodeWord (wordOfBytes [b0, b1, b2, b3]) with
    | .ok i => .ok (i, rest)
    | .error e => .error e
  | bs => .error (.truncated bs.length)

/-- The instruction whose bits are `w`, bit 0 the least significant bit of the word, every bit from `nbits` up being 0:
its four bytes, laid out as the hardware stores them, through the decoder. -/
def decodeTableWord (nbits w : Nat) : Option Instr :=
  match decode (bytesOfWord 4 (BitVec.ofNat 32 (w % 2 ^ nbits))) with
  | .ok (i, _) => some i
  | .error _ => none

/-! ### The encoder -/

/-- A register number's 5-bit field (R82). -/
def regBits (r : Reg) : BitVec 5 := BitVec.ofFin r

/-- R format, and the shift-immediates, whose shift amount stands in the `rs2` place (R83, R85). -/
def wordR (funct7 : BitVec 7) (rs2 rs1 : BitVec 5) (funct3 : BitVec 3) (rd : BitVec 5) (opcode : BitVec 7) : Word :=
  funct7 ++ rs2 ++ rs1 ++ funct3 ++ rd ++ opcode

/-- I format (R84). -/
def wordI (imm : BitVec 12) (rs1 : BitVec 5) (funct3 : BitVec 3) (rd : BitVec 5) (opcode : BitVec 7) : Word :=
  imm ++ rs1 ++ funct3 ++ rd ++ opcode

/-- S format (R86). -/
def wordS (imm : BitVec 12) (rs2 rs1 : BitVec 5) (funct3 : BitVec 3) (opcode : BitVec 7) : Word :=
  imm.extractLsb' 5 7 ++ rs2 ++ rs1 ++ funct3 ++ imm.extractLsb' 0 5 ++ opcode

/-- B format (R87); bit 0 of the offset is not stored. -/
def wordB (off : BitVec 13) (rs2 rs1 : BitVec 5) (funct3 : BitVec 3) (opcode : BitVec 7) : Word :=
  off.extractLsb' 12 1 ++ off.extractLsb' 5 6 ++ rs2 ++ rs1 ++ funct3 ++ off.extractLsb' 1 4 ++ off.extractLsb' 11 1 ++ opcode

/-- U format (R88). -/
def wordU (imm20 : BitVec 20) (rd : BitVec 5) (opcode : BitVec 7) : Word := imm20 ++ rd ++ opcode

/-- J format (R89); bit 0 of the offset is not stored. -/
def wordJ (off : BitVec 21) (rd : BitVec 5) (opcode : BitVec 7) : Word :=
  off.extractLsb' 20 1 ++ off.extractLsb' 1 10 ++ off.extractLsb' 11 1 ++ off.extractLsb' 12 8 ++ rd ++ opcode

/-- The word of an instruction, from the opcode map of R91 to R99. -/
def encode : Instr → Word
  | .lui rd imm       => wordU imm (regBits rd) 0b0110111#7
  | .auipc rd imm     => wordU imm (regBits rd) 0b0010111#7
  | .jal rd off       => wordJ off (regBits rd) 0b1101111#7
  | .jalr rd rs1 imm  => wordI imm (regBits rs1) 0b000#3 (regBits rd) 0b1100111#7
  | .beq rs1 rs2 off  => wordB off (regBits rs2) (regBits rs1) 0b000#3 0b1100011#7
  | .bne rs1 rs2 off  => wordB off (regBits rs2) (regBits rs1) 0b001#3 0b1100011#7
  | .blt rs1 rs2 off  => wordB off (regBits rs2) (regBits rs1) 0b100#3 0b1100011#7
  | .bge rs1 rs2 off  => wordB off (regBits rs2) (regBits rs1) 0b101#3 0b1100011#7
  | .bltu rs1 rs2 off => wordB off (regBits rs2) (regBits rs1) 0b110#3 0b1100011#7
  | .bgeu rs1 rs2 off => wordB off (regBits rs2) (regBits rs1) 0b111#3 0b1100011#7
  | .lb rd rs1 imm    => wordI imm (regBits rs1) 0b000#3 (regBits rd) 0b0000011#7
  | .lh rd rs1 imm    => wordI imm (regBits rs1) 0b001#3 (regBits rd) 0b0000011#7
  | .lw rd rs1 imm    => wordI imm (regBits rs1) 0b010#3 (regBits rd) 0b0000011#7
  | .lbu rd rs1 imm   => wordI imm (regBits rs1) 0b100#3 (regBits rd) 0b0000011#7
  | .lhu rd rs1 imm   => wordI imm (regBits rs1) 0b101#3 (regBits rd) 0b0000011#7
  | .sb rs2 rs1 imm   => wordS imm (regBits rs2) (regBits rs1) 0b000#3 0b0100011#7
  | .sh rs2 rs1 imm   => wordS imm (regBits rs2) (regBits rs1) 0b001#3 0b0100011#7
  | .sw rs2 rs1 imm   => wordS imm (regBits rs2) (regBits rs1) 0b010#3 0b0100011#7
  | .addi rd rs1 imm  => wordI imm (regBits rs1) 0b000#3 (regBits rd) 0b0010011#7
  | .slti rd rs1 imm  => wordI imm (regBits rs1) 0b010#3 (regBits rd) 0b0010011#7
  | .sltiu rd rs1 imm => wordI imm (regBits rs1) 0b011#3 (regBits rd) 0b0010011#7
  | .xori rd rs1 imm  => wordI imm (regBits rs1) 0b100#3 (regBits rd) 0b0010011#7
  | .ori rd rs1 imm   => wordI imm (regBits rs1) 0b110#3 (regBits rd) 0b0010011#7
  | .andi rd rs1 imm  => wordI imm (regBits rs1) 0b111#3 (regBits rd) 0b0010011#7
  | .slli rd rs1 sh   => wordR 0b0000000#7 sh (regBits rs1) 0b001#3 (regBits rd) 0b0010011#7
  | .srli rd rs1 sh   => wordR 0b0000000#7 sh (regBits rs1) 0b101#3 (regBits rd) 0b0010011#7
  | .srai rd rs1 sh   => wordR 0b0100000#7 sh (regBits rs1) 0b101#3 (regBits rd) 0b0010011#7
  | .add rd rs1 rs2   => wordR 0b0000000#7 (regBits rs2) (regBits rs1) 0b000#3 (regBits rd) 0b0110011#7
  | .sub rd rs1 rs2   => wordR 0b0100000#7 (regBits rs2) (regBits rs1) 0b000#3 (regBits rd) 0b0110011#7
  | .sll rd rs1 rs2   => wordR 0b0000000#7 (regBits rs2) (regBits rs1) 0b001#3 (regBits rd) 0b0110011#7
  | .slt rd rs1 rs2   => wordR 0b0000000#7 (regBits rs2) (regBits rs1) 0b010#3 (regBits rd) 0b0110011#7
  | .sltu rd rs1 rs2  => wordR 0b0000000#7 (regBits rs2) (regBits rs1) 0b011#3 (regBits rd) 0b0110011#7
  | .xor rd rs1 rs2   => wordR 0b0000000#7 (regBits rs2) (regBits rs1) 0b100#3 (regBits rd) 0b0110011#7
  | .srl rd rs1 rs2   => wordR 0b0000000#7 (regBits rs2) (regBits rs1) 0b101#3 (regBits rd) 0b0110011#7
  | .sra rd rs1 rs2   => wordR 0b0100000#7 (regBits rs2) (regBits rs1) 0b101#3 (regBits rd) 0b0110011#7
  | .or rd rs1 rs2    => wordR 0b0000000#7 (regBits rs2) (regBits rs1) 0b110#3 (regBits rd) 0b0110011#7
  | .and rd rs1 rs2   => wordR 0b0000000#7 (regBits rs2) (regBits rs1) 0b111#3 (regBits rd) 0b0110011#7
  | .ecall            => 0x00000073#32
  | .ebreak           => 0x00100073#32

/-- The instruction's four bytes in memory order (R48). -/
def encodeBytes (i : Instr) : List Byte := bytesOfWord 4 (encode i)

end Sys2Proof
end

