-- ==== Sys2Proof/Machine/WordUnit.lean ====
section
/-! DEFINITION. The Word unit (spec/41_word_alu.md): the operations every handler computes with. Each is a pure function of
its operands; none faults and none records a condition (R157). Comparisons are in Machine/Flags.lean. -/

namespace Sys2Proof.Machine

/-- R141. -/
def wordAdd (a b : Word) : Word := a + b

/-- R142. -/
def wordSub (a b : Word) : Word := a - b

/-- R143. -/
def wordAnd (a b : Word) : Word := a &&& b

/-- R144. -/
def wordOr (a b : Word) : Word := a ||| b

/-- R145. -/
def wordXor (a b : Word) : Word := a ^^^ b

/-- R146; no instruction uses it directly. -/
def wordNot (a : Word) : Word := ~~~a

/-- The shift amount a Word gives: its low 5 bits (R148). -/
def shiftAmount (b : Word) : BitVec 5 := b.extractLsb' 0 5

/-- R147. -/
def shiftLeft (a : Word) (sh : BitVec 5) : Word := a <<< sh.toNat

/-- R149. -/
def shiftRightLogical (a : Word) (sh : BitVec 5) : Word := a >>> sh.toNat

/-- R150. -/
def shiftRightArith (a : Word) (sh : BitVec 5) : Word := a.sshiftRight sh.toNat

/-- The low byte, sign-extended (R151). -/
def sext8 (v : Word) : Word := (v.setWidth 8).signExtend 32

/-- The low halfword, sign-extended (R151). -/
def sext16 (v : Word) : Word := (v.setWidth 16).signExtend 32

/-- The low byte, zero-extended (R161). -/
def zext8 (v : Word) : Word := (v.setWidth 8).setWidth 32

/-- The low halfword, zero-extended (R161). -/
def zext16 (v : Word) : Word := (v.setWidth 16).setWidth 32

/-- A word as it is: `lw` needs no extension (R204). -/
def extNone (v : Word) : Word := v

end Sys2Proof.Machine
end

