-- ==== Sys2Proof/Machine/Flags.lean ====
section
/-! DEFINITION. Conditions. The hardware has no flag and no condition code (R21); a comparison either decides a branch or
becomes 1 or 0 in a register (R152 to R154, R186). -/

namespace Sys2Proof.Machine

/-- R152. -/
def condEq (a b : Word) : Bool := a == b

/-- The negation of `condEq` (R222). -/
def condNe (a b : Word) : Bool := !condEq a b

/-- `a <s b`, R153. -/
def condLtS (a b : Word) : Bool := decide (a.toInt < b.toInt)

/-- `a >=s b`, the negation of `condLtS` (R153). -/
def condGeS (a b : Word) : Bool := !condLtS a b

/-- `a <u b`, R154. -/
def condLtU (a b : Word) : Bool := decide (a.toNat < b.toNat)

/-- `a >=u b`, the negation of `condLtU` (R154). -/
def condGeU (a b : Word) : Bool := !condLtU a b

/-- The Word a comparison writes: "Result is 1 or 0 in the destination register" (R186). -/
def boolWord (c : Bool) : Word := if c then 1#32 else 0#32

end Sys2Proof.Machine
end

