-- ==== Sys2Proof/Config.lean ====
section
/-! DEFINITION. What is fixed for one machine: the section map and the other parameters of the step relation (R6, R30), held
as plain data in `State.cfg`, which no step writes (log entry 1); the answers the Syscall Bridge can give (R261, R262);
and the free value that stands for an answer nobody has fixed (log entry 5). -/

namespace Sys2Proof

/-! ### Sections (R41, R42) -/

/-- A section's name. No rule but the map's own well-formedness (R44 c, d) reads it: it says which section is the stack
and which two are the peripheral windows. -/
inductive SectionName where
  | program (label : String)
  | stack
  | periph0
  | periph1
deriving DecidableEq, Repr

/-- A placed section: it covers the addresses `base` to `base + size - 1`; `readOnly` makes stores fault, `exec` lets
fetch read it (R41, R42). Its bytes are in `State.mem`. -/
structure MemSection where
  name     : SectionName
  base     : Nat
  size     : Nat
  readOnly : Bool
  exec     : Bool
deriving DecidableEq, Repr

/-- Base and size of a peripheral window (R6 `PERIPH0`, `PERIPH1`). -/
structure Window where
  base : Nat
  size : Nat
deriving DecidableEq, Repr

/-! ### The Syscall Bridge (R261, R262, R264) -/

/-- One access the Bridge makes while it answers `Continue` (R262 a to c). -/
inductive BridgeAct where
  /-- a register write, R13 (so a write to x0 is discarded) -/
  | setReg (r : Reg) (v : Word)
  /-- a memory read, `MemRead` (R50): no effect, but it can fault -/
  | load (addr : Word) (width : Width)
  /-- a memory write, `MemWrite` (R51) -/
  | store (addr : Word) (width : Width) (v : Word)
deriving DecidableEq, Repr, Inhabited

/-- An answer of the Bridge (R261). `Continue` carries the Bridge's accesses in the order it makes them; the answer
`Fault(F)` of R262(e) is what `Continue` comes to when one of them faults (log entry 7). -/
inductive BridgeAnswer where
  | continue (acts : List BridgeAct)
  | exit (code : Word)
deriving DecidableEq, Repr, Inhabited

/-- Which Bridge the machine has: `host`, the OPEN relation of R262, or `reference`, the minimal one of R264. -/
inductive BridgeMode where
  | host
  | reference
deriving DecidableEq, Repr

/-- What the Bridge is shown at an `ecall`: the number (x17), the argument (x10), every register, every byte (R261). -/
structure BridgeRequest where
  num  : Word
  arg  : Word
  regs : Vector Word 32
  mem  : List Host.Cell
deriving DecidableEq, Repr

/-- What `auipc` adds to the instruction's address (R6, R191): 0, or 4 for the incremented pc. -/
inductive AuipcBias where
  | zero
  | four
deriving DecidableEq, Repr

/-- The bias as a Word. -/
def AuipcBias.word : AuipcBias → Word
  | .zero => 0#32
  | .four => 4#32

/-! ### The configuration (R6, R30) -/

/-- The parameters of the step relation. -/
structure Config where
  /-- `MAP`, in the order of loading (R44) -/
  map       : List MemSection
  /-- `STACK_BASE` -/
  stackBase : Nat
  /-- `STACK_SIZE` -/
  stackSize : Nat
  /-- `GUARD_BAND` (R122) -/
  guardBand : Nat
  /-- `PERIPH0` -/
  periph0   : Window
  /-- `PERIPH1` -/
  periph1   : Window
  /-- `AUIPC_BIAS` (R191) -/
  auipcBias : AuipcBias
  /-- `BRIDGE` (R262, R264) -/
  bridge    : BridgeMode
deriving DecidableEq, Repr

/-- The section a stack of this base and size is: mutable data (R44 c, R323). -/
def stackSection (base size : Nat) : MemSection :=
  { name := .stack, base := base, size := size, readOnly := false, exec := false }

/-- The section a peripheral window is: mutable data (R44 d, R56). -/
def windowSection (name : SectionName) (w : Window) : MemSection :=
  { name := name, base := w.base, size := w.size, readOnly := false, exec := false }

/-- The configuration of `State.reset`: no program section; the stack and the two peripheral windows. `STACK_SIZE`,
`GUARD_BAND` and `AUIPC_BIAS` are the defaults of R6; every address is a DESIGN CHOICE (log entry 2), since the spec
leaves all of them OPEN. -/
def Config.atReset : Config where
  map       := [stackSection 0x00030000 4096,
                windowSection .periph0 ⟨0xFFFF0000, 16⟩,
                windowSection .periph1 ⟨0xFFFF0010, 16⟩]
  stackBase := 0x00030000
  stackSize := 4096
  guardBand := 4096
  periph0   := ⟨0xFFFF0000, 16⟩
  periph1   := ⟨0xFFFF0010, 16⟩
  auipcBias := .zero
  bridge    := .host

/-- `ENTRY_PC` of `State.reset`: OPEN in the spec, a DESIGN CHOICE here (log entry 2). -/
def Config.entryPcAtReset : Word := 0x00010000#32

/-- FREE VALUE (log entry 5): the answer of the OPEN Bridge to the `n`-th call whose answer no input has fixed. It may
depend on all the Bridge is shown (R262); nothing in Lean can say what it is. -/
opaque Config.freeBridgeAnswer : Nat → BridgeRequest → BridgeAnswer

end Sys2Proof
end

