-- ==== Sys2Proof/Machine/State.lean ====
section
/-! DEFINITION. The machine's state (spec/10_state.md), its faults and refusals, and the state after reset (R31). -/

namespace Sys2Proof.Machine

/-- `run_state` (R22). -/
inductive RunState where
  | running
  | debugSuspended
  | halted
deriving DecidableEq, Repr

/-- The operation of a faulting access (R25, R59). -/
inductive AccessKind where
  | read
  | write
  | fetch
deriving DecidableEq, Repr

/-- Why an access faulted (R25, R283). -/
inductive AccessReason where
  | unmapped
  | misaligned
  | readOnly
  | notExecutable
deriving DecidableEq, Repr

/-- The fault classes and what each records (R25, R281). The spec describes what raising one does: it is written to
`State.fault` and the engine halts (R127, R291), a NEXT state. So a fault is data of the state, and the primitives that
raise one (`memRead`, `memWrite`, `fetch`) answer it to the operation that takes it; `step` never stops with one.
Each is safe: it is the spec's own behaviour. -/
inductive Fault where
  /-- Parse, code 1: raised only by a model given abstract Instructions (R112, R282): `Machine/Abstract.lean`. Safe. -/
  | parse
  /-- MemoryAccess, code 2: raised by `fetch`, `memRead`, `memWrite` and the alignment check of `lw` and `sw` (R283).
  Safe. -/
  | memoryAccess (addr : Word) (width : Width) (kind : AccessKind) (reason : AccessReason)
  /-- OutOfMemory, code 3: raised by section placement before reset is released (R284); no step raises it. Safe. -/
  | outOfMemory
  /-- StackOverflow, code 4: raised by the stack guard (R122, R285). Safe. -/
  | stackOverflow (sp : Word)
  /-- UnimplementedInstruction, code 5: raised at dispatch of a word that matches no row (R104, R286). Safe. -/
  | unimplemented (bits : Word)
deriving DecidableEq, Repr

/-- Why a step has no meaning. -/
inductive Refusal where
  /-- Raised by an arm of `exec` whose instruction has no meaning yet; no arm does. Safe. -/
  | notModelled (mnemonic : String)
  /-- Raised by `step` in a configuration whose section map breaks R44: "a MAP that breaks it has no meaning in this
  spec (the model refuses it)". Safe (log entry 9). -/
  | mapIllFormed
  /-- Raised by `ecall` under the reference Bridge for a number other than 93: "for every other number it has no answer
  defined, and a model using it refuses the program" (R264). Safe (log entry 6). -/
  | syscallUndefined (num : Word)
deriving DecidableEq, Repr

/-- The Debugger's two commands (R131). -/
inductive DebugCommand where
  | dbgStep
  | dbgResume
deriving DecidableEq, Repr

/-- The bytes of every section (R28) as (address, byte) pairs in one canonical form, `Memory.wf`: addresses strictly
rising, none listed with the byte an unlisted address holds. -/
abbrev Memory := List Host.Cell

/-- What an unlisted address holds (log entry 10): the zero the stack and the peripheral windows are filled with (R31). -/
def Memory.unlisted : Byte := 0#8

/-- The state: the spec's tuple (10_state.md, R10 to R28), the configuration (R30), and the two agents' inputs to come. -/
structure State where
  /-- the 32 general registers (R10); slot 0 is never read (R12, log entry 19) -/
  x             : Vector Word 32
  /-- the program counter (R16) -/
  pc            : Word
  /-- the bytes of every section (R28) -/
  mem           : Memory
  /-- `run_state` (R22) -/
  runState      : RunState
  /-- the step counter (R23) -/
  cycle         : Nat
  /-- `exit_code` (R24) -/
  exitCode      : Word
  /-- the fault record; `none` is class None (R25) -/
  fault         : Option Fault
  /-- the parameters of the step relation (R30); no step writes them (R28) -/
  cfg           : Config
  /-- MODEL'S OWN: the Debugger's commands to come, the next one first (R131, log entry 8) -/
  debugCommands : List DebugCommand
  /-- MODEL'S OWN: the Bridge's answers to come, the next one first (R262, log entry 5) -/
  bridgeAnswers : List BridgeAnswer
  /-- MODEL'S OWN: how many answers have been drawn from the free value (log entry 5) -/
  bridgeDraws   : Nat
deriving DecidableEq, Repr

/-- The machine when it leaves reset with configuration `cfg`, section bytes `mem` and entry point `entryPc` (R31):
x2 one past the stack section's last byte (R323), every other register 0. -/
def State.atReset (cfg : Config) (mem : Memory) (entryPc : Word) : State where
  x             := (Vector.replicate 32 0#32).set 2 (BitVec.ofNat 32 (cfg.stackBase + cfg.stackSize))
  pc            := entryPc
  mem           := mem
  runState      := .running
  cycle         := 0
  exitCode      := 0#32
  fault         := none
  cfg           := cfg
  debugCommands := []
  bridgeAnswers := []
  bridgeDraws   := 0

/-- The machine right after reset, in the configuration of log entry 2, with no program placed. -/
def State.reset : State := State.atReset Config.atReset [] Config.entryPcAtReset

end Sys2Proof.Machine
end

