-- ==== Sys2Proof/Machine/SectionMap.lean ====
section
/-! DEFINITION. The address decoder (R43) and the well-formedness of the section map (R44). -/

namespace Sys2Proof.Machine

/-- The section holds all of `a .. a+n-1`, in integers (R43, R58). -/
def sectionHolds (S : MemSection) (a n : Nat) : Bool := decide (S.base ≤ a) && decide (a + n ≤ S.base + S.size)

/-- `Resolve(addr, n)`: the section that holds the whole range, if one does (R43). -/
def resolve (map : List MemSection) (a n : Nat) : Option MemSection := map.find? (fun S => sectionHolds S a n)

/-- Two sections share no address (R44 a). -/
abbrev sectionsApart (S T : MemSection) : Prop := S.base + S.size ≤ T.base ∨ T.base + T.size ≤ S.base

/-- What R41 and R44 b, e, f ask of one section: not empty, inside the address space, code read-only and aligned. -/
abbrev sectionWf (S : MemSection) : Prop :=
  1 ≤ S.size ∧ S.base + S.size ≤ 2 ^ 32 ∧ (S.exec = true → S.readOnly = true) ∧ (S.exec = true → S.base % 4 = 0)

/-- The sections of a map that bear a name. -/
def sectionsNamed (map : List MemSection) (name : SectionName) : List MemSection :=
  map.filter (fun S => S.name == name)

/-- The map is well-formed (R44): (a) no two sections share an address; (b, e) each is inside the address space and code
is read-only; (c) exactly one is the stack; (d) exactly two are the peripheral windows; (f) code, the stack and its size
are aligned. -/
abbrev configWf (c : Config) : Prop :=
  c.map.Pairwise sectionsApart ∧ (∀ S ∈ c.map, sectionWf S)
    ∧ sectionsNamed c.map .stack = [stackSection c.stackBase c.stackSize]
    ∧ sectionsNamed c.map .periph0 = [windowSection .periph0 c.periph0]
    ∧ sectionsNamed c.map .periph1 = [windowSection .periph1 c.periph1]
    ∧ c.stackBase % 4 = 0 ∧ c.stackSize % 4 = 0

/-- Some section of the map holds this address. -/
def mapped (map : List MemSection) (a : Nat) : Bool := map.any (fun S => sectionHolds S a 1)

end Sys2Proof.Machine
end

