-- ==== Sys2Proof/Machine/Ops.lean ====
section
/-! DEFINITION. The named operations over registers and memory, taking a fault, taking the debug trap and returning from it,
exit, and the Syscall Bridge's part of an `ecall`. -/

namespace Sys2Proof.Machine

/-! ### Bytes (R28, R40) -/

/-- The byte at an address, mapped or not: callers resolve the address first. -/
def Memory.get : Memory → Nat → Byte
  | [], _ => Memory.unlisted
  | (c, d) :: m, a => if c = a then d else Memory.get m a

/-- Put a cell among cells of other addresses, before the first higher one. -/
def Memory.insert (a : Nat) (b : Byte) : Memory → Memory
  | [] => [(a, b)]
  | (c, d) :: m => if a < c then (a, b) :: (c, d) :: m else (c, d) :: Memory.insert a b m

/-- Every cell but this address's. -/
def Memory.erase (m : Memory) (a : Nat) : Memory := m.filter (fun c => !(c.1 == a))

/-- Write one byte, keeping the canonical form. -/
def Memory.set (m : Memory) (a : Nat) (b : Byte) : Memory :=
  if b = Memory.unlisted then Memory.erase m a else Memory.insert a b (Memory.erase m a)

/-- The bytes at `a .. a+n-1`, lowest address first. -/
def Memory.getBytes (m : Memory) (a : Nat) : Nat → List Byte
  | 0 => []
  | n + 1 => Memory.get m a :: Memory.getBytes m (a + 1) n

/-- Write bytes from `a` up. -/
def Memory.setBytes (m : Memory) (a : Nat) : List Byte → Memory
  | [] => m
  | b :: bs => Memory.setBytes (Memory.set m a b) (a + 1) bs

/-- The canonical form: addresses strictly rising, no entry that an unlisted address would read as. -/
abbrev Memory.wf (m : Memory) : Prop :=
  m.Pairwise (fun c d => c.1 < d.1) ∧ ∀ c ∈ m, c.2 ≠ Memory.unlisted

/-! ### Registers (R12, R13, R16) -/

/-- `x[r]`: x0 reads 0 always (R12). -/
def State.readReg (s : State) (r : Reg) : Word := if r = 0 then 0#32 else s.x[r.val]

/-- `x[r] <- v`: a write to x0 is discarded (R13). -/
def State.writeReg (s : State) (r : Reg) (v : Word) : State := if r = 0 then s else { s with x := s.x.set r.val v }

/-- `pc <- t` (R16). -/
def State.writePc (s : State) (t : Word) : State := { s with pc := t }

/-- Point 5 of the cycle: `pc <- pc + 4`, which wraps (R20, R124). -/
def State.advancePc (s : State) : State := s.writePc (s.pc + 4#32)

/-- The address the current instruction was fetched from, as a handler finds it: pc has already been advanced (R17). -/
def State.insnAddr (s : State) : Word := s.pc - 4#32

/-- Point 3 of the cycle (R123). -/
def State.countCycle (s : State) : State := { s with cycle := s.cycle + 1 }

/-! ### Access primitives (R50, R51, R53) -/

/-- The byte at an address, whatever the map says. -/
def State.byteAt (s : State) (a : Nat) : Byte := Memory.get s.mem a

/-- `MemRead(addr, n)`: the bytes, little-endian, zero-extended to a Word, or the fault (R47, R50). It does not look at
the section's flags (R45) nor at alignment (R49), and changes nothing. -/
def State.memRead (s : State) (addr : Word) (width : Width) : Except Fault Word :=
  match resolve s.cfg.map addr.toNat width.bytes with
  | none => .error (.memoryAccess addr width .read .unmapped)
  | some _ => .ok (wordOfBytes (Memory.getBytes s.mem addr.toNat width.bytes))

/-- `MemWrite(addr, n, v)`: the low bytes of `v`, little-endian, or the fault; both checks come before the first byte is
written (R46, R47, R51). -/
def State.memWrite (s : State) (addr : Word) (width : Width) (v : Word) : Except Fault State :=
  match resolve s.cfg.map addr.toNat width.bytes with
  | none => .error (.memoryAccess addr width .write .unmapped)
  | some S =>
    if S.readOnly then .error (.memoryAccess addr width .write .readOnly)
    else .ok { s with mem := Memory.setBytes s.mem addr.toNat (bytesOfWord width.bytes v) }

/-- The address is a multiple of 4 (R49). -/
def aligned4 (addr : Word) : Bool := addr.extractLsb' 0 2 == 0#2

/-- The fetch of `Fetch(addr)`, up to decoding: the instruction word, or the fault, alignment first, then mapping, then
the section's kind (R48, R53). -/
def State.fetch (s : State) (addr : Word) : Except Fault Word :=
  if aligned4 addr then
    match resolve s.cfg.map addr.toNat 4 with
    | none => .error (.memoryAccess addr .word .fetch .unmapped)
    | some S =>
      if S.exec then .ok (wordOfBytes (Memory.getBytes s.mem addr.toNat 4))
      else .error (.memoryAccess addr .word .fetch .notExecutable)
  else .error (.memoryAccess addr .word .fetch .misaligned)

/-! ### Faults, the debug trap, exit (R127, R128, R263, R291, R293, R294) -/

/-- TAKING A FAULT: it is recorded and the engine halts; nothing else changes (R127, R291). -/
def State.takeFault (s : State) (F : Fault) : State := { s with fault := some F, runState := .halted }

/-- TAKING THE DEBUG TRAP: the engine is debug-suspended afterwards, whether it was running or already suspended, and
nothing else changes (R128, R293). Which of the two it was is told by `stepReport`. -/
def State.takeDebugTrap (s : State) : State := { s with runState := .debugSuspended }

/-- THE RETURN from it: the Debugger's `dbg_resume`, which restores nothing because nothing was saved (R131, R294). -/
def State.resumeFromDebug (s : State) : State := { s with runState := .running }

/-- The Bridge's exit request (R263). -/
def State.takeExit (s : State) (code : Word) : State := { s with exitCode := code, runState := .halted }

/-! ### The Syscall Bridge (R261, R262, R264) -/

/-- The Bridge's accesses, in order. The first that faults ends them: that fault is taken and the writes made before it
stay (R262 b, c, e). -/
def State.bridgeActs : List BridgeAct → State → State
  | [], s => s
  | .setReg r v :: rest, s => State.bridgeActs rest (s.writeReg r v)
  | .load addr width :: rest, s =>
    match s.memRead addr width with
    | .ok _ => State.bridgeActs rest s
    | .error F => s.takeFault F
  | .store addr width v :: rest, s =>
    match s.memWrite addr width v with
    | .ok t => State.bridgeActs rest t
    | .error F => s.takeFault F

/-- What an answer does to the machine (R261, R263). -/
def State.applyAnswer (s : State) : BridgeAnswer → State
  | .continue acts => State.bridgeActs acts s
  | .exit code => s.takeExit code

/-- What the Bridge is shown (R261). -/
def State.bridgeRequest (s : State) (num arg : Word) : BridgeRequest :=
  { num := num, arg := arg, regs := s.x.set 0 0#32, mem := s.mem }

/-- The OPEN Bridge's answer: the next of the inputs to come, or a free value when none is given (log entry 5). -/
def State.hostAnswer (s : State) (num arg : Word) : BridgeAnswer :=
  match s.bridgeAnswers with
  | a :: _ => a
  | [] => Config.freeBridgeAnswer s.bridgeDraws (s.bridgeRequest num arg)

/-- That answer is used up. -/
def State.useAnswer (s : State) : State :=
  match s.bridgeAnswers with
  | _ :: rest => { s with bridgeAnswers := rest }
  | [] => { s with bridgeDraws := s.bridgeDraws + 1 }

/-- The reference Bridge: number 93 exits with the argument; no other number has an answer (R264). -/
def referenceBridge (num arg : Word) : Option BridgeAnswer := if num = 93#32 then some (.exit arg) else none

end Sys2Proof.Machine
end

