-- ==== Sys2Proof/Machine/Operands.lean ====
section
/-! DEFINITION. The operand forms: immediates as Words, the effective address, the targets of branches and jumps, the link
value, and what the handlers of each shape do with them. A handler runs with pc already advanced (R17, R124), so the
address of its own instruction is `State.insnAddr`. -/

namespace Sys2Proof.Machine

/-- The I- and S-format immediate as a Word: sign-extended, never scaled (R84, R86). -/
def immWord (imm : BitVec 12) : Word := imm.signExtend 32

/-- The U-format immediate: `imm20 ## 12'b0` (R88). -/
def upperWord (imm20 : BitVec 20) : Word := imm20 ++ 0#12

/-- `ea := x[rs1] + imm` (R200). -/
def effectiveAddress (s : State) (rs1 : Reg) (imm : BitVec 12) : Word := wordAdd (s.readReg rs1) (immWord imm)

/-- A branch's absolute target: its offset from the branch itself (R87, R90, R220). -/
def branchTarget (s : State) (off : BitVec 13) : Word := wordAdd s.insnAddr (off.signExtend 32)

/-- `jal`'s absolute target (R89, R90, R235). -/
def jumpTarget (s : State) (off : BitVec 21) : Word := wordAdd s.insnAddr (off.signExtend 32)

/-- `jalr`'s target: the sum with bit 0 cleared (R236). -/
def registerTarget (s : State) (rs1 : Reg) (imm : BitVec 12) : Word :=
  wordAnd (wordAdd (s.readReg rs1) (immWord imm)) 0xFFFFFFFE#32

/-- The link value: "PC *after* increment", the pc as the handler finds it (R230). -/
def linkValue (s : State) : Word := s.pc

/-- What `auipc` adds its immediate to: the instruction's address and the bias (R191). -/
def auipcBase (s : State) : Word := wordAdd s.insnAddr s.cfg.auipcBias.word

/-! ### What the handlers of one shape do -/

/-- A result in a register, and nothing else (R170). -/
def giveResult (rd : Reg) (v : Word) (s : State) : Host.Outcome State Fault Refusal := .next (s.writeReg rd v)

/-- Go to the target if the condition holds; otherwise do nothing (R220). -/
def branchIf (c : Bool) (target : Word) (s : State) : Host.Outcome State Fault Refusal :=
  .next (if c then s.writePc target else s)

/-- Write the link and jump; the target was computed before (R230, R236). -/
def jumpAndLink (rd : Reg) (target : Word) (s : State) : Host.Outcome State Fault Refusal :=
  .next ((s.writeReg rd (linkValue s)).writePc target)

/-- Read, extend, write the register; a fault is taken and nothing is written (R201). -/
def loadInto (rd : Reg) (ea : Word) (width : Width) (extend : Word → Word) (s : State) :
    Host.Outcome State Fault Refusal :=
  match s.memRead ea width with
  | .ok v => .next (s.writeReg rd (extend v))
  | .error F => .next (s.takeFault F)

/-- Store the low bytes of a Word; a fault is taken and nothing is written (R207). -/
def storeFrom (v : Word) (ea : Word) (width : Width) (s : State) : Host.Outcome State Fault Refusal :=
  match s.memWrite ea width v with
  | .ok t => .next t
  | .error F => .next (s.takeFault F)

end Sys2Proof.Machine
end

