-- ==== Sys2Proof/Machine/Control.lean ====
section
/-! DEFINITION. Control transfer (spec/44_control_transfer.md). No target is checked here: a bad one faults at the next fetch
(R238). There is no delay slot (R220, R230). -/

namespace Sys2Proof.Machine

/-- R221: taken when equal. -/
def execBeq (rs1 rs2 : Reg) (off : BitVec 13) (s : State) : Host.Outcome State Fault Refusal :=
  branchIf (condEq (s.readReg rs1) (s.readReg rs2)) (branchTarget s off) s

/-- R222: taken when different. -/
def execBne (rs1 rs2 : Reg) (off : BitVec 13) (s : State) : Host.Outcome State Fault Refusal :=
  branchIf (condNe (s.readReg rs1) (s.readReg rs2)) (branchTarget s off) s

/-- R223: taken when `x[rs1] <s x[rs2]`. -/
def execBlt (rs1 rs2 : Reg) (off : BitVec 13) (s : State) : Host.Outcome State Fault Refusal :=
  branchIf (condLtS (s.readReg rs1) (s.readReg rs2)) (branchTarget s off) s

/-- R224: taken when `x[rs1] >=s x[rs2]`. -/
def execBge (rs1 rs2 : Reg) (off : BitVec 13) (s : State) : Host.Outcome State Fault Refusal :=
  branchIf (condGeS (s.readReg rs1) (s.readReg rs2)) (branchTarget s off) s

/-- R225: taken when `x[rs1] <u x[rs2]`. -/
def execBltu (rs1 rs2 : Reg) (off : BitVec 13) (s : State) : Host.Outcome State Fault Refusal :=
  branchIf (condLtU (s.readReg rs1) (s.readReg rs2)) (branchTarget s off) s

/-- R226: taken when `x[rs1] >=u x[rs2]`. -/
def execBgeu (rs1 rs2 : Reg) (off : BitVec 13) (s : State) : Host.Outcome State Fault Refusal :=
  branchIf (condGeU (s.readReg rs1) (s.readReg rs2)) (branchTarget s off) s

/-- R235: link, then jump. -/
def execJal (rd : Reg) (off : BitVec 21) (s : State) : Host.Outcome State Fault Refusal :=
  jumpAndLink rd (jumpTarget s off) s

/-- R236: the target is computed from the old `x[rs1]`, then link, then jump. -/
def execJalr (rd rs1 : Reg) (imm : BitVec 12) (s : State) : Host.Outcome State Fault Refusal :=
  jumpAndLink rd (registerTarget s rs1 imm) s

end Sys2Proof.Machine
end

