-- ==== Sys2Proof/Machine/Integer.lean ====
section
/-! DEFINITION. The integer computational instructions (spec/42_integer_computational.md): each computes one Word, writes it
to `rd` and does nothing else (R170). -/

namespace Sys2Proof.Machine

/-! ### Register-register arithmetic and logic -/

/-- R171: `x[rd] <- x[rs1] + x[rs2]`. -/
def execAdd (rd rs1 rs2 : Reg) (s : State) : Host.Outcome State Fault Refusal :=
  giveResult rd (wordAdd (s.readReg rs1) (s.readReg rs2)) s

/-- R172: `x[rd] <- x[rs1] - x[rs2]`. -/
def execSub (rd rs1 rs2 : Reg) (s : State) : Host.Outcome State Fault Refusal :=
  giveResult rd (wordSub (s.readReg rs1) (s.readReg rs2)) s

/-- R173: `x[rd] <- x[rs1] & x[rs2]`. -/
def execAnd (rd rs1 rs2 : Reg) (s : State) : Host.Outcome State Fault Refusal :=
  giveResult rd (wordAnd (s.readReg rs1) (s.readReg rs2)) s

/-- R174: `x[rd] <- x[rs1] | x[rs2]`. -/
def execOr (rd rs1 rs2 : Reg) (s : State) : Host.Outcome State Fault Refusal :=
  giveResult rd (wordOr (s.readReg rs1) (s.readReg rs2)) s

/-- R175: `x[rd] <- x[rs1] ^ x[rs2]`. -/
def execXor (rd rs1 rs2 : Reg) (s : State) : Host.Outcome State Fault Refusal :=
  giveResult rd (wordXor (s.readReg rs1) (s.readReg rs2)) s

/-! ### Register-immediate arithmetic and logic -/

/-- R176: `x[rd] <- x[rs1] + imm`. -/
def execAddi (rd rs1 : Reg) (imm : BitVec 12) (s : State) : Host.Outcome State Fault Refusal :=
  giveResult rd (wordAdd (s.readReg rs1) (immWord imm)) s

/-- R177: `x[rd] <- x[rs1] & imm`, the sign-extended Word. -/
def execAndi (rd rs1 : Reg) (imm : BitVec 12) (s : State) : Host.Outcome State Fault Refusal :=
  giveResult rd (wordAnd (s.readReg rs1) (immWord imm)) s

/-- R178: `x[rd] <- x[rs1] | imm`, the sign-extended Word. -/
def execOri (rd rs1 : Reg) (imm : BitVec 12) (s : State) : Host.Outcome State Fault Refusal :=
  giveResult rd (wordOr (s.readReg rs1) (immWord imm)) s

/-- R179: `x[rd] <- x[rs1] ^ imm`, the sign-extended Word. -/
def execXori (rd rs1 : Reg) (imm : BitVec 12) (s : State) : Host.Outcome State Fault Refusal :=
  giveResult rd (wordXor (s.readReg rs1) (immWord imm)) s

/-! ### Shifts -/

/-- R180: shift left by the low 5 bits of `x[rs2]`. -/
def execSll (rd rs1 rs2 : Reg) (s : State) : Host.Outcome State Fault Refusal :=
  giveResult rd (shiftLeft (s.readReg rs1) (shiftAmount (s.readReg rs2))) s

/-- R181: logical shift right by the low 5 bits of `x[rs2]`. -/
def execSrl (rd rs1 rs2 : Reg) (s : State) : Host.Outcome State Fault Refusal :=
  giveResult rd (shiftRightLogical (s.readReg rs1) (shiftAmount (s.readReg rs2))) s

/-- R182: arithmetic shift right by the low 5 bits of `x[rs2]`. -/
def execSra (rd rs1 rs2 : Reg) (s : State) : Host.Outcome State Fault Refusal :=
  giveResult rd (shiftRightArith (s.readReg rs1) (shiftAmount (s.readReg rs2))) s

/-- R183: `x[rd] <- x[rs1] << shamt`. -/
def execSlli (rd rs1 : Reg) (shamt : BitVec 5) (s : State) : Host.Outcome State Fault Refusal :=
  giveResult rd (shiftLeft (s.readReg rs1) shamt) s

/-- R184: `x[rd] <- x[rs1] >>u shamt`. -/
def execSrli (rd rs1 : Reg) (shamt : BitVec 5) (s : State) : Host.Outcome State Fault Refusal :=
  giveResult rd (shiftRightLogical (s.readReg rs1) shamt) s

/-- R185: `x[rd] <- x[rs1] >>s shamt`. -/
def execSrai (rd rs1 : Reg) (shamt : BitVec 5) (s : State) : Host.Outcome State Fault Refusal :=
  giveResult rd (shiftRightArith (s.readReg rs1) shamt) s

/-! ### Comparisons -/

/-- R186: 1 if `x[rs1] <s x[rs2]`, else 0. -/
def execSlt (rd rs1 rs2 : Reg) (s : State) : Host.Outcome State Fault Refusal :=
  giveResult rd (boolWord (condLtS (s.readReg rs1) (s.readReg rs2))) s

/-- R187: 1 if `x[rs1] <u x[rs2]`, else 0. -/
def execSltu (rd rs1 rs2 : Reg) (s : State) : Host.Outcome State Fault Refusal :=
  giveResult rd (boolWord (condLtU (s.readReg rs1) (s.readReg rs2))) s

/-- R188: 1 if `x[rs1] <s imm`, else 0. -/
def execSlti (rd rs1 : Reg) (imm : BitVec 12) (s : State) : Host.Outcome State Fault Refusal :=
  giveResult rd (boolWord (condLtS (s.readReg rs1) (immWord imm))) s

/-- R189: 1 if `x[rs1] <u imm`, else 0; the immediate is sign-extended first. -/
def execSltiu (rd rs1 : Reg) (imm : BitVec 12) (s : State) : Host.Outcome State Fault Refusal :=
  giveResult rd (boolWord (condLtU (s.readReg rs1) (immWord imm))) s

/-! ### Upper immediate -/

/-- R190: `x[rd] <- imm20 ## 12'b0`. -/
def execLui (rd : Reg) (imm20 : BitVec 20) (s : State) : Host.Outcome State Fault Refusal :=
  giveResult rd (upperWord imm20) s

/-- R191: `x[rd] <- W(insn_addr + AUIPC_BIAS) + (imm20 ## 12'b0)`. -/
def execAuipc (rd : Reg) (imm20 : BitVec 20) (s : State) : Host.Outcome State Fault Refusal :=
  giveResult rd (wordAdd (auipcBase s) (upperWord imm20)) s

end Sys2Proof.Machine
end

