-- ==== Sys2Proof/Machine/LoadStore.lean ====
section
/-! DEFINITION. Loads and stores (spec/43_loads_stores.md). Only `lw` and `sw` check alignment, before the access (R49, R211). -/

namespace Sys2Proof.Machine

/-- R202: one byte, sign-extended. -/
def execLb (rd rs1 : Reg) (imm : BitVec 12) (s : State) : Host.Outcome State Fault Refusal :=
  loadInto rd (effectiveAddress s rs1 imm) .byte sext8 s

/-- R203: two bytes, sign-extended; any alignment. -/
def execLh (rd rs1 : Reg) (imm : BitVec 12) (s : State) : Host.Outcome State Fault Refusal :=
  loadInto rd (effectiveAddress s rs1 imm) .half sext16 s

/-- R204: four bytes; a misaligned address faults before the access. -/
def execLw (rd rs1 : Reg) (imm : BitVec 12) (s : State) : Host.Outcome State Fault Refusal :=
  if aligned4 (effectiveAddress s rs1 imm) then loadInto rd (effectiveAddress s rs1 imm) .word extNone s
  else .next (s.takeFault (.memoryAccess (effectiveAddress s rs1 imm) .word .read .misaligned))

/-- R205: one byte, zero-extended. -/
def execLbu (rd rs1 : Reg) (imm : BitVec 12) (s : State) : Host.Outcome State Fault Refusal :=
  loadInto rd (effectiveAddress s rs1 imm) .byte zext8 s

/-- R206: two bytes, zero-extended; any alignment. -/
def execLhu (rd rs1 : Reg) (imm : BitVec 12) (s : State) : Host.Outcome State Fault Refusal :=
  loadInto rd (effectiveAddress s rs1 imm) .half zext16 s

/-- R208: the low byte of `x[rs2]`. -/
def execSb (rs2 rs1 : Reg) (imm : BitVec 12) (s : State) : Host.Outcome State Fault Refusal :=
  storeFrom (s.readReg rs2) (effectiveAddress s rs1 imm) .byte s

/-- R209: the low two bytes of `x[rs2]`; any alignment. -/
def execSh (rs2 rs1 : Reg) (imm : BitVec 12) (s : State) : Host.Outcome State Fault Refusal :=
  storeFrom (s.readReg rs2) (effectiveAddress s rs1 imm) .half s

/-- R210: `x[rs2]`; a misaligned address faults before the access. -/
def execSw (rs2 rs1 : Reg) (imm : BitVec 12) (s : State) : Host.Outcome State Fault Refusal :=
  if aligned4 (effectiveAddress s rs1 imm) then storeFrom (s.readReg rs2) (effectiveAddress s rs1 imm) .word s
  else .next (s.takeFault (.memoryAccess (effectiveAddress s rs1 imm) .word .write .misaligned))

end Sys2Proof.Machine
end

