-- ==== Sys2Proof/Machine/System.lean ====
section
/-! DEFINITION. The system instructions (spec/45_system.md). -/

namespace Sys2Proof.Machine

/-- `a7`, the syscall-number register (R261). -/
def sysNumReg : Reg := 17

/-- `a0`, the argument and result register (R261). -/
def sysArgReg : Reg := 10

/-- R261: ask the Bridge and do what it answers. The OPEN Bridge always answers (R262 f); the reference Bridge answers only
number 93, and any other number has no meaning under it (R264). -/
def execEcall (s : State) : Host.Outcome State Fault Refusal :=
  match s.cfg.bridge with
  | .host => .next (s.useAnswer.applyAnswer (s.hostAnswer (s.readReg sysNumReg) (s.readReg sysArgReg)))
  | .reference =>
    match referenceBridge (s.readReg sysNumReg) (s.readReg sysArgReg) with
    | some a => .next (s.applyAnswer a)
    | none => .refused (.syscallUndefined (s.readReg sysNumReg))

/-- R265: raise the debug trap, which suspends the engine (R128). -/
def execEbreak (s : State) : Host.Outcome State Fault Refusal := .next s.takeDebugTrap

end Sys2Proof.Machine
end

