-- ==== Sys2Proof/Machine/Cycle.lean ====
section
/-! DEFINITION. The fetch-decode-execute cycle and the engine state machine (spec/40_execution_cycle.md), what a step reports
(R129), what the Debugger sees (R32), and the placing of one word where the machine fetches next. -/

namespace Sys2Proof.Machine

/-- The stack pointer, x2 (R14, R122). -/
def stackPointer : Reg := 2

/-- Point 2, the stack guard: in integers, x2 read unsigned, strict (R122). -/
def State.guardFires (s : State) : Bool :=
  decide ((s.readReg stackPointer).toNat < s.cfg.stackBase + s.cfg.guardBand)

/-- Points 2 and 3, and then the rest of the step: the guard's fault comes before the cycle is counted (R122, R123). -/
def guarded (rest : State → Host.Outcome State Fault Refusal) (s : State) : Host.Outcome State Fault Refusal :=
  if s.guardFires then .next (s.takeFault (.stackOverflow (s.readReg stackPointer))) else rest s.countCycle

/-- Points 4 to 8. A fault ends the step where it is raised: a fetch's before pc is advanced (R124), an unknown word's
after (R125). -/
def fetchAndRun (s : State) : Host.Outcome State Fault Refusal :=
  match s.fetch s.pc with
  | .error F => .next (s.takeFault F)
  | .ok w =>
    match decodeWord w with
    | .error _ => .next (s.advancePc.takeFault (.unimplemented w))
    | .ok i => exec i s.advancePc

/-- Points 2 to 8 of one `Step`, for an engine that is not halted (R120). -/
def engineStep (s : State) : Host.Outcome State Fault Refusal := guarded fetchAndRun s

/-- One transition of a machine whose engine steps by `engine`. Halted: nothing, so no step runs and no second fault follows
a first (R121, R294). Running: the engine takes a step (R130). Debug-suspended: the Debugger's next command, `dbg_step` or
`dbg_resume` (R131); while there is none the engine is held and nothing changes (R130, log entry 8). A section map that
breaks R44 has no meaning. -/
def transition (engine : State → Host.Outcome State Fault Refusal) (s : State) : Host.Outcome State Fault Refusal :=
  if configWf s.cfg then
    match s.runState with
    | .halted => .next s
    | .running => engine s
    | .debugSuspended =>
      match s.debugCommands with
      | [] => .next s
      | .dbgStep :: rest => engine { s with debugCommands := rest }
      | .dbgResume :: rest => .next ({ s with debugCommands := rest }).resumeFromDebug
  else .refused .mapIllFormed

/-- One transition of the machine. -/
def machineStep (s : State) : Host.Outcome State Fault Refusal := transition engineStep s

/-! ### Reports (R129) -/

/-- What `Step` returns to whoever called it. -/
inductive StepReport where
  | continued
  | halted (code : Word)
  | debugTrap
  | debugTrapPropagated
deriving DecidableEq, Repr

/-- The word at pc is `ebreak` and the engine gets as far as fetching it. -/
def State.atBreakpoint (s : State) : Bool :=
  !s.guardFires && (match s.fetch s.pc with
    | .ok w => decide (decodeWord w = .ok .ebreak)
    | .error _ => false)

/-- The report of a step the engine takes from `s`: `DebugTrap` when it was running, `DebugTrapPropagated` when a debugger
was already attached, that is, when it was debug-suspended (R128, R129). -/
def engineReport (s : State) : Option StepReport :=
  match engineStep s with
  | .next t =>
    if t.runState = .halted then some (.halted t.exitCode)
    else if s.atBreakpoint then
      (if s.runState = .debugSuspended then some .debugTrapPropagated else some .debugTrap)
    else some .continued
  | .fault _ => none
  | .refused _ => none

/-- The report of the machine's next transition; none while the engine is held or resumed, when no `Step` is taken. -/
def stepReport (s : State) : Option StepReport :=
  match s.runState with
  | .halted => some (.halted s.exitCode)
  | .running => engineReport s
  | .debugSuspended =>
    match s.debugCommands with
    | .dbgStep :: rest => engineReport { s with debugCommands := rest }
    | _ => none

/-! ### Encodings no rule depends on (R22, R281) -/

/-- The `run_state` code of R22; 2'b11 is never produced. -/
def RunState.code : RunState → BitVec 2
  | .running => 0b00#2
  | .debugSuspended => 0b01#2
  | .halted => 0b10#2

/-- The `fault.class` code of R281; 6, DebugTrap, is never stored. -/
def faultClassCode : Option Fault → Nat
  | none => 0
  | some .parse => 1
  | some (.memoryAccess _ _ _ _) => 2
  | some .outOfMemory => 3
  | some (.stackOverflow _) => 4
  | some (.unimplemented _) => 5

/-! ### The Debugger's view (R32) -/

/-- "the core exposes its full Register File, Address Space, and current program counter/cycle count for inspection". -/
structure Inspection where
  regs  : Vector Word 32
  pc    : Word
  map   : List MemSection
  mem   : Memory
  cycle : Nat
deriving DecidableEq, Repr

/-- What the Debugger may read, and when: only while the engine is debug-suspended; reading changes nothing. -/
def inspect (s : State) : Option Inspection :=
  if s.runState = .debugSuspended then
    some { regs := Vector.ofFn s.readReg, pc := s.pc, map := s.cfg.map, mem := s.mem, cycle := s.cycle }
  else none

/-! ### Placing one word (log entry 17) -/

/-- The code section that holds one instruction at `base`. -/
def oneWordSection (base : Nat) : MemSection :=
  { name := .program "text", base := base, size := 4, readOnly := true, exec := true }

/-- The map with `base .. base+3` in a code section: as it is if it has one there, else with one added. -/
def mapWithCodeAt (map : List MemSection) (base : Nat) : List MemSection :=
  if (resolve map base 4).any (fun S => S.exec) then map else map ++ [oneWordSection base]

/-- The Loader's part for one instruction: its four bytes, in code at pc, and an engine that runs (R321). -/
def State.placeWordAtPc (s : State) (w : Word) : State :=
  { s with
    cfg := { s.cfg with map := mapWithCodeAt s.cfg.map s.pc.toNat }
    mem := Memory.setBytes s.mem s.pc.toNat (bytesOfWord 4 w)
    runState := .running }

end Sys2Proof.Machine
end

