-- ==== Sys2Proof/Machine/Step.lean ====
section
/-! DEFINITION. One step of the machine, and a state whose next step runs a given word. -/

namespace Sys2Proof.Machine

/-- One step (R120, R121, R130, R131): `machineStep` of Machine/Cycle.lean. -/
def step (s : State) : Host.Outcome State Fault Refusal := machineStep s

/-- `s` with the instruction whose bits are `w` (those from `nbits` up being 0) stored at pc, where `step` fetches next: in
a code section there, which is added to the map if pc is in none. What it leaves to `s` is that the stack guard passes
and that pc is a multiple of 4 outside every data section, as both are at reset (log entry 17). -/
def State.withFetchWord (s : State) (nbits w : Nat) : State := s.placeWordAtPc (BitVec.ofNat 32 (w % 2 ^ nbits))

end Sys2Proof.Machine
end

