-- ==== Sys2Proof/Machine/Abstract.lean ====
section
/-! DEFINITION. The abstract interface: an engine handed an already-structured Instruction, a mnemonic with an ordered operand
list (R90). It is the only place where the Parse class is raised (R112, R282); `step`, which fetches words, cannot. -/

namespace Sys2Proof.Machine

/-- One operand (R90): a register, an immediate value, or a (register, offset) memory operand. -/
inductive Operand where
  | reg (r : Reg)
  | imm (v : Int)
  | mem (base : Reg) (off : Int)
deriving DecidableEq, Repr

/-- "opcode name + ordered list of operands" (R9). -/
structure AbstractInstr where
  mnemonic : Mnemonic
  operands : List Operand
deriving DecidableEq, Repr

/-- A signed 12-bit immediate, -2048 to 2047 (R107). -/
def imm12Of (v : Int) : Option (BitVec 12) :=
  if -2048 ≤ v ∧ v ≤ 2047 then some (BitVec.ofInt 12 v) else none

/-- An upper immediate, 0 to 0xFFFFF (R107). -/
def imm20Of (v : Int) : Option (BitVec 20) := if 0 ≤ v ∧ v ≤ 0xFFFFF then some (BitVec.ofInt 20 v) else none

/-- A shift amount, 0 to 31 (R107). -/
def shamtOf (v : Int) : Option (BitVec 5) := if 0 ≤ v ∧ v ≤ 31 then some (BitVec.ofInt 5 v) else none

/-- The distance from `addr` to an absolute target, as the Word the target addition undoes (R90). -/
def targetDistance (addr : Word) (target : Int) : Word := wordSub (BitVec.ofInt 32 target) addr

/-- A branch's offset: the target is an address, and the distance to it even and within -4096 to 4094 (R87, R107). -/
def branchOffsetOf (addr : Word) (target : Int) : Option (BitVec 13) :=
  if 0 ≤ target ∧ target < 2 ^ 32 ∧ (targetDistance addr target).getLsbD 0 = false
      ∧ -4096 ≤ (targetDistance addr target).toInt ∧ (targetDistance addr target).toInt ≤ 4094 then
    some ((targetDistance addr target).setWidth 13)
  else none

/-- `jal`'s offset: even and within -1048576 to 1048574 (R89, R107). -/
def jumpOffsetOf (addr : Word) (target : Int) : Option (BitVec 21) :=
  if 0 ≤ target ∧ target < 2 ^ 32 ∧ (targetDistance addr target).getLsbD 0 = false
      ∧ -1048576 ≤ (targetDistance addr target).toInt ∧ (targetDistance addr target).toInt ≤ 1048574 then
    some ((targetDistance addr target).setWidth 21)
  else none

/-- [reg rd, reg rs1, reg rs2] -/
def parseR (f : Reg → Reg → Reg → Instr) : List Operand → Option Instr
  | [.reg rd, .reg rs1, .reg rs2] => some (f rd rs1 rs2)
  | _ => none

/-- [reg rd, reg rs1, imm] -/
def parseI (f : Reg → Reg → BitVec 12 → Instr) : List Operand → Option Instr
  | [.reg rd, .reg rs1, .imm v] => (imm12Of v).map (f rd rs1)
  | _ => none

/-- [reg rd, reg rs1, imm shamt] -/
def parseShift (f : Reg → Reg → BitVec 5 → Instr) : List Operand → Option Instr
  | [.reg rd, .reg rs1, .imm v] => (shamtOf v).map (f rd rs1)
  | _ => none

/-- [reg, mem(rs1, imm)], of the loads and the stores -/
def parseMem (f : Reg → Reg → BitVec 12 → Instr) : List Operand → Option Instr
  | [.reg r, .mem rs1 v] => (imm12Of v).map (f r rs1)
  | _ => none

/-- [reg rs1, reg rs2, imm target] -/
def parseB (addr : Word) (f : Reg → Reg → BitVec 13 → Instr) : List Operand → Option Instr
  | [.reg rs1, .reg rs2, .imm target] => (branchOffsetOf addr target).map (f rs1 rs2)
  | _ => none

/-- [reg rd, imm imm20] -/
def parseU (f : Reg → BitVec 20 → Instr) : List Operand → Option Instr
  | [.reg rd, .imm v] => (imm20Of v).map (f rd)
  | _ => none

/-- [reg rd, imm target] -/
def parseJ (addr : Word) (f : Reg → BitVec 21 → Instr) : List Operand → Option Instr
  | [.reg rd, .imm target] => (jumpOffsetOf addr target).map (f rd)
  | _ => none

/-- [] -/
def parseNone (i : Instr) : List Operand → Option Instr
  | [] => some i
  | _ => none

/-- The instruction an abstract one at `addr` is, if its operand list has the shape of R90 and its immediates are in the
ranges of R107. -/
def parseAbstract (addr : Word) (a : AbstractInstr) : Option Instr :=
  match a.mnemonic with
  | .lui => parseU .lui a.operands
  | .auipc => parseU .auipc a.operands
  | .jal => parseJ addr .jal a.operands
  | .jalr => parseI .jalr a.operands
  | .beq => parseB addr .beq a.operands
  | .bne => parseB addr .bne a.operands
  | .blt => parseB addr .blt a.operands
  | .bge => parseB addr .bge a.operands
  | .bltu => parseB addr .bltu a.operands
  | .bgeu => parseB addr .bgeu a.operands
  | .lb => parseMem .lb a.operands
  | .lh => parseMem .lh a.operands
  | .lw => parseMem .lw a.operands
  | .lbu => parseMem .lbu a.operands
  | .lhu => parseMem .lhu a.operands
  | .sb => parseMem .sb a.operands
  | .sh => parseMem .sh a.operands
  | .sw => parseMem .sw a.operands
  | .addi => parseI .addi a.operands
  | .slti => parseI .slti a.operands
  | .sltiu => parseI .sltiu a.operands
  | .xori => parseI .xori a.operands
  | .ori => parseI .ori a.operands
  | .andi => parseI .andi a.operands
  | .slli => parseShift .slli a.operands
  | .srli => parseShift .srli a.operands
  | .srai => parseShift .srai a.operands
  | .add => parseR .add a.operands
  | .sub => parseR .sub a.operands
  | .sll => parseR .sll a.operands
  | .slt => parseR .slt a.operands
  | .sltu => parseR .sltu a.operands
  | .xor => parseR .xor a.operands
  | .srl => parseR .srl a.operands
  | .sra => parseR .sra a.operands
  | .or => parseR .or a.operands
  | .and => parseR .and a.operands
  | .ecall => parseNone .ecall a.operands
  | .ebreak => parseNone .ebreak a.operands

/-- The absolute target an offset names, as an immediate operand (R90). -/
def targetOperand (addr : Word) (offset : Word) : Operand := .imm (wordAdd addr offset).toNat

/-- The operand list `Decode` gives the handlers for an instruction at `addr` (R90). -/
def operandsOf (addr : Word) : Instr → AbstractInstr
  | .lui rd imm20 => ⟨.lui, [.reg rd, .imm imm20.toNat]⟩
  | .auipc rd imm20 => ⟨.auipc, [.reg rd, .imm imm20.toNat]⟩
  | .jal rd off => ⟨.jal, [.reg rd, targetOperand addr (off.signExtend 32)]⟩
  | .jalr rd rs1 imm => ⟨.jalr, [.reg rd, .reg rs1, .imm imm.toInt]⟩
  | .beq rs1 rs2 off => ⟨.beq, [.reg rs1, .reg rs2, targetOperand addr (off.signExtend 32)]⟩
  | .bne rs1 rs2 off => ⟨.bne, [.reg rs1, .reg rs2, targetOperand addr (off.signExtend 32)]⟩
  | .blt rs1 rs2 off => ⟨.blt, [.reg rs1, .reg rs2, targetOperand addr (off.signExtend 32)]⟩
  | .bge rs1 rs2 off => ⟨.bge, [.reg rs1, .reg rs2, targetOperand addr (off.signExtend 32)]⟩
  | .bltu rs1 rs2 off => ⟨.bltu, [.reg rs1, .reg rs2, targetOperand addr (off.signExtend 32)]⟩
  | .bgeu rs1 rs2 off => ⟨.bgeu, [.reg rs1, .reg rs2, targetOperand addr (off.signExtend 32)]⟩
  | .lb rd rs1 imm => ⟨.lb, [.reg rd, .mem rs1 imm.toInt]⟩
  | .lh rd rs1 imm => ⟨.lh, [.reg rd, .mem rs1 imm.toInt]⟩
  | .lw rd rs1 imm => ⟨.lw, [.reg rd, .mem rs1 imm.toInt]⟩
  | .lbu rd rs1 imm => ⟨.lbu, [.reg rd, .mem rs1 imm.toInt]⟩
  | .lhu rd rs1 imm => ⟨.lhu, [.reg rd, .mem rs1 imm.toInt]⟩
  | .sb rs2 rs1 imm => ⟨.sb, [.reg rs2, .mem rs1 imm.toInt]⟩
  | .sh rs2 rs1 imm => ⟨.sh, [.reg rs2, .mem rs1 imm.toInt]⟩
  | .sw rs2 rs1 imm => ⟨.sw, [.reg rs2, .mem rs1 imm.toInt]⟩
  | .addi rd rs1 imm => ⟨.addi, [.reg rd, .reg rs1, .imm imm.toInt]⟩
  | .slti rd rs1 imm => ⟨.slti, [.reg rd, .reg rs1, .imm imm.toInt]⟩
  | .sltiu rd rs1 imm => ⟨.sltiu, [.reg rd, .reg rs1, .imm imm.toInt]⟩
  | .xori rd rs1 imm => ⟨.xori, [.reg rd, .reg rs1, .imm imm.toInt]⟩
  | .ori rd rs1 imm => ⟨.ori, [.reg rd, .reg rs1, .imm imm.toInt]⟩
  | .andi rd rs1 imm => ⟨.andi, [.reg rd, .reg rs1, .imm imm.toInt]⟩
  | .slli rd rs1 shamt => ⟨.slli, [.reg rd, .reg rs1, .imm shamt.toNat]⟩
  | .srli rd rs1 shamt => ⟨.srli, [.reg rd, .reg rs1, .imm shamt.toNat]⟩
  | .srai rd rs1 shamt => ⟨.srai, [.reg rd, .reg rs1, .imm shamt.toNat]⟩
  | .add rd rs1 rs2 => ⟨.add, [.reg rd, .reg rs1, .reg rs2]⟩
  | .sub rd rs1 rs2 => ⟨.sub, [.reg rd, .reg rs1, .reg rs2]⟩
  | .sll rd rs1 rs2 => ⟨.sll, [.reg rd, .reg rs1, .reg rs2]⟩
  | .slt rd rs1 rs2 => ⟨.slt, [.reg rd, .reg rs1, .reg rs2]⟩
  | .sltu rd rs1 rs2 => ⟨.sltu, [.reg rd, .reg rs1, .reg rs2]⟩
  | .xor rd rs1 rs2 => ⟨.xor, [.reg rd, .reg rs1, .reg rs2]⟩
  | .srl rd rs1 rs2 => ⟨.srl, [.reg rd, .reg rs1, .reg rs2]⟩
  | .sra rd rs1 rs2 => ⟨.sra, [.reg rd, .reg rs1, .reg rs2]⟩
  | .or rd rs1 rs2 => ⟨.or, [.reg rd, .reg rs1, .reg rs2]⟩
  | .and rd rs1 rs2 => ⟨.and, [.reg rd, .reg rs1, .reg rs2]⟩
  | .ecall => ⟨.ecall, []⟩
  | .ebreak => ⟨.ebreak, []⟩

/-- Points 5 and 6 for an Instruction handed to the engine: pc advances, then Parse if the operand list is malformed,
before anything is read or written (R112, R282), else the handler. -/
def execAbstract (a : AbstractInstr) (s : State) : Host.Outcome State Fault Refusal :=
  match parseAbstract s.pc a with
  | none => .next (s.advancePc.takeFault .parse)
  | some i => exec i s.advancePc

/-- Points 2 to 8 for an engine that is handed the Instruction instead of fetching it (R120). -/
def abstractEngineStep (a : AbstractInstr) (s : State) : Host.Outcome State Fault Refusal := guarded (execAbstract a) s

/-- A step of a machine that is handed the Instruction: as the step that fetches, so halted it changes nothing, and
suspended it waits for the Debugger (R121, R130, R131, R294). -/
def abstractStep (a : AbstractInstr) (s : State) : Host.Outcome State Fault Refusal := transition (abstractEngineStep a) s

end Sys2Proof.Machine
end

