-- ==== Sys2Proof/Machine/Boot.lean ====
section
/-! DEFINITION. The boot procedure (spec/70_reset_and_hazards.md R321 to R323): how the Loader places the sections and what
machine results. `step` does not use it: a machine that runs has booted. -/

namespace Sys2Proof.Machine

/-- A section's placement mode (R41, R322). -/
inductive Placement where
  | fixed (base : Nat)
  | relocatable
deriving DecidableEq, Repr

/-- A program section as the Loader is given it: its initial bytes, one per address (R321, R31). -/
structure ProgramSection where
  label     : String
  placement : Placement
  readOnly  : Bool
  exec      : Bool
  bytes     : List Byte
deriving DecidableEq, Repr

/-- The Loader's inputs (R6, R321). The symbol table is not among them: no rule reads it (R5 b). -/
structure BootInput where
  sections  : List ProgramSection
  stackSize : Nat
  guardBand : Nat
  periph0   : Window
  periph1   : Window
  relocBase : Nat
  entryPc   : Word
  auipcBias : AuipcBias
  bridge    : BridgeMode
deriving DecidableEq, Repr

/-- Why boot fails; no machine starts then (R284, R321). -/
inductive BootFailure where
  /-- a failure signal: the section would overlap one already placed (R322) -/
  | overlap
  /-- the OutOfMemory class: past the top of the address space (R284, R322) -/
  | outOfMemory
  /-- the placed map breaks R44 -/
  | mapIllFormed
deriving DecidableEq, Repr

/-- The fault record of a boot failure: OutOfMemory has a class, overlap has only a failure signal (R284, R322). -/
def BootFailure.fault : BootFailure → Option Fault
  | .outOfMemory => some .outOfMemory
  | .overlap => none
  | .mapIllFormed => none

/-- The next multiple of 4 (R322). -/
def roundUp4 (n : Nat) : Nat := (n + 3) / 4 * 4

/-- The highest end of the sections already placed, and at least `RELOC_BASE` (R322). -/
def highestEnd (relocBase : Nat) : List MemSection → Nat
  | [] => relocBase
  | S :: map => max (S.base + S.size) (highestEnd relocBase map)

/-- Where a section goes (R322). -/
def placementBase (relocBase : Nat) (map : List MemSection) : Placement → Nat
  | .fixed base => base
  | .relocatable => roundUp4 (highestEnd relocBase map)

/-- `load_section`: the section as placed, or why not; exhaustion is tested before overlap (R322). -/
def loadSection (relocBase : Nat) (map : List MemSection) (placement : Placement) (S : MemSection) :
    Except BootFailure MemSection :=
  if placementBase relocBase map placement + S.size > 2 ^ 32 then .error .outOfMemory
  else if ∀ T ∈ map, sectionsApart { S with base := placementBase relocBase map placement } T then
    .ok { S with base := placementBase relocBase map placement }
  else .error .overlap

/-- The section a program section asks for, before it has a base. -/
def ProgramSection.request (p : ProgramSection) : MemSection :=
  { name := .program p.label, base := 0, size := p.bytes.length, readOnly := p.readOnly, exec := p.exec }

/-- The program's sections, in the given order, with their bytes (R321). -/
def loadPrograms (relocBase : Nat) :
    List ProgramSection → List MemSection → Memory → Except BootFailure (List MemSection × Memory)
  | [], map, mem => .ok (map, mem)
  | p :: rest, map, mem =>
    match loadSection relocBase map p.placement p.request with
    | .error e => .error e
    | .ok S => loadPrograms relocBase rest (map ++ [S]) (Memory.setBytes mem S.base p.bytes)

/-- `setup_stack`: the stack, then the two windows, on top of the program's sections; the configuration that results
(R321, R323). The stack's and the windows' bytes are all zero, as an unlisted byte is. -/
def setupStack (b : BootInput) (map : List MemSection) : Except BootFailure Config :=
  match loadSection b.relocBase map .relocatable (stackSection 0 b.stackSize) with
  | .error e => .error e
  | .ok stack =>
    match loadSection b.relocBase (map ++ [stack]) (.fixed b.periph0.base) (windowSection .periph0 b.periph0) with
    | .error e => .error e
    | .ok p0 =>
      match loadSection b.relocBase (map ++ [stack, p0]) (.fixed b.periph1.base) (windowSection .periph1 b.periph1) with
      | .error e => .error e
      | .ok p1 =>
        .ok { map := map ++ [stack, p0, p1], stackBase := stack.base, stackSize := b.stackSize, guardBand := b.guardBand,
              periph0 := b.periph0, periph1 := b.periph1, auipcBias := b.auipcBias, bridge := b.bridge }

/-- `Boot`: the machine at its first step, or why there is none (R321). -/
def boot (b : BootInput) : Except BootFailure State :=
  match loadPrograms b.relocBase b.sections [] [] with
  | .error e => .error e
  | .ok (map, mem) =>
    match setupStack b map with
    | .error e => .error e
    | .ok cfg => if configWf cfg then .ok (State.atReset cfg mem b.entryPc) else .error .mapIllFormed

/-- The inputs whose boot is `State.reset` (log entry 2). -/
def bootInputAtReset : BootInput where
  sections  := []
  stackSize := 4096
  guardBand := 4096
  periph0   := ⟨0xFFFF0000, 16⟩
  periph1   := ⟨0xFFFF0010, 16⟩
  relocBase := 0x00030000
  entryPc   := Config.entryPcAtReset
  auipcBias := .zero
  bridge    := .host

end Sys2Proof.Machine
end

