-- ==== Sys2Proof/Machine/Pseudo.lean ====
section
/-! DEFINITION. The assembler's pseudo-instructions and alias names (R108 to R110): each stands for canonical instructions and
has no encoding of its own. The marker no-ops of R111 do not exist in this hardware. -/

namespace Sys2Proof.Machine

/-- The spellings of R108 to R110. An offset is relative to the instruction itself, as in the branch it stands for. -/
inductive Pseudo where
  | bgt  (rs rt : Reg) (off : BitVec 13)
  | ble  (rs rt : Reg) (off : BitVec 13)
  | bgtu (rs rt : Reg) (off : BitVec 13)
  | bleu (rs rt : Reg) (off : BitVec 13)
  | beqz (rs : Reg) (off : BitVec 13)
  | bnez (rs : Reg) (off : BitVec 13)
  | bltz (rs : Reg) (off : BitVec 13)
  | bgez (rs : Reg) (off : BitVec 13)
  | bgtz (rs : Reg) (off : BitVec 13)
  | blez (rs : Reg) (off : BitVec 13)
  | j    (off : BitVec 21)
  | jal  (off : BitVec 21)
  | call (off : BitVec 21)
  | jr   (rs : Reg)
  | jalr (rs : Reg)
  | ret
  | nop
  | li   (rd : Reg) (c : Word)
  | scall
  | sbreak
deriving DecidableEq, Repr

/-- `lo`, the low 12 bits of a constant, which `addi` sign-extends (R110). -/
def liLow (c : Word) : BitVec 12 := c.extractLsb' 0 12

/-- `hi = (C - lo)[31:12]` (R110). -/
def liHigh (c : Word) : BitVec 20 := (wordSub c (immWord (liLow c))).extractLsb' 12 20

/-- The constant is in -2048 .. 2047 (R110). -/
def liIsShort (c : Word) : Bool := decide (-2048 ≤ c.toInt) && decide (c.toInt ≤ 2047)

/-- The canonical instructions a spelling stands for (R108 to R110). The long `li` keeps its `addi` when `lo` is 0, which
R110 allows an assembler to leave out. -/
def Pseudo.expand : Pseudo → List Instr
  | .bgt rs rt off  => [.blt rt rs off]
  | .ble rs rt off  => [.bge rt rs off]
  | .bgtu rs rt off => [.bltu rt rs off]
  | .bleu rs rt off => [.bgeu rt rs off]
  | .beqz rs off    => [.beq rs 0 off]
  | .bnez rs off    => [.bne rs 0 off]
  | .bltz rs off    => [.blt rs 0 off]
  | .bgez rs off    => [.bge rs 0 off]
  | .bgtz rs off    => [.blt 0 rs off]
  | .blez rs off    => [.bge 0 rs off]
  | .j off          => [.jal 0 off]
  | .jal off        => [.jal 1 off]
  | .call off       => [.jal 1 off]
  | .jr rs          => [.jalr 0 rs 0#12]
  | .jalr rs        => [.jalr 1 rs 0#12]
  | .ret            => [.jalr 0 1 0#12]
  | .nop            => [.addi 0 0 0#12]
  | .li rd c        => if liIsShort c then [.addi rd 0 (liLow c)] else [.lui rd (liHigh c), .addi rd rd (liLow c)]
  | .scall          => [.ecall]
  | .sbreak         => [.ebreak]

/-- The assembler's names of the registers, by number (R11); x8 is also written `fp`. No rule depends on them. -/
def abiNames : List String :=
  ["zero", "ra", "sp", "gp", "tp", "t0", "t1", "t2", "s0", "s1", "a0", "a1", "a2", "a3", "a4", "a5",
   "a6", "a7", "s2", "s3", "s4", "s5", "s6", "s7", "s8", "s9", "s10", "s11", "t3", "t4", "t5", "t6"]

end Sys2Proof.Machine
end

