-- ==== Sys2Proof/Safety.lean ====
section
/-! DEFINITION. The terms claims are stated in: the invariant of reachable states, how a run ends, and what it is for an
instruction to leave parts of the state alone. -/

namespace Sys2Proof.Machine

/-- The invariant every reachable state meets. -/
structure Inv (s : State) : Prop where
  /-- the section map is well-formed (R44) -/
  map      : configWf s.cfg
  /-- memory is in its canonical form -/
  memory   : Memory.wf s.mem
  /-- only addresses inside a placed section hold a byte (R28) -/
  held     : ∀ c ∈ s.mem, mapped s.cfg.map c.1 = true
  /-- the unread slot of x0 is 0 -/
  zero     : s.x[0] = 0#32
  /-- a recorded fault has halted the engine (R127, R291) -/
  faulted  : s.fault ≠ none → s.runState = .halted
  /-- an exit code is only there after an exit request: halted, and no fault (R24, R263) -/
  exited   : s.exitCode ≠ 0#32 → s.runState = .halted ∧ s.fault = none

/-- The end of a run (R133). -/
def ended (s : State) : Prop := s.runState = .halted

/-- A normal end (R133). -/
def endedNormally (s : State) : Prop := s.runState = .halted ∧ s.fault = none

/-- The engine takes a step from `s` (R130, R131): it runs, or the Debugger has commanded one. -/
def stepping (s : State) : Prop :=
  s.runState = .running ∨ (s.runState = .debugSuspended ∧ ∃ rest, s.debugCommands = .dbgStep :: rest)

/-- The state the engine steps from: the command that made it step is used up. -/
def commandTaken (s : State) : State :=
  if s.runState = .debugSuspended then { s with debugCommands := s.debugCommands.tail } else s

/-! ### Frames -/

/-- Every general register reads the same. -/
def sameRegs (s t : State) : Prop := ∀ r : Reg, t.readReg r = s.readReg r

/-- Every byte reads the same. -/
def sameMemory (s t : State) : Prop := ∀ a : Nat, t.byteAt a = s.byteAt a

/-- Everything but the general registers, pc and memory is the same: the engine state, the counter, the exit code, the
fault record, the configuration and the agents' inputs. -/
def sameControl (s t : State) : Prop :=
  t.runState = s.runState ∧ t.cycle = s.cycle ∧ t.exitCode = s.exitCode ∧ t.fault = s.fault ∧ t.cfg = s.cfg
    ∧ t.debugCommands = s.debugCommands ∧ t.bridgeAnswers = s.bridgeAnswers ∧ t.bridgeDraws = s.bridgeDraws

/-- `rd` holds `v` (x0 still reads 0, R13); every other register, and everything else but pc, is as before. -/
def registerResult (s t : State) (rd : Reg) (v : Word) : Prop :=
  t.readReg rd = (if rd = 0 then 0#32 else v) ∧ (∀ r, r ≠ rd → t.readReg r = s.readReg r)
    ∧ sameMemory s t ∧ sameControl s t

/-- The `n` bytes from `a` up are the low bytes of `v`, least significant first; every other byte, every register, pc and
everything else is as before. -/
def storeResult (s t : State) (a n : Nat) (v : Word) : Prop :=
  (∀ k, k < n → t.byteAt (a + k) = v.extractLsb' (8 * k) 8) ∧ (∀ b, b < a ∨ a + n ≤ b → t.byteAt b = s.byteAt b)
    ∧ sameRegs s t ∧ t.pc = s.pc ∧ sameControl s t

/-- A fault has been taken in `s`: it is recorded, the engine has halted, and nothing else has changed (R127, R291). -/
def faultTaken (s t : State) (F : Fault) : Prop :=
  t.fault = some F ∧ t.runState = .halted ∧ sameRegs s t ∧ sameMemory s t ∧ t.pc = s.pc ∧ t.cycle = s.cycle
    ∧ t.exitCode = s.exitCode ∧ t.cfg = s.cfg ∧ t.debugCommands = s.debugCommands
    ∧ t.bridgeAnswers = s.bridgeAnswers ∧ t.bridgeDraws = s.bridgeDraws

end Sys2Proof.Machine
end

