-- ==== Sys2Proof/Certificates/Slice0/Obligations.lean ====
section
/-! DEFINITION. The statements for the provers. Each formalises rules of spec/ named in its docstring; OBLIGATIONS.json lists
them. `s` is always the state a handler runs in (pc already advanced, R124) when the statement is about `exec`. -/

open Sys2Proof Sys2Proof.Machine

namespace Sys2Proof.Machine

/-! ### Terms used below -/

/-- The encoding of an instruction: its word matches the row's mask and match, and decodes to it. -/
def encodedBy (i : Instr) (mask mat : Word) : Prop := encode i &&& mask = mat ∧ decodeWord (encode i) = .ok i

/-- Some section of the map holds all of `a .. a+n-1` (R43). -/
def holdsRange (s : State) (a n : Nat) : Prop := ∃ S ∈ s.cfg.map, S.base ≤ a ∧ a + n ≤ S.base + S.size

/-- Some section that may be stored to holds all of `a .. a+n-1` (R46, R51). -/
def writableRange (s : State) (a n : Nat) : Prop :=
  ∃ S ∈ s.cfg.map, S.base ≤ a ∧ a + n ≤ S.base + S.size ∧ S.readOnly = false

/-- A read-only section holds all of `a .. a+n-1`. -/
def readOnlyRange (s : State) (a n : Nat) : Prop :=
  ∃ S ∈ s.cfg.map, S.base ≤ a ∧ a + n ≤ S.base + S.size ∧ S.readOnly = true

/-- The stack guard lets the step through (R122), in integers. -/
def guardPasses (s : State) : Prop := s.cfg.stackBase + s.cfg.guardBand ≤ (s.readReg 2).toNat

/-- The four bytes at pc, lowest address first. -/
def bytesAtPc (s : State) : List Byte :=
  [s.byteAt s.pc.toNat, s.byteAt (s.pc.toNat + 1), s.byteAt (s.pc.toNat + 2), s.byteAt (s.pc.toNat + 3)]

/-- pc is a multiple of 4 inside a code section (R53). -/
def fetchable (s : State) : Prop :=
  s.pc.toNat % 4 = 0 ∧ ∃ S ∈ s.cfg.map, S.base ≤ s.pc.toNat ∧ s.pc.toNat + 4 ≤ S.base + S.size ∧ S.exec = true

/-- The instruction a step from `s` dispatches. -/
def dispatches (s : State) (i : Instr) : Prop := guardPasses s ∧ fetchable s ∧ decode (bytesAtPc s) = .ok (i, [])

/-- The state a handler runs in: the command that made the step is used up, the cycle counted, pc advanced (R120). -/
def handlerState (s : State) : State := { commandTaken s with cycle := s.cycle + 1, pc := s.pc + 4#32 }

/-- A word by its fields (R91 to R99): the words this hardware executes. -/
def executableWord (w : Word) : Bool :=
  let opcode := w.extractLsb' 0 7
  let funct3 := w.extractLsb' 12 3
  let funct7 := w.extractLsb' 25 7
  opcode == 0b0110111#7 || opcode == 0b0010111#7 || opcode == 0b1101111#7
    || (opcode == 0b1100111#7 && funct3 == 0#3)
    || (opcode == 0b1100011#7 && funct3 != 2#3 && funct3 != 3#3)
    || (opcode == 0b0000011#7 && funct3 != 3#3 && funct3 != 6#3 && funct3 != 7#3)
    || (opcode == 0b0100011#7 && (funct3 == 0#3 || funct3 == 1#3 || funct3 == 2#3))
    || (opcode == 0b0010011#7 && funct3 != 1#3 && funct3 != 5#3)
    || (opcode == 0b0010011#7 && funct3 == 1#3 && funct7 == 0#7)
    || (opcode == 0b0010011#7 && funct3 == 5#3 && (funct7 == 0#7 || funct7 == 0b0100000#7))
    || (opcode == 0b0110011#7 && funct7 == 0#7)
    || (opcode == 0b0110011#7 && funct7 == 0b0100000#7 && (funct3 == 0#3 || funct3 == 5#3))
    || w == 0x00000073#32 || w == 0x00100073#32

/-- The instruction gives `v` in `rd` and changes nothing else (R170). -/
def givesResult (i : Instr) (s : State) (rd : Reg) (v : Word) : Prop :=
  ∃ t, exec i s = .next t ∧ registerResult s t rd v ∧ t.pc = s.pc

/-- The instruction goes to `target` if the condition holds, else nowhere, and changes nothing else (R220). -/
def branches (i : Instr) (s : State) (taken : Prop) (target : Word) : Prop :=
  ∃ t, exec i s = .next t ∧ (taken → t.pc = target) ∧ (¬taken → t.pc = s.pc)
    ∧ sameRegs s t ∧ sameMemory s t ∧ sameControl s t

/-- The instruction takes the fault `F` and has no effect of its own (R127, R291). -/
def takesFault (i : Instr) (s : State) (F : Fault) : Prop := ∃ t, exec i s = .next t ∧ faultTaken s t F

/-- `b` is the first multiple of 4 at or above `RELOC_BASE` and the end of every section (R322). -/
def leastFree (relocBase : Nat) (map : List MemSection) (b : Nat) : Prop :=
  (b % 4 = 0 ∧ relocBase ≤ b ∧ ∀ T ∈ map, T.base + T.size ≤ b)
    ∧ ∀ n, n % 4 = 0 → relocBase ≤ n → (∀ T ∈ map, T.base + T.size ≤ n) → b ≤ n

/-- The program's sections, placed at these bases in the given order. -/
def programAt (b : BootInput) (bases : List Nat) : List MemSection :=
  List.zipWith (fun p base => { p.request with base := base }) b.sections bases

/-- The bases are those placement gives (R322): a fixed section's declared one, a relocatable section's first free one above
the sections before it. -/
def placedAt (b : BootInput) (bases : List Nat) : Prop :=
  bases.length = b.sections.length
    ∧ ∀ k, (h : k < b.sections.length) → (hb : k < bases.length) →
      match b.sections[k].placement with
      | .fixed base => bases[k] = base
      | .relocatable => leastFree b.relocBase ((programAt b bases).take k) bases[k]

/-- The configuration with the program's sections at these bases and the stack at its base (R321). -/
def configAt (b : BootInput) (bases : List Nat) (stackBase : Nat) : Config where
  map       := programAt b bases ++ [stackSection stackBase b.stackSize, windowSection .periph0 b.periph0,
                windowSection .periph1 b.periph1]
  stackBase := stackBase
  stackSize := b.stackSize
  guardBand := b.guardBand
  periph0   := b.periph0
  periph1   := b.periph1
  auipcBias := b.auipcBias
  bridge    := b.bridge

/-- The instruction stores the `n` low bytes of `v` at `a` and changes nothing else. -/
def stores (i : Instr) (s : State) (a n : Nat) (v : Word) : Prop := ∃ t, exec i s = .next t ∧ storeResult s t a n v

end Sys2Proof.Machine

/-! ### Encoding -/

/-- 30_encoding.md sections 2 to 4: every well-formed instruction, with every operand at every value, decodes from its own
bytes to itself, whatever bytes follow. -/
def Obligations.DecodeUndoesEncode : Prop :=
  ∀ (i : Instr) (rest : List Byte), i.wf = true → decode (encodeBytes i ++ rest) = .ok (i, rest)

/-- 30_encoding.md sections 2 to 4: a word that decodes is the encoding of a well-formed instruction, the one it decodes
to; so each word has one meaning and no bit of it is dropped. -/
def Obligations.EncodeUndoesDecode : Prop :=
  ∀ (w : Word) (i : Instr), decodeWord w = .ok i → i.wf = true ∧ encode i = w

/-- R80: "the rows are pairwise disjoint, so at most one matches". -/
def Obligations.NoWordMatchesTwoRows : Prop :=
  opcodeRows.length = 39 ∧ opcodeRows.Pairwise (fun r q => ∀ w : Word, ¬(r.hits w = true ∧ q.hits w = true))

/-- R91 to R99, R104: the words that decode are those with the opcode and function fields of the opcode map; every other
word is `Unknown(w)`. -/
def Obligations.OnlyTheOpcodeMapDecodes : Prop :=
  ∀ w : Word, (executableWord w = true → ∃ i, decodeWord w = .ok i)
    ∧ (executableWord w = false → decodeWord w = .error (.unknown w))

/-- Words written out from the formats of R83 to R89 decode to what they stand for (95_test_vectors.md 2.1). -/
def Obligations.SampleWordsDecode : Prop :=
  decodeWord 0b0000000_00010_00001_000_00011_0110011#32 = .ok (.add 3 1 2)
    ∧ decodeWord 0b111111111111_00000_000_00001_0010011#32 = .ok (.addi 1 0 (BitVec.ofInt 12 (-1)))
    ∧ decodeWord 0b0100000_11111_00110_101_00101_0010011#32 = .ok (.srai 5 6 31#5)
    ∧ decodeWord 0b1111111_00111_00110_001_11110_0100011#32 = .ok (.sh 7 6 (BitVec.ofInt 12 (-2)))
    ∧ decodeWord 0b1_111111_00110_00101_001_1100_1_1100011#32 = .ok (.bne 5 6 (BitVec.ofInt 13 (-8)))
    ∧ decodeWord 0b00010010001101000101_00101_0110111#32 = .ok (.lui 5 0x12345#20)
    ∧ decodeWord 0b0_0000000000_1_00000000_00001_1101111#32 = .ok (.jal 1 2048#21)
    ∧ decodeWord 0x00000073#32 = .ok .ecall ∧ decodeWord 0x00100073#32 = .ok .ebreak
    ∧ decodeWord 0x027302B3#32 = .error (.unknown 0x027302B3#32)

/-! ### The Word unit and the registers -/

/-- R158: the laws that follow from wrap-around addition and subtraction. -/
def Obligations.WordArithmeticWrapsRoundTrip : Prop :=
  (∀ a b : Word, wordSub (wordAdd a b) b = a) ∧ (∀ a b : Word, wordAdd a b = wordAdd b a)
    ∧ (∀ a b c : Word, wordAdd (wordAdd a b) c = wordAdd a (wordAdd b c))
    ∧ (∀ a b : Word, wordSub a b = wordAdd a (wordSub 0#32 b))
    ∧ wordSub 0#32 0x80000000#32 = 0x80000000#32

/-- R13: a register write is read back, a write to x0 changes nothing, and a write changes no other register and no other
state. -/
def Obligations.RegisterWriteChangesThatRegisterAlone : Prop :=
  ∀ (s : State) (r : Reg) (v : Word), (r ≠ 0 → (s.writeReg r v).readReg r = v) ∧ s.writeReg 0 v = s
    ∧ (∀ q, q ≠ r → (s.writeReg r v).readReg q = s.readReg q)
    ∧ sameMemory s (s.writeReg r v) ∧ sameControl s (s.writeReg r v) ∧ (s.writeReg r v).pc = s.pc

/-! ### Memory -/

/-- R52: what a write that succeeds stored is what a read of the same bytes gives, until one of them is written again: the
second clause says that a write elsewhere leaves a read as it was. -/
def Obligations.ReadAfterWriteGivesTheBytes : Prop :=
  (∀ (s t : State) (addr v : Word) (width : Width), s.memWrite addr width v = .ok t →
    t.memRead addr width = .ok (v &&& BitVec.ofNat 32 (2 ^ (8 * width.bytes) - 1)))
  ∧ (∀ (s t : State) (addr r addr' v : Word) (width width' : Width), s.memRead addr width = .ok r →
    s.memWrite addr' width' v = .ok t →
    (addr'.toNat + width'.bytes ≤ addr.toNat ∨ addr.toNat + width.bytes ≤ addr'.toNat) →
    t.memRead addr width = .ok r)

/-- R47: little-endian: the byte at `a + k` is bits `8k+7 .. 8k` of the value stored, and a read of n bytes is their
concatenation, the lowest address in the low bits. -/
def Obligations.BytesAreLittleEndian : Prop :=
  (∀ (s t : State) (addr v : Word) (width : Width), s.memWrite addr width v = .ok t →
    ∀ k, k < width.bytes → t.byteAt (addr.toNat + k) = v.extractLsb' (8 * k) 8)
  ∧ (∀ (s : State) (addr v : Word) (width : Width), s.memRead addr width = .ok v →
    (∀ k, k < width.bytes → v.extractLsb' (8 * k) 8 = s.byteAt (addr.toNat + k)) ∧ v.toNat < 2 ^ (8 * width.bytes))

/-- R43: at most one section holds a range, and `resolve` gives it; a range that no one section holds resolves to none,
even when every byte of it is mapped. -/
def Obligations.AtMostOneSectionHoldsARange : Prop :=
  ∀ (c : Config) (a n : Nat), configWf c → 1 ≤ n →
    (∀ S T, S ∈ c.map → T ∈ c.map → sectionHolds S a n = true → sectionHolds T a n = true → S = T)
    ∧ (∀ S, resolve c.map a n = some S ↔ S ∈ c.map ∧ S.base ≤ a ∧ a + n ≤ S.base + S.size)
    ∧ ((∀ S ∈ c.map, ¬(S.base ≤ a ∧ a + n ≤ S.base + S.size)) → resolve c.map a n = none)

/-- R58: an access whose range would pass the top of the address space raises unmapped; it never continues at 0. -/
def Obligations.AccessNeverWrapsTheAddressSpace : Prop :=
  ∀ (s : State) (addr v : Word) (width : Width), configWf s.cfg → addr.toNat + width.bytes > 2 ^ 32 →
    s.memRead addr width = .error (.memoryAccess addr width .read .unmapped)
    ∧ s.memWrite addr width v = .error (.memoryAccess addr width .write .unmapped)

/-- R51: both checks come before the first byte is written, and a write changes no byte outside its range and no other
state. -/
def Obligations.MemWriteChecksThenWritesItsBytesOnly : Prop :=
  ∀ (s : State) (addr v : Word) (width : Width), configWf s.cfg →
    (¬holdsRange s addr.toNat width.bytes → s.memWrite addr width v = .error (.memoryAccess addr width .write .unmapped))
    ∧ (readOnlyRange s addr.toNat width.bytes →
        s.memWrite addr width v = .error (.memoryAccess addr width .write .readOnly))
    ∧ (writableRange s addr.toNat width.bytes → ∃ t, s.memWrite addr width v = .ok t
        ∧ storeResult s t addr.toNat width.bytes v)

/-! ### The cycle -/

/-- A STEP RUNS THE DECODED INSTRUCTION (R120, R124): when the guard passes and the bytes at pc, in code, decode to `i`, a
step of an engine that runs, or that the Debugger has commanded, is the handler of `i` after the cycle is counted and pc
advanced. -/
def Obligations.StepRunsTheDecodedInstruction : Prop :=
  ∀ (s : State) (i : Instr), configWf s.cfg → stepping s → dispatches s i → step s = exec i (handlerState s)

/-- R121: a step in the halted state changes nothing, not even `cycle`, and reports the exit code. -/
def Obligations.HaltedStepChangesNothing : Prop :=
  ∀ s : State, configWf s.cfg → s.runState = .halted → step s = .next s ∧ stepReport s = some (.halted s.exitCode)

/-- R122: when x2, read unsigned, is below `STACK_BASE + GUARD_BAND`, the step takes StackOverflow and nothing else
changes: no fetch, no count, pc still at the instruction not fetched. The comparison is strict and looks at x2 alone. -/
def Obligations.StackGuardFiresBeforeTheFetch : Prop :=
  ∀ s : State, configWf s.cfg → stepping s →
    ((s.readReg 2).toNat < s.cfg.stackBase + s.cfg.guardBand →
      ∃ t, step s = .next t ∧ faultTaken (commandTaken s) t (.stackOverflow (s.readReg 2)))
    ∧ (¬((s.readReg 2).toNat < s.cfg.stackBase + s.cfg.guardBand) →
      ∀ t sp, step s = .next t → s.fault = none → t.fault ≠ some (.stackOverflow sp))

/-- R53, R283, R290: what a fetch that fails does: misaligned first, then unmapped, then not executable; the cycle has been
counted and pc has not been advanced. -/
def Obligations.FetchFaultsInOrder : Prop :=
  ∀ s : State, configWf s.cfg → stepping s → guardPasses s →
    (s.pc.toNat % 4 ≠ 0 →
      ∃ t, step s = .next t ∧ faultTaken (commandTaken s).countCycle t (.memoryAccess s.pc .word .fetch .misaligned))
    ∧ (s.pc.toNat % 4 = 0 → ¬holdsRange s s.pc.toNat 4 →
      ∃ t, step s = .next t ∧ faultTaken (commandTaken s).countCycle t (.memoryAccess s.pc .word .fetch .unmapped))
    ∧ (s.pc.toNat % 4 = 0 → holdsRange s s.pc.toNat 4 → ¬fetchable s →
      ∃ t, step s = .next t
        ∧ faultTaken (commandTaken s).countCycle t (.memoryAccess s.pc .word .fetch .notExecutable))

/-- R125, R286: an unknown word faults at dispatch, with the word recorded, pc advanced and the cycle counted. -/
def Obligations.UnknownWordIsUnimplemented : Prop :=
  ∀ (s : State) (w : Word), configWf s.cfg → stepping s → guardPasses s → fetchable s →
    decode (bytesAtPc s) = .error (.unknown w) →
    w = wordOfBytes (bytesAtPc s) ∧ ∃ t, step s = .next t ∧ faultTaken (handlerState s) t (.unimplemented w)

/-- R130, R131 say that a suspended engine takes no step of its own accord, that `dbg_resume` makes it run, and that
`dbg_step` is one step of the engine made in the suspended state. The form is THE MODEL'S CHOICE: the commands are a list
used up one by one, a held engine answers the same state, `dbg_resume` is a transition of its own (log entry 8), and a
held or resumed transition has no report (log entry 16). -/
def Obligations.DebuggerCommandsMoveASuspendedEngine : Prop :=
  ∀ s : State, configWf s.cfg → s.runState = .debugSuspended →
    (s.debugCommands = [] → step s = .next s ∧ stepReport s = none)
    ∧ (∀ rest, s.debugCommands = .dbgResume :: rest →
        step s = .next { s with debugCommands := rest, runState := .running } ∧ stepReport s = none)
    ∧ (∀ rest, s.debugCommands = .dbgStep :: rest → step s = engineStep { s with debugCommands := rest })

/-- R129: every step the engine takes has a report; it is `Continued` when the engine has not halted and no `ebreak` was
dispatched; and each report says what it says of the engine state before and after. The report is a function beside the
state (log entry 16). -/
def Obligations.ReportsTellTheEngineState : Prop :=
  ∀ s t : State, step s = .next t →
    (stepping s → ∃ r, stepReport s = some r)
    ∧ (stepping s → t.runState ≠ .halted → ¬dispatches s .ebreak → stepReport s = some .continued)
    ∧ ∀ r, stepReport s = some r →
      match r with
      | .continued => t.runState = s.runState ∧ t.runState ≠ .halted
      | .halted code => t.runState = .halted ∧ code = t.exitCode
      | .debugTrap => s.runState = .running ∧ t.runState = .debugSuspended
      | .debugTrapPropagated => s.runState = .debugSuspended ∧ t.runState = .debugSuspended

/-- R22: the transitions of the engine state. `halted` is terminal, and only `dbg_resume` takes a suspended engine back to
running. -/
def Obligations.EngineStateMovesOnlyAsAllowed : Prop :=
  ∀ s t : State, step s = .next t →
    (s.runState = .halted → t.runState = .halted)
    ∧ (s.runState = .debugSuspended → t.runState = .running → ∃ rest, s.debugCommands = .dbgResume :: rest)
    ∧ (s.runState = .running → t.runState = .debugSuspended → dispatches s .ebreak)

/-- R23: `cycle` is counted by exactly 1 by a step whose guard passes, and by nothing else. -/
def Obligations.CycleCountsFetchAttempts : Prop :=
  ∀ s t : State, step s = .next t →
    (stepping s ∧ guardPasses s → t.cycle = s.cycle + 1) ∧ (¬(stepping s ∧ guardPasses s) → t.cycle = s.cycle)

/-- R23: "diagnostic only, no functional effect": two states that differ in `cycle` alone step alike, and the states they
step to differ in `cycle` alone. -/
def Obligations.CycleHasNoFunctionalEffect : Prop :=
  ∀ (s t : State) (n : Nat), step s = .next t →
    ∃ m, step { s with cycle := n } = .next { t with cycle := m }
      ∧ stepReport { s with cycle := n } = stepReport s

/-- R24, R263: the exit code is written only by an `ecall` whose step ends halted without a fault being recorded. -/
def Obligations.OnlyAnExitRequestWritesTheExitCode : Prop :=
  ∀ s t : State, step s = .next t → t.exitCode ≠ s.exitCode →
    stepping s ∧ dispatches s .ecall ∧ t.runState = .halted ∧ t.fault = s.fault

/-- R291, R126: faults are precise. When a step of an engine that had no fault records one, the engine has halted; pc and
`cycle` are the only traces (pc advanced except by StackOverflow and a fetch fault, `cycle` counted except by
StackOverflow); no register, no byte of memory and not the exit code has changed. An `ecall`, whose Bridge may have
written before its access faulted (R262 e), is the exception for registers and memory. -/
def Obligations.FaultsArePrecise : Prop :=
  ∀ (s t : State) (F : Fault), step s = .next t → s.fault = none → t.fault = some F →
    t.runState = .halted ∧ t.exitCode = s.exitCode ∧ t.cfg = s.cfg
    ∧ (dispatches s .ecall ∨ (sameRegs s t ∧ sameMemory s t))
    ∧ (match F with
      | .stackOverflow _ => t.pc = s.pc ∧ t.cycle = s.cycle
      | .memoryAccess _ _ .fetch _ => t.pc = s.pc ∧ t.cycle = s.cycle + 1
      | _ => t.pc = s.pc + 4#32 ∧ t.cycle = s.cycle + 1)

/-- R134, R288, 60_exceptions.md: a machine with the OPEN Bridge always has a next state: no step of it stops. Under the
reference Bridge only an `ecall` for a number other than 93 has no meaning (R264). -/
def Obligations.EveryStepHasANextState : Prop :=
  ∀ s : State, configWf s.cfg →
    (∃ t, step s = .next t)
    ∨ (s.cfg.bridge = .reference ∧ stepping s ∧ dispatches s .ecall ∧ s.readReg 17 ≠ 93#32
        ∧ step s = .refused (.syscallUndefined (s.readReg 17)))

/-- R44, U8: a section map that breaks R44 has no meaning: the model refuses it, whatever the state. -/
def Obligations.AnIllFormedMapIsRefused : Prop :=
  ∀ s : State, ¬configWf s.cfg → step s = .refused .mapIllFormed

/-! ### Invariants -/

/-- Every step keeps the invariant: the map well-formed, memory canonical and inside the placed sections, x0's slot 0, a
recorded fault halting, and an exit code only at a normal end (R28, R44, R127, R263). -/
def Obligations.StepKeepsInv : Prop := ∀ s t : State, Inv s → step s = .next t → Inv t

/-- The state after reset meets the invariant (its configuration is the model's choice, log entry 2). -/
def Obligations.ResetMeetsInv : Prop := Inv State.reset

/-- R63, R46, R28: code and read-only data never change, and nor does the configuration: no step, not even one in which the
Bridge writes, changes the section map or a byte of a read-only section, so the instruction at an address is the same for
ever. -/
def Obligations.CodeAndConfigurationNeverChange : Prop :=
  ∀ s t : State, step s = .next t → t.cfg = s.cfg
    ∧ ∀ S ∈ s.cfg.map, S.readOnly = true → ∀ a, S.base ≤ a → a < S.base + S.size → t.byteAt a = s.byteAt a

/-! ### Integer computational instructions (42_integer_computational.md) -/

/-- R171, R172: the low 32 bits of the sum and of the difference, in integers. -/
def Obligations.AddAndSubWrap : Prop :=
  ∀ (rd rs1 rs2 : Reg) (s : State),
    givesResult (.add rd rs1 rs2) s rd (BitVec.ofNat 32 ((s.readReg rs1).toNat + (s.readReg rs2).toNat))
    ∧ encodedBy (.add rd rs1 rs2) 0xFE00707F#32 0x00000033#32
    ∧ givesResult (.sub rd rs1 rs2) s rd (BitVec.ofInt 32 ((s.readReg rs1).toNat - (s.readReg rs2).toNat : Int))
    ∧ encodedBy (.sub rd rs1 rs2) 0xFE00707F#32 0x40000033#32

/-- R173 to R175: bit by bit. -/
def Obligations.AndOrXorAreBitwise : Prop :=
  ∀ (rd rs1 rs2 : Reg) (s : State),
    (∃ v : Word, givesResult (.and rd rs1 rs2) s rd v
      ∧ ∀ k, v.getLsbD k = ((s.readReg rs1).getLsbD k && (s.readReg rs2).getLsbD k))
    ∧ encodedBy (.and rd rs1 rs2) 0xFE00707F#32 0x00007033#32
    ∧ (∃ v : Word, givesResult (.or rd rs1 rs2) s rd v
      ∧ ∀ k, v.getLsbD k = ((s.readReg rs1).getLsbD k || (s.readReg rs2).getLsbD k))
    ∧ encodedBy (.or rd rs1 rs2) 0xFE00707F#32 0x00006033#32
    ∧ (∃ v : Word, givesResult (.xor rd rs1 rs2) s rd v
      ∧ ∀ k, v.getLsbD k = ((s.readReg rs1).getLsbD k ^^ (s.readReg rs2).getLsbD k))
    ∧ encodedBy (.xor rd rs1 rs2) 0xFE00707F#32 0x00004033#32

/-- R176 to R179: the immediate is sign-extended to a Word, for the logical forms too. -/
def Obligations.ImmediateFormsSignExtend : Prop :=
  ∀ (rd rs1 : Reg) (imm : BitVec 12) (s : State),
    givesResult (.addi rd rs1 imm) s rd (BitVec.ofInt 32 ((s.readReg rs1).toInt + imm.toInt))
    ∧ encodedBy (.addi rd rs1 imm) 0x0000707F#32 0x00000013#32
    ∧ (∃ v : Word, givesResult (.andi rd rs1 imm) s rd v
      ∧ ∀ k, k < 32 → v.getLsbD k = ((s.readReg rs1).getLsbD k && (if k < 12 then imm.getLsbD k else imm.msb)))
    ∧ encodedBy (.andi rd rs1 imm) 0x0000707F#32 0x00007013#32
    ∧ (∃ v : Word, givesResult (.ori rd rs1 imm) s rd v
      ∧ ∀ k, k < 32 → v.getLsbD k = ((s.readReg rs1).getLsbD k || (if k < 12 then imm.getLsbD k else imm.msb)))
    ∧ encodedBy (.ori rd rs1 imm) 0x0000707F#32 0x00006013#32
    ∧ (∃ v : Word, givesResult (.xori rd rs1 imm) s rd v
      ∧ ∀ k, k < 32 → v.getLsbD k = ((s.readReg rs1).getLsbD k ^^ (if k < 12 then imm.getLsbD k else imm.msb)))
    ∧ encodedBy (.xori rd rs1 imm) 0x0000707F#32 0x00004013#32

/-- R180 to R182: the amount is `x[rs2]` modulo 32; the three shifts in integers, the arithmetic one rounding down. -/
def Obligations.RegisterShiftsMaskTheAmount : Prop :=
  ∀ (rd rs1 rs2 : Reg) (s : State),
    givesResult (.sll rd rs1 rs2) s rd
      (BitVec.ofNat 32 ((s.readReg rs1).toNat * 2 ^ ((s.readReg rs2).toNat % 32)))
    ∧ encodedBy (.sll rd rs1 rs2) 0xFE00707F#32 0x00001033#32
    ∧ givesResult (.srl rd rs1 rs2) s rd
      (BitVec.ofNat 32 ((s.readReg rs1).toNat / 2 ^ ((s.readReg rs2).toNat % 32)))
    ∧ encodedBy (.srl rd rs1 rs2) 0xFE00707F#32 0x00005033#32
    ∧ givesResult (.sra rd rs1 rs2) s rd
      (BitVec.ofInt 32 (Int.fdiv (s.readReg rs1).toInt (2 ^ ((s.readReg rs2).toNat % 32))))
    ∧ encodedBy (.sra rd rs1 rs2) 0xFE00707F#32 0x40005033#32

/-- R183 to R185: the same shifts by the 5-bit field. -/
def Obligations.ImmediateShiftsUseTheField : Prop :=
  ∀ (rd rs1 : Reg) (shamt : BitVec 5) (s : State),
    givesResult (.slli rd rs1 shamt) s rd (BitVec.ofNat 32 ((s.readReg rs1).toNat * 2 ^ shamt.toNat))
    ∧ encodedBy (.slli rd rs1 shamt) 0xFE00707F#32 0x00001013#32
    ∧ givesResult (.srli rd rs1 shamt) s rd (BitVec.ofNat 32 ((s.readReg rs1).toNat / 2 ^ shamt.toNat))
    ∧ encodedBy (.srli rd rs1 shamt) 0xFE00707F#32 0x00005013#32
    ∧ givesResult (.srai rd rs1 shamt) s rd (BitVec.ofInt 32 (Int.fdiv (s.readReg rs1).toInt (2 ^ shamt.toNat)))
    ∧ encodedBy (.srai rd rs1 shamt) 0xFE00707F#32 0x40005013#32

/-- R186 to R189: 1 or 0, by the signed or the unsigned reading; the immediate is sign-extended in both. -/
def Obligations.ComparisonsGiveOneOrZero : Prop :=
  (∀ (rd rs1 rs2 : Reg) (s : State),
    givesResult (.slt rd rs1 rs2) s rd (if (s.readReg rs1).toInt < (s.readReg rs2).toInt then 1#32 else 0#32)
    ∧ encodedBy (.slt rd rs1 rs2) 0xFE00707F#32 0x00002033#32
    ∧ givesResult (.sltu rd rs1 rs2) s rd (if (s.readReg rs1).toNat < (s.readReg rs2).toNat then 1#32 else 0#32)
    ∧ encodedBy (.sltu rd rs1 rs2) 0xFE00707F#32 0x00003033#32)
  ∧ (∀ (rd rs1 : Reg) (imm : BitVec 12) (s : State),
    givesResult (.slti rd rs1 imm) s rd (if (s.readReg rs1).toInt < imm.toInt then 1#32 else 0#32)
    ∧ encodedBy (.slti rd rs1 imm) 0x0000707F#32 0x00002013#32
    ∧ givesResult (.sltiu rd rs1 imm) s rd
      (if (s.readReg rs1).toNat < (BitVec.ofInt 32 imm.toInt).toNat then 1#32 else 0#32)
    ∧ encodedBy (.sltiu rd rs1 imm) 0x0000707F#32 0x00003013#32)

/-- R190, R191: `lui` gives the immediate times 4096; `auipc` adds the instruction's own address (`s.pc - 4`, R17) and the
bias, 0 or 4, whichever the configuration has. -/
def Obligations.UpperImmediates : Prop :=
  ∀ (rd : Reg) (imm20 : BitVec 20) (s : State),
    givesResult (.lui rd imm20) s rd (BitVec.ofNat 32 (imm20.toNat * 4096))
    ∧ encodedBy (.lui rd imm20) 0x0000007F#32 0x00000037#32
    ∧ (s.cfg.auipcBias = .zero →
        givesResult (.auipc rd imm20) s rd (BitVec.ofInt 32 (s.pc.toNat - 4 + imm20.toNat * 4096 : Int)))
    ∧ (s.cfg.auipcBias = .four →
        givesResult (.auipc rd imm20) s rd (BitVec.ofInt 32 (s.pc.toNat + imm20.toNat * 4096 : Int)))
    ∧ encodedBy (.auipc rd imm20) 0x0000007F#32 0x00000017#32

/-! ### Loads and stores (43_loads_stores.md) -/

/-- R202, R203, R205, R206 with R200, R201: the byte and halfword loads, from any section and at any alignment; an address no
one section holds faults, whatever `rd` is, and the fault writes no register. The effective address wraps. -/
def Obligations.ByteAndHalfwordLoads : Prop :=
  ∀ (rd rs1 : Reg) (imm : BitVec 12) (s : State),
    let ea := effectiveAddress s rs1 imm
    let a := ea.toNat
    a = ((s.readReg rs1).toInt + imm.toInt) % 2 ^ 32
    ∧ (holdsRange s a 1 → givesResult (.lb rd rs1 imm) s rd (BitVec.ofInt 32 (s.byteAt a).toInt)
        ∧ givesResult (.lbu rd rs1 imm) s rd (BitVec.ofNat 32 (s.byteAt a).toNat))
    ∧ (¬holdsRange s a 1 → takesFault (.lb rd rs1 imm) s (.memoryAccess ea .byte .read .unmapped)
        ∧ takesFault (.lbu rd rs1 imm) s (.memoryAccess ea .byte .read .unmapped))
    ∧ (holdsRange s a 2 →
        givesResult (.lh rd rs1 imm) s rd (BitVec.ofInt 32 (s.byteAt (a + 1) ++ s.byteAt a : BitVec 16).toInt)
        ∧ givesResult (.lhu rd rs1 imm) s rd (BitVec.ofNat 32 (s.byteAt (a + 1) ++ s.byteAt a : BitVec 16).toNat))
    ∧ (¬holdsRange s a 2 → takesFault (.lh rd rs1 imm) s (.memoryAccess ea .half .read .unmapped)
        ∧ takesFault (.lhu rd rs1 imm) s (.memoryAccess ea .half .read .unmapped))
    ∧ encodedBy (.lb rd rs1 imm) 0x0000707F#32 0x00000003#32 ∧ encodedBy (.lh rd rs1 imm) 0x0000707F#32 0x00001003#32
    ∧ encodedBy (.lbu rd rs1 imm) 0x0000707F#32 0x00004003#32 ∧ encodedBy (.lhu rd rs1 imm) 0x0000707F#32 0x00005003#32

/-- R204 with R200, R201: the word load, at a multiple of 4 in any section; otherwise misaligned, which is tested before
unmapped (the spec's decision D12). A load that faults writes no register. -/
def Obligations.WordLoads : Prop :=
  ∀ (rd rs1 : Reg) (imm : BitVec 12) (s : State),
    let ea := effectiveAddress s rs1 imm
    let a := ea.toNat
    a = ((s.readReg rs1).toInt + imm.toInt) % 2 ^ 32
    ∧ (a % 4 = 0 → holdsRange s a 4 → givesResult (.lw rd rs1 imm) s rd
        (s.byteAt (a + 3) ++ s.byteAt (a + 2) ++ s.byteAt (a + 1) ++ s.byteAt a : BitVec 32))
    ∧ (a % 4 ≠ 0 → takesFault (.lw rd rs1 imm) s (.memoryAccess ea .word .read .misaligned))
    ∧ (a % 4 = 0 → ¬holdsRange s a 4 → takesFault (.lw rd rs1 imm) s (.memoryAccess ea .word .read .unmapped))
    ∧ encodedBy (.lw rd rs1 imm) 0x0000707F#32 0x00002003#32

/-- R208, R209 with R200, R207: the byte and halfword stores, at any alignment. Each writes the low bytes of `x[rs2]` at the
effective address, least significant first, and changes nothing else; an address no one section holds faults, and so
does a read-only section, with no byte written. -/
def Obligations.ByteAndHalfwordStores : Prop :=
  ∀ (rs2 rs1 : Reg) (imm : BitVec 12) (s : State), configWf s.cfg →
    let ea := effectiveAddress s rs1 imm
    let a := ea.toNat
    a = ((s.readReg rs1).toInt + imm.toInt) % 2 ^ 32
    ∧ (writableRange s a 1 → stores (.sb rs2 rs1 imm) s a 1 (s.readReg rs2))
    ∧ (¬holdsRange s a 1 → takesFault (.sb rs2 rs1 imm) s (.memoryAccess ea .byte .write .unmapped))
    ∧ (readOnlyRange s a 1 → takesFault (.sb rs2 rs1 imm) s (.memoryAccess ea .byte .write .readOnly))
    ∧ (writableRange s a 2 → stores (.sh rs2 rs1 imm) s a 2 (s.readReg rs2))
    ∧ (¬holdsRange s a 2 → takesFault (.sh rs2 rs1 imm) s (.memoryAccess ea .half .write .unmapped))
    ∧ (readOnlyRange s a 2 → takesFault (.sh rs2 rs1 imm) s (.memoryAccess ea .half .write .readOnly))
    ∧ encodedBy (.sb rs2 rs1 imm) 0x0000707F#32 0x00000023#32 ∧ encodedBy (.sh rs2 rs1 imm) 0x0000707F#32 0x00001023#32

/-- R210 with R200, R207: the word store, at a multiple of 4; misaligned is tested before unmapped, and that before
read-only; a store that faults writes no byte. -/
def Obligations.WordStores : Prop :=
  ∀ (rs2 rs1 : Reg) (imm : BitVec 12) (s : State), configWf s.cfg →
    let ea := effectiveAddress s rs1 imm
    let a := ea.toNat
    a = ((s.readReg rs1).toInt + imm.toInt) % 2 ^ 32
    ∧ (a % 4 = 0 → writableRange s a 4 → stores (.sw rs2 rs1 imm) s a 4 (s.readReg rs2))
    ∧ (a % 4 ≠ 0 → takesFault (.sw rs2 rs1 imm) s (.memoryAccess ea .word .write .misaligned))
    ∧ (a % 4 = 0 → ¬holdsRange s a 4 → takesFault (.sw rs2 rs1 imm) s (.memoryAccess ea .word .write .unmapped))
    ∧ (a % 4 = 0 → readOnlyRange s a 4 → takesFault (.sw rs2 rs1 imm) s (.memoryAccess ea .word .write .readOnly))
    ∧ encodedBy (.sw rs2 rs1 imm) 0x0000707F#32 0x00002023#32

/-! ### Control transfer (44_control_transfer.md) -/

/-- R221 to R226 with R220: the six branches, from the branch's own address (`s.pc - 4`, R17); the target is not checked. -/
def Obligations.BranchesCompareAndGo : Prop :=
  ∀ (rs1 rs2 : Reg) (off : BitVec 13) (s : State),
    let a := s.readReg rs1
    let b := s.readReg rs2
    let target : Word := BitVec.ofInt 32 (s.pc.toNat - 4 + off.toInt)
    branches (.beq rs1 rs2 off) s (a = b) target ∧ branches (.bne rs1 rs2 off) s (a ≠ b) target
    ∧ branches (.blt rs1 rs2 off) s (a.toInt < b.toInt) target
    ∧ branches (.bge rs1 rs2 off) s (b.toInt ≤ a.toInt) target
    ∧ branches (.bltu rs1 rs2 off) s (a.toNat < b.toNat) target
    ∧ branches (.bgeu rs1 rs2 off) s (b.toNat ≤ a.toNat) target
    ∧ (branchOffsetEven off = true →
        encodedBy (.beq rs1 rs2 off) 0x0000707F#32 0x00000063#32 ∧ encodedBy (.bne rs1 rs2 off) 0x0000707F#32 0x00001063#32
        ∧ encodedBy (.blt rs1 rs2 off) 0x0000707F#32 0x00004063#32
        ∧ encodedBy (.bge rs1 rs2 off) 0x0000707F#32 0x00005063#32
        ∧ encodedBy (.bltu rs1 rs2 off) 0x0000707F#32 0x00006063#32
        ∧ encodedBy (.bgeu rs1 rs2 off) 0x0000707F#32 0x00007063#32)

/-- R235 with R230: `jal` links the pc it finds and goes to its own address plus the offset. -/
def Obligations.JalLinksAndJumps : Prop :=
  ∀ (rd : Reg) (off : BitVec 21) (s : State),
    (∃ t, exec (.jal rd off) s = .next t ∧ registerResult s t rd s.pc
      ∧ t.pc = BitVec.ofInt 32 (s.pc.toNat - 4 + off.toInt))
    ∧ (jumpOffsetEven off = true → encodedBy (.jal rd off) 0x0000007F#32 0x0000006F#32)

/-- R236 with R230: `jalr` goes to the old `x[rs1]` plus the immediate, bit 0 cleared, and links, also when `rd` is
`rs1`. -/
def Obligations.JalrJumpsFromTheOldBase : Prop :=
  ∀ (rd rs1 : Reg) (imm : BitVec 12) (s : State),
    (∃ t, exec (.jalr rd rs1 imm) s = .next t ∧ registerResult s t rd s.pc
      ∧ (t.pc.toNat : Int) = ((s.readReg rs1).toInt + imm.toInt) % 2 ^ 32 / 2 * 2)
    ∧ encodedBy (.jalr rd rs1 imm) 0x0000707F#32 0x00000067#32

/-- R108, R227: each pseudo-branch is one canonical branch, taken exactly when its own comparison holds. -/
def Obligations.PseudoBranchesKeepTheComparison : Prop :=
  ∀ (rs rt : Reg) (off : BitVec 13) (s : State),
    let a := s.readReg rs
    let b := s.readReg rt
    let target : Word := BitVec.ofInt 32 (s.pc.toNat - 4 + off.toInt)
    ((Pseudo.bgt rs rt off).expand = [.blt rt rs off] ∧ branches (.blt rt rs off) s (b.toInt < a.toInt) target)
    ∧ ((Pseudo.ble rs rt off).expand = [.bge rt rs off] ∧ branches (.bge rt rs off) s (a.toInt ≤ b.toInt) target)
    ∧ ((Pseudo.bgtu rs rt off).expand = [.bltu rt rs off] ∧ branches (.bltu rt rs off) s (b.toNat < a.toNat) target)
    ∧ ((Pseudo.bleu rs rt off).expand = [.bgeu rt rs off] ∧ branches (.bgeu rt rs off) s (a.toNat ≤ b.toNat) target)
    ∧ ((Pseudo.beqz rs off).expand = [.beq rs 0 off] ∧ branches (.beq rs 0 off) s (a = 0#32) target)
    ∧ ((Pseudo.bnez rs off).expand = [.bne rs 0 off] ∧ branches (.bne rs 0 off) s (a ≠ 0#32) target)
    ∧ ((Pseudo.bltz rs off).expand = [.blt rs 0 off] ∧ branches (.blt rs 0 off) s (a.toInt < 0) target)
    ∧ ((Pseudo.bgez rs off).expand = [.bge rs 0 off] ∧ branches (.bge rs 0 off) s (0 ≤ a.toInt) target)
    ∧ ((Pseudo.bgtz rs off).expand = [.blt 0 rs off] ∧ branches (.blt 0 rs off) s (0 < a.toInt) target)
    ∧ ((Pseudo.blez rs off).expand = [.bge 0 rs off] ∧ branches (.bge 0 rs off) s (a.toInt ≤ 0) target)

/-- R237: the jump pseudo-instructions. -/
def Obligations.PseudoJumpsAreJalAndJalr : Prop :=
  ∀ (rs : Reg) (off : BitVec 21) (s : State),
    let target : Word := BitVec.ofInt 32 (s.pc.toNat - 4 + off.toInt)
    ((Pseudo.j off).expand = [.jal 0 off] ∧ ∃ t, exec (.jal 0 off) s = .next t ∧ t.pc = target
      ∧ sameRegs s t ∧ sameMemory s t ∧ sameControl s t)
    ∧ ((Pseudo.call off).expand = [.jal 1 off] ∧ ∃ t, exec (.jal 1 off) s = .next t ∧ t.pc = target ∧ registerResult s t 1 s.pc)
    ∧ ((Pseudo.jr rs).expand = [.jalr 0 rs 0#12] ∧ ∃ t, exec (.jalr 0 rs 0#12) s = .next t ∧ t.pc = s.readReg rs &&& 0xFFFFFFFE#32
      ∧ sameRegs s t ∧ sameMemory s t ∧ sameControl s t)
    ∧ (Pseudo.ret.expand = [.jalr 0 1 0#12] ∧ ∃ t, exec (.jalr 0 1 0#12) s = .next t ∧ t.pc = s.readReg 1 &&& 0xFFFFFFFE#32
      ∧ sameRegs s t ∧ sameMemory s t ∧ sameControl s t)

/-- R110: `li rd, C` leaves the constant in `rd`: by one `addi` for -2048 to 2047, else by `lui` and `addi`. That the long form
is always two instructions, also when the `addi` adds 0 and R110 allows it to be left out, is THE MODEL'S CHOICE (log
entry 22); the expansion itself is the spec's decision D30. -/
def Obligations.LoadImmediateLoadsTheConstant : Prop :=
  ∀ (rd : Reg) (c : Word) (s : State),
    (-2048 ≤ c.toInt ∧ c.toInt ≤ 2047 → ∃ i, (Pseudo.li rd c).expand = [i] ∧ givesResult i s rd c)
    ∧ (¬(-2048 ≤ c.toInt ∧ c.toInt ≤ 2047) → ∃ i j t, (Pseudo.li rd c).expand = [i, j] ∧ exec i s = .next t
        ∧ ∃ u, exec j t = .next u ∧ registerResult s u rd c ∧ u.pc = s.pc)

/-! ### System instructions (45_system.md) -/

/-- R265, R293: `ebreak` suspends the engine, whether it ran or was suspended, and changes nothing else. -/
def Obligations.EbreakSuspendsAndNothingElse : Prop :=
  ∀ s : State,
    (∃ t, exec .ebreak s = .next t ∧ t.runState = .debugSuspended ∧ sameRegs s t ∧ sameMemory s t ∧ t.pc = s.pc
      ∧ t.cycle = s.cycle ∧ t.exitCode = s.exitCode ∧ t.fault = s.fault ∧ t.cfg = s.cfg
      ∧ t.debugCommands = s.debugCommands ∧ t.bridgeAnswers = s.bridgeAnswers ∧ t.bridgeDraws = s.bridgeDraws)
    ∧ encode .ebreak = 0x00100073#32

/-- R128: a breakpoint reached while running is a `DebugTrap`; reached by a Debugger's step while suspended it propagates
and does not suspend anew. -/
def Obligations.BreakpointReportsTrapOrPropagates : Prop :=
  ∀ s : State, configWf s.cfg → dispatches s .ebreak →
    (s.runState = .running → stepReport s = some .debugTrap
      ∧ step s = .next { s with pc := s.pc + 4#32, cycle := s.cycle + 1, runState := .debugSuspended })
    ∧ (∀ rest, s.runState = .debugSuspended → s.debugCommands = .dbgStep :: rest →
      stepReport s = some .debugTrapPropagated
      ∧ step s = .next { s with pc := s.pc + 4#32, cycle := s.cycle + 1, debugCommands := rest })

/-- R261, R263: when the OPEN Bridge answers `Exit(code)`, whether an input or the free value says so, the engine halts with
that code, no fault is recorded, and registers, memory and pc are left as they are. That an answer is used up, or a draw
counted when no input was given, is the model's form (log entry 5). -/
def Obligations.EcallExitHaltsWithTheCode : Prop :=
  ∀ (s : State) (code : Word), s.cfg.bridge = .host →
    s.hostAnswer (s.readReg 17) (s.readReg 10) = .exit code →
    ∃ t, exec .ecall s = .next t ∧ t.exitCode = code ∧ t.runState = .halted ∧ t.fault = s.fault ∧ sameRegs s t
      ∧ sameMemory s t ∧ t.pc = s.pc ∧ t.cycle = s.cycle ∧ t.cfg = s.cfg ∧ t.debugCommands = s.debugCommands
      ∧ t.bridgeAnswers = s.bridgeAnswers.tail
      ∧ (s.bridgeAnswers ≠ [] → t.bridgeDraws = s.bridgeDraws)
      ∧ (s.bridgeAnswers = [] → t.bridgeDraws = s.bridgeDraws + 1)

/-- R262 (a, b, c, e): `Continue` applies the Bridge's accesses in order: a register write, a memory read and a memory
write each come to the `ecall` with the rest of them; the first that faults is taken, with the writes before it left in
place; with none left, only the answer has been used up. An answer that comes as the free value does what the same
answer given as an input does. The list of answers and the order of the accesses are the model's form (log entries 5
and 7). -/
def Obligations.EcallContinueAppliesTheAccesses : Prop :=
  ∀ (s : State) (acts : List BridgeAct) (rest : List BridgeAnswer), s.cfg.bridge = .host →
    (s.bridgeAnswers = .continue [] :: rest → exec .ecall s = .next { s with bridgeAnswers := rest })
    ∧ (s.bridgeAnswers = [] → exec .ecall s
        = exec .ecall { s with bridgeAnswers := [s.hostAnswer (s.readReg 17) (s.readReg 10)], bridgeDraws := s.bridgeDraws + 1 })
    ∧ (∀ r v, exec .ecall { s with bridgeAnswers := .continue (.setReg r v :: acts) :: rest }
        = exec .ecall { s.writeReg r v with bridgeAnswers := .continue acts :: rest })
    ∧ (∀ addr width, holdsRange s addr.toNat width.bytes →
        exec .ecall { s with bridgeAnswers := .continue (.load addr width :: acts) :: rest }
        = exec .ecall { s with bridgeAnswers := .continue acts :: rest })
    ∧ (∀ addr width, ¬holdsRange s addr.toNat width.bytes →
        exec .ecall { s with bridgeAnswers := .continue (.load addr width :: acts) :: rest }
        = .next { s with bridgeAnswers := rest, runState := .halted,
                         fault := some (.memoryAccess addr width .read .unmapped) })
    ∧ (∀ addr width v t, s.memWrite addr width v = .ok t →
        exec .ecall { s with bridgeAnswers := .continue (.store addr width v :: acts) :: rest }
        = exec .ecall { t with bridgeAnswers := .continue acts :: rest })
    ∧ (∀ addr width v F, s.memWrite addr width v = .error F →
        exec .ecall { s with bridgeAnswers := .continue (.store addr width v :: acts) :: rest }
        = .next { s with bridgeAnswers := rest, runState := .halted, fault := some F })

/-- R262: the contract, for every answer there can be, the free value among them: an `ecall` never writes pc, `cycle`, the
configuration or a read-only byte, and touches the engine state only by exit or by a fault, which is a MemoryAccess
fault. -/
def Obligations.TheBridgeKeepsItsContract : Prop :=
  ∀ s : State, configWf s.cfg → s.cfg.bridge = .host →
    ∃ t, exec .ecall s = .next t ∧ t.pc = s.pc ∧ t.cycle = s.cycle ∧ t.cfg = s.cfg ∧ t.readReg 0 = 0#32
      ∧ t.debugCommands = s.debugCommands
      ∧ (∀ S ∈ s.cfg.map, S.readOnly = true → ∀ a, S.base ≤ a → a < S.base + S.size → t.byteAt a = s.byteAt a)
      ∧ ((t.runState = s.runState ∧ t.fault = s.fault ∧ t.exitCode = s.exitCode)
        ∨ (t.runState = .halted ∧ t.fault = s.fault)
        ∨ (t.runState = .halted ∧ t.exitCode = s.exitCode
            ∧ ∃ addr width kind reason, t.fault = some (.memoryAccess addr width kind reason)))

/-- R264: the reference Bridge exits with x10 for number 93 in x17; any other number has no meaning under it. -/
def Obligations.ReferenceBridgeExitsOnNinetyThree : Prop :=
  ∀ s : State, s.cfg.bridge = .reference →
    (s.readReg 17 = 93#32 → exec .ecall s = .next { s with exitCode := s.readReg 10, runState := .halted })
    ∧ (s.readReg 17 ≠ 93#32 → exec .ecall s = .refused (.syscallUndefined (s.readReg 17)))

/-! ### The abstract interface (R90, R112, R282) -/

/-- R90, R112: the operand list the decoder gives an instruction always has the right shape and immediates in range: it
reads back as that instruction, so no word that decodes can raise Parse. -/
def Obligations.DecodedOperandsNeverFailToParse : Prop :=
  ∀ (i : Instr) (addr : Word), i.wf = true → parseAbstract addr (operandsOf addr i) = some i

/-- R90, R107, R112, R282: an operand list that is not malformed is the one the decoder gives a well-formed instruction, so
one of the wrong shape or with an immediate out of range is malformed; a malformed list raises Parse before anything is
read or written, with pc advanced; any other is executed as the instruction it is. -/
def Obligations.MalformedOperandsRaiseParse : Prop :=
  (∀ (addr : Word) (a : AbstractInstr) (i : Instr), parseAbstract addr a = some i → i.wf = true ∧ a = operandsOf addr i)
  ∧ ∀ (a : AbstractInstr) (s : State),
    (parseAbstract s.pc a = none →
      ∃ t, execAbstract a s = .next t ∧ faultTaken { s with pc := s.pc + 4#32 } t .parse)
    ∧ (∀ i, parseAbstract s.pc a = some i → execAbstract a s = exec i { s with pc := s.pc + 4#32 })

/-- R120, R121, R294: a machine handed its instructions goes through the same points: halted it changes nothing, so no second
fault follows a first; otherwise the guard comes first, then the count, then the instruction. Suspended with no command
it is held (log entry 8). -/
def Obligations.AHandedInstructionFollowsTheCycle : Prop :=
  ∀ (a : AbstractInstr) (s : State), configWf s.cfg →
    (s.runState = .halted → abstractStep a s = .next s)
    ∧ (s.runState = .debugSuspended → s.debugCommands = [] → abstractStep a s = .next s)
    ∧ (∀ rest, s.runState = .debugSuspended → s.debugCommands = .dbgResume :: rest →
        abstractStep a s = .next { s with debugCommands := rest, runState := .running })
    ∧ (stepping s → ¬guardPasses s →
        ∃ t, abstractStep a s = .next t ∧ faultTaken (commandTaken s) t (.stackOverflow (s.readReg 2)))
    ∧ (stepping s → guardPasses s →
        abstractStep a s = execAbstract a { commandTaken s with cycle := s.cycle + 1 })

/-! ### Reset and boot (70_reset_and_hazards.md) -/

/-- R31, R321, R323: a boot succeeds when the map that placement gives (each program section at its declared base, or at the
first free multiple of 4 above those before it, then the stack, then the windows) is well-formed, and the machine has that
map; and the reset values of a machine that has booted: every register, pc, the engine state, the counter, the exit code,
the fault record, the stack's and the windows' bytes, and every program section's initial bytes. -/
def Obligations.BootGivesTheResetValues : Prop :=
  (∀ (b : BootInput) (bases : List Nat) (stackBase : Nat), placedAt b bases → leastFree b.relocBase (programAt b bases) stackBase →
    configWf (configAt b bases stackBase) → ∃ s, boot b = .ok s ∧ s.cfg = configAt b bases stackBase)
  ∧ ∀ (b : BootInput) (s : State), boot b = .ok s →
    s.readReg 2 = BitVec.ofNat 32 (s.cfg.stackBase + s.cfg.stackSize) ∧ s.cfg.stackSize = b.stackSize
    ∧ (∀ r : Reg, r ≠ 2 → s.readReg r = 0#32) ∧ s.pc = b.entryPc ∧ s.runState = .running ∧ s.cycle = 0
    ∧ s.exitCode = 0#32 ∧ s.fault = none
    ∧ (∀ S ∈ s.cfg.map, S.name = .stack ∨ S.name = .periph0 ∨ S.name = .periph1 →
        ∀ a, S.base ≤ a → a < S.base + S.size → s.byteAt a = 0#8)
    ∧ (∀ k, (h : k < b.sections.length) → ∃ S, s.cfg.map[k]? = some S ∧ S.name = .program b.sections[k].label
        ∧ S.size = b.sections[k].bytes.length ∧ S.readOnly = b.sections[k].readOnly ∧ S.exec = b.sections[k].exec
        ∧ ∀ j, (hj : j < b.sections[k].bytes.length) → s.byteAt (S.base + j) = b.sections[k].bytes[j])

/-- R321, R44: a machine that has booted meets the invariant, so its map is well-formed and its memory inside it. -/
def Obligations.BootedMachineMeetsInv : Prop := ∀ (b : BootInput) (s : State), boot b = .ok s → Inv s

/-- R322: `load_section`: a fixed section stands at its declared base; a relocatable one is placed at the first multiple of 4
at or above every section's end and `RELOC_BASE`, and there always is one; exhaustion is OutOfMemory, then overlap is a
failure signal. -/
def Obligations.LoadSectionPlacesAsDeclaredOrAbove : Prop :=
  ∀ (relocBase : Nat) (map : List MemSection) (S : MemSection),
    (∀ base, base + S.size > 2 ^ 32 → loadSection relocBase map (.fixed base) S = .error .outOfMemory)
    ∧ (∀ base, base + S.size ≤ 2 ^ 32 → (∃ T ∈ map, ¬sectionsApart { S with base := base } T) →
        loadSection relocBase map (.fixed base) S = .error .overlap)
    ∧ (∀ base, base + S.size ≤ 2 ^ 32 → (∀ T ∈ map, sectionsApart { S with base := base } T) →
        loadSection relocBase map (.fixed base) S = .ok { S with base := base })
    ∧ (∀ b, leastFree relocBase map b → b + S.size ≤ 2 ^ 32 →
        loadSection relocBase map .relocatable S = .ok { S with base := b })
    ∧ (∀ b, leastFree relocBase map b → b + S.size > 2 ^ 32 →
        loadSection relocBase map .relocatable S = .error .outOfMemory)
    ∧ (∃ b, leastFree relocBase map b)

/-- The interface's own: the word placed by `withFetchWord` in a machine after reset is the first it runs. The machine's
configuration at reset is the model's choice (log entries 2 and 17). -/
def Obligations.PlacedWordRunsFirstAfterReset : Prop :=
  ∀ (w : Word) (i : Instr), decodeWord w = .ok i →
    ∃ u, step (State.reset.withFetchWord 32 w.toNat) = exec i u ∧ u.pc = State.reset.pc + 4#32 ∧ u.cycle = 1
      ∧ sameRegs State.reset u

/-- R32: while suspended the Debugger may read x0 to x31, pc, every section's bytes and `cycle`, and at no other time. -/
def Obligations.DebuggerInspectsOnlyWhileSuspended : Prop :=
  ∀ s : State,
    (s.runState = .debugSuspended → ∃ v, inspect s = some v ∧ (∀ r : Reg, v.regs[r.val] = s.readReg r) ∧ v.pc = s.pc
      ∧ v.map = s.cfg.map ∧ (∀ a, Memory.get v.mem a = s.byteAt a) ∧ v.cycle = s.cycle)
    ∧ (s.runState ≠ .debugSuspended → inspect s = none)
end

