-- ==== Sys2Proof/Laws/Memory.lean ====
section
/-! SUPPORT. The laws of memory: a byte read after a write, the other bytes, the canonical form, and bytes against words. -/

namespace Sys2Proof.Machine

/-! ### One byte -/

/-- Erasing an address leaves what every other address reads as. -/
theorem Memory.get_erase_other (m : Memory) (a b : Nat) (h : b ≠ a) :
    Memory.get (Memory.erase m a) b = Memory.get m b := by
  induction m with
  | nil => rfl
  | cons c m ih =>
    obtain ⟨c, d⟩ := c
    unfold Memory.erase at ih ⊢
    by_cases hc : c = a
    · subst hc; simp [Memory.get, ih, Ne.symm h]
    · by_cases hb : c = b
      · subst hb; simp [Memory.get, hc]
      · simp [Memory.get, hc, hb, ih]

/-- An erased address reads as unlisted. -/
theorem Memory.get_erase_same (m : Memory) (a : Nat) : Memory.get (Memory.erase m a) a = Memory.unlisted := by
  induction m with
  | nil => rfl
  | cons c m ih =>
    obtain ⟨c, d⟩ := c
    unfold Memory.erase at ih ⊢
    by_cases hc : c = a <;> simp [Memory.get, hc, ih]

/-- Inserting a cell leaves what every other address reads as. -/
theorem Memory.get_insert_other (m : Memory) (a b : Nat) (v : Byte) (h : b ≠ a) :
    Memory.get (Memory.insert a v m) b = Memory.get m b := by
  induction m with
  | nil => simp [Memory.insert, Memory.get, Ne.symm h]
  | cons c m ih =>
    obtain ⟨c, d⟩ := c
    by_cases hlt : a < c
    · simp [Memory.insert, Memory.get, hlt, Ne.symm h]
    · simp [Memory.insert, Memory.get, hlt, ih]

/-- An inserted cell is read, where no other cell has its address. -/
theorem Memory.get_insert_same (m : Memory) (a : Nat) (v : Byte) (h : ∀ c ∈ m, c.1 ≠ a) :
    Memory.get (Memory.insert a v m) a = v := by
  induction m with
  | nil => simp [Memory.insert, Memory.get]
  | cons c m ih =>
    obtain ⟨c, d⟩ := c
    have hc : c ≠ a := h (c, d) (by simp)
    by_cases hlt : a < c
    · simp [Memory.insert, Memory.get, hlt]
    · simp [Memory.insert, Memory.get, hlt, hc]
      exact ih (fun e he => h e (by simp [he]))

theorem Memory.erase_misses (m : Memory) (a : Nat) : ∀ c ∈ Memory.erase m a, c.1 ≠ a := by
  intro c hc
  simp [Memory.erase] at hc
  exact hc.2

/-- READ AFTER WRITE, of one byte. -/
theorem Memory.get_set (m : Memory) (a b : Nat) (v : Byte) :
    Memory.get (Memory.set m a v) b = if b = a then v else Memory.get m b := by
  unfold Memory.set
  by_cases hb : b = a
  · subst hb
    by_cases hv : v = Memory.unlisted
    · simp [hv, Memory.get_erase_same]
    · simp [hv, Memory.get_insert_same _ _ _ (Memory.erase_misses m b)]
  · by_cases hv : v = Memory.unlisted
    · simp [hv, hb, Memory.get_erase_other _ _ _ hb]
    · simp [hv, hb, Memory.get_insert_other _ _ _ _ hb, Memory.get_erase_other _ _ _ hb]

/-! ### Several bytes -/

/-- Writing bytes leaves every address outside them alone. -/
theorem Memory.get_setBytes_other (bs : List Byte) (m : Memory) (a b : Nat) (h : b < a ∨ a + bs.length ≤ b) :
    Memory.get (Memory.setBytes m a bs) b = Memory.get m b := by
  induction bs generalizing m a with
  | nil => rfl
  | cons v bs ih =>
    simp only [List.length_cons] at h
    have hne : b ≠ a := by omega
    rw [Memory.setBytes, ih _ _ (by omega), Memory.get_set, if_neg hne]

/-- Each byte written is read back at its address. -/
theorem Memory.get_setBytes_inside (bs : List Byte) (m : Memory) (a k : Nat) (h : k < bs.length) :
    Memory.get (Memory.setBytes m a bs) (a + k) = bs[k] := by
  induction bs generalizing m a k with
  | nil => simp at h
  | cons v bs ih =>
    cases k with
    | zero =>
      rw [Memory.setBytes, Memory.get_setBytes_other _ _ _ _ (by omega), Memory.get_set]; simp
    | succ k =>
      have := ih (Memory.set m a v) (a + 1) k (by simpa using h)
      rw [Memory.setBytes, show a + (k + 1) = a + 1 + k by omega, this]; simp

/-- Bytes written are read back as they were written. -/
theorem Memory.getBytes_setBytes (bs : List Byte) (m : Memory) (a : Nat) :
    Memory.getBytes (Memory.setBytes m a bs) a bs.length = bs := by
  induction bs generalizing m a with
  | nil => rfl
  | cons v bs ih =>
    rw [Memory.setBytes, List.length_cons, Memory.getBytes, ih, Memory.get_setBytes_other _ _ _ _ (by omega),
      Memory.get_set, if_pos rfl]

@[simp] theorem Memory.length_getBytes (m : Memory) (a n : Nat) : (Memory.getBytes m a n).length = n := by
  induction n generalizing a with
  | zero => rfl
  | succ n ih => simp [Memory.getBytes, ih]

@[simp] theorem length_bytesOfWord (n : Nat) (v : Word) : (bytesOfWord n v).length = n := by
  induction n generalizing v with
  | zero => rfl
  | succ n ih => simp [bytesOfWord, ih]

/-- Two memories that agree on the bytes asked for give the same bytes. -/
theorem Memory.getBytes_congr (m m' : Memory) (a n : Nat) (h : ∀ k, k < n → Memory.get m' (a + k) = Memory.get m (a + k)) :
    Memory.getBytes m' a n = Memory.getBytes m a n := by
  induction n generalizing a with
  | zero => rfl
  | succ n ih =>
    rw [Memory.getBytes, Memory.getBytes, ih (a + 1) (fun k hk => by
      have := h (k + 1) (by omega); rwa [show a + (k + 1) = a + 1 + k by omega] at this)]
    have := h 0 (by omega)
    simp at this; rw [this]

/-! ### The canonical form -/

theorem Memory.wf_erase (m : Memory) (a : Nat) (h : Memory.wf m) : Memory.wf (Memory.erase m a) :=
  ⟨h.1.filter _, fun c hc => h.2 c (List.mem_of_mem_filter hc)⟩

theorem Memory.mem_insert (m : Memory) (a : Nat) (v : Byte) (c : Host.Cell) :
    c ∈ Memory.insert a v m ↔ c = (a, v) ∨ c ∈ m := by
  induction m with
  | nil => simp [Memory.insert]
  | cons d m ih =>
    obtain ⟨d, e⟩ := d
    by_cases hlt : a < d
    · simp [Memory.insert, hlt]
    · simp only [Memory.insert, hlt, if_false, List.mem_cons, ih]; tauto

theorem Memory.wf_insert (m : Memory) (a : Nat) (v : Byte) (hv : v ≠ Memory.unlisted) (hm : ∀ c ∈ m, c.1 ≠ a)
    (h : Memory.wf m) : Memory.wf (Memory.insert a v m) := by
  refine ⟨?_, fun c hc => ?_⟩
  · induction m with
    | nil => simp [Memory.insert]
    | cons d m ih =>
      obtain ⟨d, e⟩ := d
      have hp := List.pairwise_cons.mp h.1
      by_cases hlt : a < d
      · simp only [Memory.insert, hlt, if_true]
        refine List.pairwise_cons.mpr ⟨fun c hc => ?_, h.1⟩
        rcases List.mem_cons.mp hc with rfl | hc
        · exact hlt
        · exact Nat.lt_trans hlt (hp.1 c hc)
      · simp only [Memory.insert, hlt, if_false]
        have hda : d ≠ a := hm (d, e) (by simp)
        refine List.pairwise_cons.mpr ⟨fun c hc => ?_,
          ih (fun c hc => hm c (by simp [hc])) ⟨hp.2, fun c hc => h.2 c (by simp [hc])⟩⟩
        rcases (Memory.mem_insert m a v c).mp hc with rfl | hc
        · show d < a; omega
        · exact hp.1 c hc
  · rcases (Memory.mem_insert m a v c).mp hc with rfl | hc
    · exact hv
    · exact h.2 c hc

/-- Writing a byte keeps the canonical form. -/
theorem Memory.wf_set (m : Memory) (a : Nat) (v : Byte) (h : Memory.wf m) : Memory.wf (Memory.set m a v) := by
  unfold Memory.set
  split
  · exact Memory.wf_erase m a h
  · rename_i hv
    exact Memory.wf_insert _ a v hv (Memory.erase_misses m a) (Memory.wf_erase m a h)

/-- Writing bytes keeps the canonical form. -/
theorem Memory.wf_setBytes (bs : List Byte) (m : Memory) (a : Nat) (h : Memory.wf m) :
    Memory.wf (Memory.setBytes m a bs) := by
  induction bs generalizing m a with
  | nil => exact h
  | cons v bs ih => exact ih _ _ (Memory.wf_set m a v h)

/-- A cell after a write is one that was there or one at the address written. -/
theorem Memory.mem_set (m : Memory) (a : Nat) (v : Byte) (c : Host.Cell) (h : c ∈ Memory.set m a v) :
    c.1 = a ∨ c ∈ m := by
  unfold Memory.set at h
  split at h
  · exact .inr (List.mem_of_mem_filter h)
  · rcases (Memory.mem_insert _ a v c).mp h with rfl | h
    · exact .inl rfl
    · exact .inr (List.mem_of_mem_filter h)

/-- A cell after a write of bytes is one that was there or one at an address written. -/
theorem Memory.mem_setBytes (bs : List Byte) (m : Memory) (a : Nat) (c : Host.Cell)
    (h : c ∈ Memory.setBytes m a bs) : (a ≤ c.1 ∧ c.1 < a + bs.length) ∨ c ∈ m := by
  induction bs generalizing m a with
  | nil => exact .inr h
  | cons v bs ih =>
    rw [Memory.setBytes] at h
    simp only [List.length_cons]
    rcases ih _ _ h with h | h
    · exact .inl (by omega)
    · rcases Memory.mem_set m a v c h with h | h
      · exact .inl (by omega)
      · exact .inr h

/-- Two memories in canonical form that read the same everywhere are the same list. -/
theorem Memory.ext_of_get (m m' : Memory) (h : Memory.wf m) (h' : Memory.wf m')
    (hg : ∀ a, Memory.get m a = Memory.get m' a) : m = m' := by
  have low : ∀ (m : Memory) (a : Nat), (∀ c ∈ m, a < c.1) → Memory.get m a = Memory.unlisted := by
    intro m
    induction m with
    | nil => intro a _; rfl
    | cons c m ih =>
      intro a hc
      have h1 := hc c (by simp)
      obtain ⟨c, d⟩ := c
      have : c ≠ a := by simp at h1; omega
      simp [Memory.get, this, ih a (fun e he => hc e (by simp [he]))]
  induction m generalizing m' with
  | nil =>
    cases m' with
    | nil => rfl
    | cons c m' =>
      exfalso
      obtain ⟨c, d⟩ := c
      have := hg c
      simp [Memory.get] at this
      exact h'.2 (c, d) (by simp) this.symm
  | cons c m ih =>
    obtain ⟨c, d⟩ := c
    have hp := List.pairwise_cons.mp h.1
    cases m' with
    | nil =>
      exfalso
      have := hg c
      simp [Memory.get] at this
      exact h.2 (c, d) (by simp) this
    | cons c' m' =>
      obtain ⟨c', d'⟩ := c'
      have hp' := List.pairwise_cons.mp h'.1
      have hcc : c = c' := by
        rcases Nat.lt_trichotomy c c' with hlt | rfl | hlt
        · exfalso
          have := hg c
          rw [low ((c', d') :: m') c (fun e he => by
            rcases List.mem_cons.mp he with rfl | he
            · exact hlt
            · exact Nat.lt_trans hlt (hp'.1 e he))] at this
          simp [Memory.get] at this
          exact h.2 (c, d) (by simp) this
        · rfl
        · exfalso
          have := hg c'
          rw [low ((c, d) :: m) c' (fun e he => by
            rcases List.mem_cons.mp he with rfl | he
            · exact hlt
            · exact Nat.lt_trans hlt (hp.1 e he))] at this
          simp [Memory.get] at this
          exact h'.2 (c', d') (by simp) this.symm
      subst hcc
      have hd : d = d' := by simpa [Memory.get] using hg c
      subst hd
      congr 1
      refine ih m' ⟨hp.2, fun e he => h.2 e (by simp [he])⟩ ⟨hp'.2, fun e he => h'.2 e (by simp [he])⟩ (fun a => ?_)
      by_cases ha : c = a
      · subst ha
        rw [low m c hp.1, low m' c hp'.1]
      · have := hg a
        simpa [Memory.get, ha] using this

end Sys2Proof.Machine
end

