-- ==== Sys2Proof/Laws/Boot.lean ====
section
/-! SUPPORT. What each part of the boot procedure can do, said once. -/

namespace Sys2Proof.Machine

/-- Every section placed so far ends at or below the highest end, and so does `RELOC_BASE`. -/
theorem le_highestEnd (relocBase : Nat) (map : List MemSection) :
    relocBase ≤ highestEnd relocBase map ∧ ∀ T ∈ map, T.base + T.size ≤ highestEnd relocBase map := by
  induction map with
  | nil => simp [highestEnd]
  | cons S map ih =>
    refine ⟨by simp only [highestEnd]; omega, fun T hT => ?_⟩
    simp only [highestEnd]
    rcases List.mem_cons.mp hT with rfl | hT
    · omega
    · have := ih.2 T hT; omega

/-- The rounding goes to a multiple of 4, up by less than 4. -/
theorem roundUp4_spec (n : Nat) : roundUp4 n % 4 = 0 ∧ n ≤ roundUp4 n ∧ roundUp4 n < n + 4 := by
  unfold roundUp4; omega

/-- A section that is placed stands at the base its placement asks for, below 2^32 and apart from every other. -/
theorem loadSection_ok {relocBase : Nat} {map : List MemSection} {placement : Placement} {S P : MemSection}
    (h : loadSection relocBase map placement S = .ok P) :
    P = { S with base := placementBase relocBase map placement } ∧ P.base + P.size ≤ 2 ^ 32
      ∧ ∀ T ∈ map, sectionsApart P T := by
  unfold loadSection at h
  split at h
  · cases h
  · split at h
    · next h1 h2 => cases h; exact ⟨rfl, by simpa using h1, h2⟩
    · cases h

/-- A section with a name other than the program's keeps its name, size and flags when it is placed. -/
theorem loadSection_keeps {relocBase : Nat} {map : List MemSection} {placement : Placement} {S P : MemSection}
    (h : loadSection relocBase map placement S = .ok P) :
    P.name = S.name ∧ P.size = S.size ∧ P.readOnly = S.readOnly ∧ P.exec = S.exec := by
  obtain ⟨rfl, -, -⟩ := loadSection_ok h; exact ⟨rfl, rfl, rfl, rfl⟩

/-- Loading one program section and then the rest. -/
theorem loadPrograms_cons {relocBase : Nat} {p : ProgramSection} {rest : List ProgramSection} {map map' : List MemSection}
    {mem mem' : Memory} (h : loadPrograms relocBase (p :: rest) map mem = .ok (map', mem')) :
    ∃ S, loadSection relocBase map p.placement p.request = .ok S
      ∧ loadPrograms relocBase rest (map ++ [S]) (Memory.setBytes mem S.base p.bytes) = .ok (map', mem') := by
  simp only [loadPrograms] at h
  cases hS : loadSection relocBase map p.placement p.request with
  | error e => rw [hS] at h; cases h
  | ok S => rw [hS] at h; exact ⟨S, rfl, h⟩

/-- The stack and the two windows come after the program's sections. -/
theorem setupStack_ok {b : BootInput} {map : List MemSection} {cfg : Config} (h : setupStack b map = .ok cfg) :
    ∃ stack p0 p1, loadSection b.relocBase map .relocatable (stackSection 0 b.stackSize) = .ok stack
      ∧ loadSection b.relocBase (map ++ [stack]) (.fixed b.periph0.base) (windowSection .periph0 b.periph0) = .ok p0
      ∧ loadSection b.relocBase (map ++ [stack, p0]) (.fixed b.periph1.base) (windowSection .periph1 b.periph1) = .ok p1
      ∧ cfg = { map := map ++ [stack, p0, p1], stackBase := stack.base, stackSize := b.stackSize, guardBand := b.guardBand,
                periph0 := b.periph0, periph1 := b.periph1, auipcBias := b.auipcBias, bridge := b.bridge } := by
  unfold setupStack at h
  cases h1 : loadSection b.relocBase map .relocatable (stackSection 0 b.stackSize) with
  | error e => rw [h1] at h; cases h
  | ok stack =>
    rw [h1] at h; simp only at h
    cases h2 : loadSection b.relocBase (map ++ [stack]) (.fixed b.periph0.base) (windowSection .periph0 b.periph0) with
    | error e => rw [h2] at h; cases h
    | ok p0 =>
      rw [h2] at h; simp only at h
      cases h3 : loadSection b.relocBase (map ++ [stack, p0]) (.fixed b.periph1.base) (windowSection .periph1 b.periph1) with
      | error e => rw [h3] at h; cases h
      | ok p1 => rw [h3] at h; cases h; exact ⟨stack, p0, p1, rfl, h2, h3, rfl⟩

/-- A boot that succeeds has loaded the program, set up the stack, and made a well-formed configuration. -/
theorem boot_ok {b : BootInput} {s : State} (h : boot b = .ok s) :
    ∃ map mem cfg, loadPrograms b.relocBase b.sections [] [] = .ok (map, mem) ∧ setupStack b map = .ok cfg
      ∧ configWf cfg ∧ s = State.atReset cfg mem b.entryPc := by
  unfold boot at h
  cases h1 : loadPrograms b.relocBase b.sections [] [] with
  | error e => rw [h1] at h; cases h
  | ok r =>
    obtain ⟨map, mem⟩ := r
    rw [h1] at h; simp only at h
    cases h2 : setupStack b map with
    | error e => rw [h2] at h; cases h
    | ok cfg =>
      rw [h2] at h; simp only at h
      by_cases hc : configWf cfg
      · rw [if_pos hc] at h; cases h; exact ⟨map, mem, cfg, rfl, h2, hc, rfl⟩
      · rw [if_neg hc] at h; cases h

end Sys2Proof.Machine
end

