-- ==== Sys2Proof/Laws/Decode.lean ====
section
/-! SUPPORT. The bits of the encoded words and of the decoder's fields, the fields of an encoded word, the part of it a row's
mask keeps, and bytes against words. -/

namespace Sys2Proof

/-! ### The bits of each word shape and of each field -/

theorem getLsbD_wordR (f7 : BitVec 7) (b a : BitVec 5) (f3 : BitVec 3) (rd : BitVec 5) (op : BitVec 7) (i : Nat) (hi : i < 32) :
    (wordR f7 b a f3 rd op).getLsbD i =
      (if i < 7 then op.getLsbD i else if i < 12 then rd.getLsbD (i - 7) else if i < 15 then f3.getLsbD (i - 12)
      else if i < 20 then a.getLsbD (i - 15) else if i < 25 then b.getLsbD (i - 20) else f7.getLsbD (i - 25)) := by
  show BitVec.getLsbD (w := 7 + 5 + 5 + 3 + 5 + 7)
    (f7 ++ b ++ a ++ f3 ++ rd ++ op) i = _
  simp only [BitVec.getLsbD_append]
  interval_cases i <;> rfl

theorem getLsbD_wordI (imm : BitVec 12) (a : BitVec 5) (f3 : BitVec 3) (rd : BitVec 5) (op : BitVec 7) (i : Nat) (hi : i < 32) :
    (wordI imm a f3 rd op).getLsbD i =
      (if i < 7 then op.getLsbD i else if i < 12 then rd.getLsbD (i - 7) else if i < 15 then f3.getLsbD (i - 12)
      else if i < 20 then a.getLsbD (i - 15) else imm.getLsbD (i - 20)) := by
  show BitVec.getLsbD (w := 12 + 5 + 3 + 5 + 7)
    (imm ++ a ++ f3 ++ rd ++ op) i = _
  simp only [BitVec.getLsbD_append]
  interval_cases i <;> rfl

theorem getLsbD_wordS (imm : BitVec 12) (b a : BitVec 5) (f3 : BitVec 3) (op : BitVec 7) (i : Nat) (hi : i < 32) :
    (wordS imm b a f3 op).getLsbD i =
      (if i < 7 then op.getLsbD i else if i < 12 then imm.getLsbD (i - 7) else if i < 15 then f3.getLsbD (i - 12)
      else if i < 20 then a.getLsbD (i - 15) else if i < 25 then b.getLsbD (i - 20) else imm.getLsbD (i - 20)) := by
  show BitVec.getLsbD (w := 7 + 5 + 5 + 3 + 5 + 7)
    (imm.extractLsb' 5 7 ++ b ++ a ++ f3 ++ imm.extractLsb' 0 5 ++ op) i = _
  simp only [BitVec.getLsbD_append, BitVec.getLsbD_extractLsb']
  interval_cases i <;> rfl

theorem getLsbD_wordB (off : BitVec 13) (b a : BitVec 5) (f3 : BitVec 3) (op : BitVec 7) (i : Nat) (hi : i < 32) :
    (wordB off b a f3 op).getLsbD i =
      (if i < 7 then op.getLsbD i else if i < 8 then off.getLsbD 11 else if i < 12 then off.getLsbD (i - 7)
      else if i < 15 then f3.getLsbD (i - 12) else if i < 20 then a.getLsbD (i - 15) else if i < 25 then b.getLsbD (i - 20)
      else if i < 31 then off.getLsbD (i - 20) else off.getLsbD 12) := by
  show BitVec.getLsbD (w := 1 + 6 + 5 + 5 + 3 + 4 + 1 + 7)
    (off.extractLsb' 12 1 ++ off.extractLsb' 5 6 ++ b ++ a ++ f3 ++ off.extractLsb' 1 4 ++ off.extractLsb' 11 1 ++ op) i = _
  simp only [BitVec.getLsbD_append, BitVec.getLsbD_extractLsb']
  interval_cases i <;> rfl

theorem getLsbD_wordU (imm : BitVec 20) (rd : BitVec 5) (op : BitVec 7) (i : Nat) (hi : i < 32) :
    (wordU imm rd op).getLsbD i =
      (if i < 7 then op.getLsbD i else if i < 12 then rd.getLsbD (i - 7) else imm.getLsbD (i - 12)) := by
  show BitVec.getLsbD (w := 20 + 5 + 7)
    (imm ++ rd ++ op) i = _
  simp only [BitVec.getLsbD_append]
  interval_cases i <;> rfl

theorem getLsbD_wordJ (off : BitVec 21) (rd : BitVec 5) (op : BitVec 7) (i : Nat) (hi : i < 32) :
    (wordJ off rd op).getLsbD i =
      (if i < 7 then op.getLsbD i else if i < 12 then rd.getLsbD (i - 7) else if i < 20 then off.getLsbD i
      else if i < 21 then off.getLsbD 11 else if i < 31 then off.getLsbD (i - 20) else off.getLsbD 20) := by
  show BitVec.getLsbD (w := 1 + 10 + 1 + 8 + 5 + 7)
    (off.extractLsb' 20 1 ++ off.extractLsb' 1 10 ++ off.extractLsb' 11 1 ++ off.extractLsb' 12 8 ++ rd ++ op) i = _
  simp only [BitVec.getLsbD_append, BitVec.getLsbD_extractLsb']
  interval_cases i <;> rfl

theorem getLsbD_fieldImmS (w : Word) (i : Nat) (hi : i < 12) :
    (fieldImmS w).getLsbD i = (if i < 5 then w.getLsbD (i + 7) else w.getLsbD (i + 20)) := by
  show BitVec.getLsbD (w := 7 + 5)
    (w.extractLsb' 25 7 ++ w.extractLsb' 7 5) i = _
  simp only [BitVec.getLsbD_append, BitVec.getLsbD_extractLsb']
  interval_cases i <;> rfl

theorem getLsbD_fieldOffB (w : Word) (i : Nat) (hi : i < 13) :
    (fieldOffB w).getLsbD i = (if i < 1 then false else if i < 5 then w.getLsbD (i + 7) else if i < 11 then w.getLsbD (i + 20)
      else if i < 12 then w.getLsbD 7 else w.getLsbD 31) := by
  show BitVec.getLsbD (w := 1 + 1 + 6 + 4 + 1)
    (w.extractLsb' 31 1 ++ w.extractLsb' 7 1 ++ w.extractLsb' 25 6 ++ w.extractLsb' 8 4 ++ 0#1) i = _
  simp only [BitVec.getLsbD_append, BitVec.getLsbD_extractLsb']
  interval_cases i <;> rfl

theorem getLsbD_fieldOffJ (w : Word) (i : Nat) (hi : i < 21) :
    (fieldOffJ w).getLsbD i = (if i < 1 then false else if i < 11 then w.getLsbD (i + 20) else if i < 12 then w.getLsbD 20
      else if i < 20 then w.getLsbD i else w.getLsbD 31) := by
  show BitVec.getLsbD (w := 1 + 8 + 1 + 10 + 1)
    (w.extractLsb' 31 1 ++ w.extractLsb' 12 8 ++ w.extractLsb' 20 1 ++ w.extractLsb' 21 10 ++ 0#1) i = _
  simp only [BitVec.getLsbD_append, BitVec.getLsbD_extractLsb']
  interval_cases i <;> rfl

/-! ### The fields of an encoded word -/

@[simp] theorem regBits_toFin (r : Reg) : (regBits r).toFin = r := rfl

@[simp] theorem fieldRd_wordR (f7 : BitVec 7) (b a : BitVec 5) (f3 : BitVec 3) (rd : BitVec 5) (op : BitVec 7) :
    fieldRd (wordR f7 b a f3 rd op) = rd.toFin := by
  unfold fieldRd; congr 1
  apply BitVec.eq_of_getLsbD_eq; intro i hi
  rw [BitVec.getLsbD_extractLsb', decide_eq_true hi, Bool.true_and, getLsbD_wordR _ _ _ _ _ _ _ (by omega)]
  interval_cases i <;> rfl

@[simp] theorem fieldRs1_wordR (f7 : BitVec 7) (b a : BitVec 5) (f3 : BitVec 3) (rd : BitVec 5) (op : BitVec 7) :
    fieldRs1 (wordR f7 b a f3 rd op) = a.toFin := by
  unfold fieldRs1; congr 1
  apply BitVec.eq_of_getLsbD_eq; intro i hi
  rw [BitVec.getLsbD_extractLsb', decide_eq_true hi, Bool.true_and, getLsbD_wordR _ _ _ _ _ _ _ (by omega)]
  interval_cases i <;> rfl

@[simp] theorem fieldRs2_wordR (f7 : BitVec 7) (b a : BitVec 5) (f3 : BitVec 3) (rd : BitVec 5) (op : BitVec 7) :
    fieldRs2 (wordR f7 b a f3 rd op) = b.toFin := by
  unfold fieldRs2; congr 1
  apply BitVec.eq_of_getLsbD_eq; intro i hi
  rw [BitVec.getLsbD_extractLsb', decide_eq_true hi, Bool.true_and, getLsbD_wordR _ _ _ _ _ _ _ (by omega)]
  interval_cases i <;> rfl

@[simp] theorem fieldShamt_wordR (f7 : BitVec 7) (b a : BitVec 5) (f3 : BitVec 3) (rd : BitVec 5) (op : BitVec 7) :
    fieldShamt (wordR f7 b a f3 rd op) = b := by
  unfold fieldShamt
  apply BitVec.eq_of_getLsbD_eq; intro i hi
  rw [BitVec.getLsbD_extractLsb', decide_eq_true hi, Bool.true_and, getLsbD_wordR _ _ _ _ _ _ _ (by omega)]
  interval_cases i <;> rfl

@[simp] theorem fieldRd_wordI (imm : BitVec 12) (a : BitVec 5) (f3 : BitVec 3) (rd : BitVec 5) (op : BitVec 7) :
    fieldRd (wordI imm a f3 rd op) = rd.toFin := by
  unfold fieldRd; congr 1
  apply BitVec.eq_of_getLsbD_eq; intro i hi
  rw [BitVec.getLsbD_extractLsb', decide_eq_true hi, Bool.true_and, getLsbD_wordI _ _ _ _ _ _ (by omega)]
  interval_cases i <;> rfl

@[simp] theorem fieldRs1_wordI (imm : BitVec 12) (a : BitVec 5) (f3 : BitVec 3) (rd : BitVec 5) (op : BitVec 7) :
    fieldRs1 (wordI imm a f3 rd op) = a.toFin := by
  unfold fieldRs1; congr 1
  apply BitVec.eq_of_getLsbD_eq; intro i hi
  rw [BitVec.getLsbD_extractLsb', decide_eq_true hi, Bool.true_and, getLsbD_wordI _ _ _ _ _ _ (by omega)]
  interval_cases i <;> rfl

@[simp] theorem fieldImmI_wordI (imm : BitVec 12) (a : BitVec 5) (f3 : BitVec 3) (rd : BitVec 5) (op : BitVec 7) :
    fieldImmI (wordI imm a f3 rd op) = imm := by
  unfold fieldImmI
  apply BitVec.eq_of_getLsbD_eq; intro i hi
  rw [BitVec.getLsbD_extractLsb', decide_eq_true hi, Bool.true_and, getLsbD_wordI _ _ _ _ _ _ (by omega)]
  interval_cases i <;> rfl

@[simp] theorem fieldRs1_wordS (imm : BitVec 12) (b a : BitVec 5) (f3 : BitVec 3) (op : BitVec 7) :
    fieldRs1 (wordS imm b a f3 op) = a.toFin := by
  unfold fieldRs1; congr 1
  apply BitVec.eq_of_getLsbD_eq; intro i hi
  rw [BitVec.getLsbD_extractLsb', decide_eq_true hi, Bool.true_and, getLsbD_wordS _ _ _ _ _ _ (by omega)]
  interval_cases i <;> rfl

@[simp] theorem fieldRs2_wordS (imm : BitVec 12) (b a : BitVec 5) (f3 : BitVec 3) (op : BitVec 7) :
    fieldRs2 (wordS imm b a f3 op) = b.toFin := by
  unfold fieldRs2; congr 1
  apply BitVec.eq_of_getLsbD_eq; intro i hi
  rw [BitVec.getLsbD_extractLsb', decide_eq_true hi, Bool.true_and, getLsbD_wordS _ _ _ _ _ _ (by omega)]
  interval_cases i <;> rfl

@[simp] theorem fieldImmS_wordS (imm : BitVec 12) (b a : BitVec 5) (f3 : BitVec 3) (op : BitVec 7) :
    fieldImmS (wordS imm b a f3 op) = imm := by
  apply BitVec.eq_of_getLsbD_eq; intro i hi
  rw [getLsbD_fieldImmS _ _ hi]
  interval_cases i <;>
    simp (disch := omega) only [getLsbD_wordS, Nat.reduceLT, Nat.reduceAdd, Nat.reduceSub, if_true, if_false] at *

@[simp] theorem fieldRs1_wordB (off : BitVec 13) (b a : BitVec 5) (f3 : BitVec 3) (op : BitVec 7) :
    fieldRs1 (wordB off b a f3 op) = a.toFin := by
  unfold fieldRs1; congr 1
  apply BitVec.eq_of_getLsbD_eq; intro i hi
  rw [BitVec.getLsbD_extractLsb', decide_eq_true hi, Bool.true_and, getLsbD_wordB _ _ _ _ _ _ (by omega)]
  interval_cases i <;> rfl

@[simp] theorem fieldRs2_wordB (off : BitVec 13) (b a : BitVec 5) (f3 : BitVec 3) (op : BitVec 7) :
    fieldRs2 (wordB off b a f3 op) = b.toFin := by
  unfold fieldRs2; congr 1
  apply BitVec.eq_of_getLsbD_eq; intro i hi
  rw [BitVec.getLsbD_extractLsb', decide_eq_true hi, Bool.true_and, getLsbD_wordB _ _ _ _ _ _ (by omega)]
  interval_cases i <;> rfl

@[simp] theorem fieldOffB_wordB (off : BitVec 13) (b a : BitVec 5) (f3 : BitVec 3) (op : BitVec 7) (h : off.getLsbD 0 = false) :
    fieldOffB (wordB off b a f3 op) = off := by
  apply BitVec.eq_of_getLsbD_eq; intro i hi
  rw [getLsbD_fieldOffB _ _ hi]
  by_cases h0 : i = 0
  · subst h0; exact h.symm
  · interval_cases i <;>
    simp (disch := omega) only [getLsbD_wordB, Nat.reduceLT, Nat.reduceAdd, Nat.reduceSub, if_true, if_false, not_true] at *

@[simp] theorem fieldRd_wordU (imm : BitVec 20) (rd : BitVec 5) (op : BitVec 7) :
    fieldRd (wordU imm rd op) = rd.toFin := by
  unfold fieldRd; congr 1
  apply BitVec.eq_of_getLsbD_eq; intro i hi
  rw [BitVec.getLsbD_extractLsb', decide_eq_true hi, Bool.true_and, getLsbD_wordU _ _ _ _ (by omega)]
  interval_cases i <;> rfl

@[simp] theorem fieldImmU_wordU (imm : BitVec 20) (rd : BitVec 5) (op : BitVec 7) :
    fieldImmU (wordU imm rd op) = imm := by
  unfold fieldImmU
  apply BitVec.eq_of_getLsbD_eq; intro i hi
  rw [BitVec.getLsbD_extractLsb', decide_eq_true hi, Bool.true_and, getLsbD_wordU _ _ _ _ (by omega)]
  interval_cases i <;> rfl

@[simp] theorem fieldRd_wordJ (off : BitVec 21) (rd : BitVec 5) (op : BitVec 7) :
    fieldRd (wordJ off rd op) = rd.toFin := by
  unfold fieldRd; congr 1
  apply BitVec.eq_of_getLsbD_eq; intro i hi
  rw [BitVec.getLsbD_extractLsb', decide_eq_true hi, Bool.true_and, getLsbD_wordJ _ _ _ _ (by omega)]
  interval_cases i <;> rfl

@[simp] theorem fieldOffJ_wordJ (off : BitVec 21) (rd : BitVec 5) (op : BitVec 7) (h : off.getLsbD 0 = false) :
    fieldOffJ (wordJ off rd op) = off := by
  apply BitVec.eq_of_getLsbD_eq; intro i hi
  rw [getLsbD_fieldOffJ _ _ hi]
  by_cases h0 : i = 0
  · subst h0; exact h.symm
  · interval_cases i <;>
    simp (disch := omega) only [getLsbD_wordJ, Nat.reduceLT, Nat.reduceAdd, Nat.reduceSub, if_true, if_false, not_true] at *

/-! ### What a row's mask keeps of an encoded word -/

theorem wordR_and_mask (f7 : BitVec 7) (b a : BitVec 5) (f3 : BitVec 3) (rd : BitVec 5) (op : BitVec 7) :
    wordR f7 b a f3 rd op &&& 0xFE00707F#32 = wordR f7 0#5 0#5 f3 0#5 op := by
  apply BitVec.eq_of_getLsbD_eq; intro i hi
  rw [BitVec.getLsbD_and, getLsbD_wordR _ _ _ _ _ _ _ hi, getLsbD_wordR _ _ _ _ _ _ _ hi]
  interval_cases i <;> simp

theorem wordI_and_mask (imm : BitVec 12) (a : BitVec 5) (f3 : BitVec 3) (rd : BitVec 5) (op : BitVec 7) :
    wordI imm a f3 rd op &&& 0x0000707F#32 = wordI 0#12 0#5 f3 0#5 op := by
  apply BitVec.eq_of_getLsbD_eq; intro i hi
  rw [BitVec.getLsbD_and, getLsbD_wordI _ _ _ _ _ _ hi, getLsbD_wordI _ _ _ _ _ _ hi]
  interval_cases i <;> simp

theorem wordS_and_mask (imm : BitVec 12) (b a : BitVec 5) (f3 : BitVec 3) (op : BitVec 7) :
    wordS imm b a f3 op &&& 0x0000707F#32 = wordS 0#12 0#5 0#5 f3 op := by
  apply BitVec.eq_of_getLsbD_eq; intro i hi
  rw [BitVec.getLsbD_and, getLsbD_wordS _ _ _ _ _ _ hi, getLsbD_wordS _ _ _ _ _ _ hi]
  interval_cases i <;> simp

theorem wordB_and_mask (off : BitVec 13) (b a : BitVec 5) (f3 : BitVec 3) (op : BitVec 7) :
    wordB off b a f3 op &&& 0x0000707F#32 = wordB 0#13 0#5 0#5 f3 op := by
  apply BitVec.eq_of_getLsbD_eq; intro i hi
  rw [BitVec.getLsbD_and, getLsbD_wordB _ _ _ _ _ _ hi, getLsbD_wordB _ _ _ _ _ _ hi]
  interval_cases i <;> simp

theorem wordU_and_mask (imm : BitVec 20) (rd : BitVec 5) (op : BitVec 7) :
    wordU imm rd op &&& 0x0000007F#32 = wordU 0#20 0#5 op := by
  apply BitVec.eq_of_getLsbD_eq; intro i hi
  rw [BitVec.getLsbD_and, getLsbD_wordU _ _ _ _ hi, getLsbD_wordU _ _ _ _ hi]
  interval_cases i <;> simp

theorem wordJ_and_mask (off : BitVec 21) (rd : BitVec 5) (op : BitVec 7) :
    wordJ off rd op &&& 0x0000007F#32 = wordJ 0#21 0#5 op := by
  apply BitVec.eq_of_getLsbD_eq; intro i hi
  rw [BitVec.getLsbD_and, getLsbD_wordJ _ _ _ _ hi, getLsbD_wordJ _ _ _ _ hi]
  interval_cases i <;> simp

/-! ### Bytes and words (R48, R155, R156) -/

/-- Bit `i` of the word a byte list stands for is bit `i % 8` of byte `i / 8`. -/
theorem getLsbD_wordOfBytes (bs : List Byte) (i : Nat) :
    (wordOfBytes bs).getLsbD i = (decide (i < 32) && (bs.getD (i / 8) 0#8).getLsbD (i % 8)) := by
  induction bs generalizing i with
  | nil => simp [wordOfBytes]
  | cons b bs ih =>
    simp only [wordOfBytes, BitVec.getLsbD_or, BitVec.getLsbD_setWidth, BitVec.getLsbD_shiftLeft, ih]
    by_cases h : i < 8
    · rw [Nat.div_eq_of_lt h, Nat.mod_eq_of_lt h]; simp [h]
    · have e1 : i / 8 = (i - 8) / 8 + 1 := by omega
      have e2 : (i - 8) % 8 = i % 8 := by omega
      have e3 : b.getLsbD i = false := BitVec.getLsbD_of_ge b i (by omega)
      have e4 : i - 8 < 32 ∨ ¬i < 32 := by omega
      rw [e1, e2, e3]
      rcases e4 with e4 | e4 <;> simp [h, e4]

/-- Byte `k` of a word's bytes is its bits `8k+7 .. 8k`. -/
theorem getD_bytesOfWord (n : Nat) (v : Word) (k : Nat) :
    (bytesOfWord n v).getD k 0#8 = if k < n then v.extractLsb' (8 * k) 8 else 0#8 := by
  induction n generalizing v k with
  | zero => simp [bytesOfWord]
  | succ n ih =>
    cases k with
    | zero =>
      simp only [bytesOfWord, List.getD_cons_zero, Nat.zero_lt_succ, if_true]
      apply BitVec.eq_of_getLsbD_eq; intro i hi
      simp [hi]
    | succ k =>
      simp only [bytesOfWord, List.getD_cons_succ, ih]
      by_cases h : k < n
      · simp only [h, Nat.succ_lt_succ h, if_true]
        apply BitVec.eq_of_getLsbD_eq; intro i hi
        simp only [BitVec.getLsbD_extractLsb', BitVec.getLsbD_ushiftRight, hi]
        congr 2; omega
      · simp [h]

/-- Reading back a word's bytes keeps the bits that were written. -/
theorem getLsbD_wordOfBytes_bytesOfWord (n : Nat) (v : Word) (i : Nat) :
    (wordOfBytes (bytesOfWord n v)).getLsbD i = (decide (i < 8 * n) && v.getLsbD i) := by
  rw [getLsbD_wordOfBytes, getD_bytesOfWord]
  by_cases h : i / 8 < n
  · have h8 : i < 8 * n := by omega
    have hm : i % 8 < 8 := Nat.mod_lt _ (by decide)
    simp only [h, if_true, BitVec.getLsbD_extractLsb', h8, decide_true, Bool.true_and, hm]
    rw [show 8 * (i / 8) + i % 8 = i by omega]
    by_cases h32 : i < 32
    · simp [h32]
    · simp [h32, BitVec.getLsbD_of_ge v i (by omega)]
  · have h8 : ¬i < 8 * n := by omega
    simp [h, h8]

/-- The four bytes of a word stand for that word. -/
@[simp] theorem wordOfBytes_bytesOfWord (v : Word) : wordOfBytes (bytesOfWord 4 v) = v := by
  apply BitVec.eq_of_getLsbD_eq; intro i hi
  rw [getLsbD_wordOfBytes_bytesOfWord, decide_eq_true (by omega), Bool.true_and]

/-- Decoding from bytes is decoding the word they stand for. -/
theorem decode_bytesOfWord (w : Word) (rest : List Byte) :
    decode (bytesOfWord 4 w ++ rest) = (decodeWord w).map (fun i => (i, rest)) := by
  have h := wordOfBytes_bytesOfWord w
  simp only [bytesOfWord] at h
  simp only [bytesOfWord, List.cons_append, List.nil_append, decode, h]
  cases decodeWord w <;> rfl

/-- A word that a row hits is the row's instruction, where no row before it in the table hits. -/
theorem decodeWord_eq_ok_iff (w : Word) (i : Instr) :
    decodeWord w = .ok i ↔ ∃ r, opcodeRows.find? (fun r => r.hits w) = some r ∧ r.build w = i := by
  unfold decodeWord
  cases opcodeRows.find? (fun r => r.hits w) <;> simp

end Sys2Proof
end

