-- ==== Sys2Proof/Laws/State.lean ====
section
/-! SUPPORT. One lemma per field per update of the state, so that no later proof unfolds a record update. -/

namespace Sys2Proof.Machine

variable (s : State)

/-! ### writePc -/

@[simp] theorem State.writePc_x (t : Word) : (s.writePc t).x = s.x := rfl
@[simp] theorem State.writePc_pc (t : Word) : (s.writePc t).pc = t := rfl
@[simp] theorem State.writePc_mem (t : Word) : (s.writePc t).mem = s.mem := rfl
@[simp] theorem State.writePc_runState (t : Word) : (s.writePc t).runState = s.runState := rfl
@[simp] theorem State.writePc_cycle (t : Word) : (s.writePc t).cycle = s.cycle := rfl
@[simp] theorem State.writePc_exitCode (t : Word) : (s.writePc t).exitCode = s.exitCode := rfl
@[simp] theorem State.writePc_fault (t : Word) : (s.writePc t).fault = s.fault := rfl
@[simp] theorem State.writePc_cfg (t : Word) : (s.writePc t).cfg = s.cfg := rfl
@[simp] theorem State.writePc_debugCommands (t : Word) : (s.writePc t).debugCommands = s.debugCommands := rfl
@[simp] theorem State.writePc_bridgeAnswers (t : Word) : (s.writePc t).bridgeAnswers = s.bridgeAnswers := rfl
@[simp] theorem State.writePc_bridgeDraws (t : Word) : (s.writePc t).bridgeDraws = s.bridgeDraws := rfl
@[simp] theorem State.writePc_readReg (t : Word) (r : Reg) : (s.writePc t).readReg r = s.readReg r := rfl
@[simp] theorem State.writePc_byteAt (t : Word) (a : Nat) : (s.writePc t).byteAt a = s.byteAt a := rfl
@[simp] theorem State.writePc_guardFires (t : Word) : (s.writePc t).guardFires = s.guardFires := rfl

/-! ### advancePc -/

@[simp] theorem State.advancePc_x : (s.advancePc).x = s.x := rfl
@[simp] theorem State.advancePc_pc : (s.advancePc).pc = s.pc + 4#32 := rfl
@[simp] theorem State.advancePc_mem : (s.advancePc).mem = s.mem := rfl
@[simp] theorem State.advancePc_runState : (s.advancePc).runState = s.runState := rfl
@[simp] theorem State.advancePc_cycle : (s.advancePc).cycle = s.cycle := rfl
@[simp] theorem State.advancePc_exitCode : (s.advancePc).exitCode = s.exitCode := rfl
@[simp] theorem State.advancePc_fault : (s.advancePc).fault = s.fault := rfl
@[simp] theorem State.advancePc_cfg : (s.advancePc).cfg = s.cfg := rfl
@[simp] theorem State.advancePc_debugCommands : (s.advancePc).debugCommands = s.debugCommands := rfl
@[simp] theorem State.advancePc_bridgeAnswers : (s.advancePc).bridgeAnswers = s.bridgeAnswers := rfl
@[simp] theorem State.advancePc_bridgeDraws : (s.advancePc).bridgeDraws = s.bridgeDraws := rfl
@[simp] theorem State.advancePc_readReg (r : Reg) : (s.advancePc).readReg r = s.readReg r := rfl
@[simp] theorem State.advancePc_byteAt (a : Nat) : (s.advancePc).byteAt a = s.byteAt a := rfl
@[simp] theorem State.advancePc_guardFires : (s.advancePc).guardFires = s.guardFires := rfl

/-! ### countCycle -/

@[simp] theorem State.countCycle_x : (s.countCycle).x = s.x := rfl
@[simp] theorem State.countCycle_pc : (s.countCycle).pc = s.pc := rfl
@[simp] theorem State.countCycle_mem : (s.countCycle).mem = s.mem := rfl
@[simp] theorem State.countCycle_runState : (s.countCycle).runState = s.runState := rfl
@[simp] theorem State.countCycle_cycle : (s.countCycle).cycle = s.cycle + 1 := rfl
@[simp] theorem State.countCycle_exitCode : (s.countCycle).exitCode = s.exitCode := rfl
@[simp] theorem State.countCycle_fault : (s.countCycle).fault = s.fault := rfl
@[simp] theorem State.countCycle_cfg : (s.countCycle).cfg = s.cfg := rfl
@[simp] theorem State.countCycle_debugCommands : (s.countCycle).debugCommands = s.debugCommands := rfl
@[simp] theorem State.countCycle_bridgeAnswers : (s.countCycle).bridgeAnswers = s.bridgeAnswers := rfl
@[simp] theorem State.countCycle_bridgeDraws : (s.countCycle).bridgeDraws = s.bridgeDraws := rfl
@[simp] theorem State.countCycle_readReg (r : Reg) : (s.countCycle).readReg r = s.readReg r := rfl
@[simp] theorem State.countCycle_byteAt (a : Nat) : (s.countCycle).byteAt a = s.byteAt a := rfl
@[simp] theorem State.countCycle_guardFires : (s.countCycle).guardFires = s.guardFires := rfl

/-! ### takeFault -/

@[simp] theorem State.takeFault_x (F : Fault) : (s.takeFault F).x = s.x := rfl
@[simp] theorem State.takeFault_pc (F : Fault) : (s.takeFault F).pc = s.pc := rfl
@[simp] theorem State.takeFault_mem (F : Fault) : (s.takeFault F).mem = s.mem := rfl
@[simp] theorem State.takeFault_runState (F : Fault) : (s.takeFault F).runState = .halted := rfl
@[simp] theorem State.takeFault_cycle (F : Fault) : (s.takeFault F).cycle = s.cycle := rfl
@[simp] theorem State.takeFault_exitCode (F : Fault) : (s.takeFault F).exitCode = s.exitCode := rfl
@[simp] theorem State.takeFault_fault (F : Fault) : (s.takeFault F).fault = some F := rfl
@[simp] theorem State.takeFault_cfg (F : Fault) : (s.takeFault F).cfg = s.cfg := rfl
@[simp] theorem State.takeFault_debugCommands (F : Fault) : (s.takeFault F).debugCommands = s.debugCommands := rfl
@[simp] theorem State.takeFault_bridgeAnswers (F : Fault) : (s.takeFault F).bridgeAnswers = s.bridgeAnswers := rfl
@[simp] theorem State.takeFault_bridgeDraws (F : Fault) : (s.takeFault F).bridgeDraws = s.bridgeDraws := rfl
@[simp] theorem State.takeFault_readReg (F : Fault) (r : Reg) : (s.takeFault F).readReg r = s.readReg r := rfl
@[simp] theorem State.takeFault_byteAt (F : Fault) (a : Nat) : (s.takeFault F).byteAt a = s.byteAt a := rfl
@[simp] theorem State.takeFault_guardFires (F : Fault) : (s.takeFault F).guardFires = s.guardFires := rfl

/-! ### takeDebugTrap -/

@[simp] theorem State.takeDebugTrap_x : (s.takeDebugTrap).x = s.x := rfl
@[simp] theorem State.takeDebugTrap_pc : (s.takeDebugTrap).pc = s.pc := rfl
@[simp] theorem State.takeDebugTrap_mem : (s.takeDebugTrap).mem = s.mem := rfl
@[simp] theorem State.takeDebugTrap_runState : (s.takeDebugTrap).runState = .debugSuspended := rfl
@[simp] theorem State.takeDebugTrap_cycle : (s.takeDebugTrap).cycle = s.cycle := rfl
@[simp] theorem State.takeDebugTrap_exitCode : (s.takeDebugTrap).exitCode = s.exitCode := rfl
@[simp] theorem State.takeDebugTrap_fault : (s.takeDebugTrap).fault = s.fault := rfl
@[simp] theorem State.takeDebugTrap_cfg : (s.takeDebugTrap).cfg = s.cfg := rfl
@[simp] theorem State.takeDebugTrap_debugCommands : (s.takeDebugTrap).debugCommands = s.debugCommands := rfl
@[simp] theorem State.takeDebugTrap_bridgeAnswers : (s.takeDebugTrap).bridgeAnswers = s.bridgeAnswers := rfl
@[simp] theorem State.takeDebugTrap_bridgeDraws : (s.takeDebugTrap).bridgeDraws = s.bridgeDraws := rfl
@[simp] theorem State.takeDebugTrap_readReg (r : Reg) : (s.takeDebugTrap).readReg r = s.readReg r := rfl
@[simp] theorem State.takeDebugTrap_byteAt (a : Nat) : (s.takeDebugTrap).byteAt a = s.byteAt a := rfl
@[simp] theorem State.takeDebugTrap_guardFires : (s.takeDebugTrap).guardFires = s.guardFires := rfl

/-! ### resumeFromDebug -/

@[simp] theorem State.resumeFromDebug_x : (s.resumeFromDebug).x = s.x := rfl
@[simp] theorem State.resumeFromDebug_pc : (s.resumeFromDebug).pc = s.pc := rfl
@[simp] theorem State.resumeFromDebug_mem : (s.resumeFromDebug).mem = s.mem := rfl
@[simp] theorem State.resumeFromDebug_runState : (s.resumeFromDebug).runState = .running := rfl
@[simp] theorem State.resumeFromDebug_cycle : (s.resumeFromDebug).cycle = s.cycle := rfl
@[simp] theorem State.resumeFromDebug_exitCode : (s.resumeFromDebug).exitCode = s.exitCode := rfl
@[simp] theorem State.resumeFromDebug_fault : (s.resumeFromDebug).fault = s.fault := rfl
@[simp] theorem State.resumeFromDebug_cfg : (s.resumeFromDebug).cfg = s.cfg := rfl
@[simp] theorem State.resumeFromDebug_debugCommands : (s.resumeFromDebug).debugCommands = s.debugCommands := rfl
@[simp] theorem State.resumeFromDebug_bridgeAnswers : (s.resumeFromDebug).bridgeAnswers = s.bridgeAnswers := rfl
@[simp] theorem State.resumeFromDebug_bridgeDraws : (s.resumeFromDebug).bridgeDraws = s.bridgeDraws := rfl
@[simp] theorem State.resumeFromDebug_readReg (r : Reg) : (s.resumeFromDebug).readReg r = s.readReg r := rfl
@[simp] theorem State.resumeFromDebug_byteAt (a : Nat) : (s.resumeFromDebug).byteAt a = s.byteAt a := rfl
@[simp] theorem State.resumeFromDebug_guardFires : (s.resumeFromDebug).guardFires = s.guardFires := rfl

/-! ### takeExit -/

@[simp] theorem State.takeExit_x (code : Word) : (s.takeExit code).x = s.x := rfl
@[simp] theorem State.takeExit_pc (code : Word) : (s.takeExit code).pc = s.pc := rfl
@[simp] theorem State.takeExit_mem (code : Word) : (s.takeExit code).mem = s.mem := rfl
@[simp] theorem State.takeExit_runState (code : Word) : (s.takeExit code).runState = .halted := rfl
@[simp] theorem State.takeExit_cycle (code : Word) : (s.takeExit code).cycle = s.cycle := rfl
@[simp] theorem State.takeExit_exitCode (code : Word) : (s.takeExit code).exitCode = code := rfl
@[simp] theorem State.takeExit_fault (code : Word) : (s.takeExit code).fault = s.fault := rfl
@[simp] theorem State.takeExit_cfg (code : Word) : (s.takeExit code).cfg = s.cfg := rfl
@[simp] theorem State.takeExit_debugCommands (code : Word) : (s.takeExit code).debugCommands = s.debugCommands := rfl
@[simp] theorem State.takeExit_bridgeAnswers (code : Word) : (s.takeExit code).bridgeAnswers = s.bridgeAnswers := rfl
@[simp] theorem State.takeExit_bridgeDraws (code : Word) : (s.takeExit code).bridgeDraws = s.bridgeDraws := rfl
@[simp] theorem State.takeExit_readReg (code : Word) (r : Reg) : (s.takeExit code).readReg r = s.readReg r := rfl
@[simp] theorem State.takeExit_byteAt (code : Word) (a : Nat) : (s.takeExit code).byteAt a = s.byteAt a := rfl
@[simp] theorem State.takeExit_guardFires (code : Word) : (s.takeExit code).guardFires = s.guardFires := rfl

/-! ### writeReg: every field but the registers -/

@[simp] theorem State.writeReg_pc (r : Reg) (v : Word) : (s.writeReg r v).pc = s.pc := by
  unfold State.writeReg; split <;> rfl
@[simp] theorem State.writeReg_mem (r : Reg) (v : Word) : (s.writeReg r v).mem = s.mem := by
  unfold State.writeReg; split <;> rfl
@[simp] theorem State.writeReg_runState (r : Reg) (v : Word) : (s.writeReg r v).runState = s.runState := by
  unfold State.writeReg; split <;> rfl
@[simp] theorem State.writeReg_cycle (r : Reg) (v : Word) : (s.writeReg r v).cycle = s.cycle := by
  unfold State.writeReg; split <;> rfl
@[simp] theorem State.writeReg_exitCode (r : Reg) (v : Word) : (s.writeReg r v).exitCode = s.exitCode := by
  unfold State.writeReg; split <;> rfl
@[simp] theorem State.writeReg_fault (r : Reg) (v : Word) : (s.writeReg r v).fault = s.fault := by
  unfold State.writeReg; split <;> rfl
@[simp] theorem State.writeReg_cfg (r : Reg) (v : Word) : (s.writeReg r v).cfg = s.cfg := by
  unfold State.writeReg; split <;> rfl
@[simp] theorem State.writeReg_debugCommands (r : Reg) (v : Word) : (s.writeReg r v).debugCommands = s.debugCommands := by
  unfold State.writeReg; split <;> rfl
@[simp] theorem State.writeReg_bridgeAnswers (r : Reg) (v : Word) : (s.writeReg r v).bridgeAnswers = s.bridgeAnswers := by
  unfold State.writeReg; split <;> rfl
@[simp] theorem State.writeReg_bridgeDraws (r : Reg) (v : Word) : (s.writeReg r v).bridgeDraws = s.bridgeDraws := by
  unfold State.writeReg; split <;> rfl
@[simp] theorem State.writeReg_byteAt (r : Reg) (v : Word) (a : Nat) : (s.writeReg r v).byteAt a = s.byteAt a := by
  unfold State.writeReg; split <;> rfl

/-! ### useAnswer: every field but the answers and the draws -/

@[simp] theorem State.useAnswer_x : s.useAnswer.x = s.x := by
  unfold State.useAnswer; split <;> rfl
@[simp] theorem State.useAnswer_pc : s.useAnswer.pc = s.pc := by
  unfold State.useAnswer; split <;> rfl
@[simp] theorem State.useAnswer_mem : s.useAnswer.mem = s.mem := by
  unfold State.useAnswer; split <;> rfl
@[simp] theorem State.useAnswer_runState : s.useAnswer.runState = s.runState := by
  unfold State.useAnswer; split <;> rfl
@[simp] theorem State.useAnswer_cycle : s.useAnswer.cycle = s.cycle := by
  unfold State.useAnswer; split <;> rfl
@[simp] theorem State.useAnswer_exitCode : s.useAnswer.exitCode = s.exitCode := by
  unfold State.useAnswer; split <;> rfl
@[simp] theorem State.useAnswer_fault : s.useAnswer.fault = s.fault := by
  unfold State.useAnswer; split <;> rfl
@[simp] theorem State.useAnswer_cfg : s.useAnswer.cfg = s.cfg := by
  unfold State.useAnswer; split <;> rfl
@[simp] theorem State.useAnswer_debugCommands : s.useAnswer.debugCommands = s.debugCommands := by
  unfold State.useAnswer; split <;> rfl
@[simp] theorem State.useAnswer_readReg (r : Reg) : s.useAnswer.readReg r = s.readReg r := by
  unfold State.useAnswer; split <;> rfl
@[simp] theorem State.useAnswer_byteAt (a : Nat) : s.useAnswer.byteAt a = s.byteAt a := by
  unfold State.useAnswer; split <;> rfl

/-! ### The registers (R12, R13) -/

/-- x0 reads 0 always (R12). -/
@[simp] theorem State.readReg_zero : s.readReg 0 = 0#32 := rfl

/-- A write to x0 is discarded (R13). -/
@[simp] theorem State.writeReg_zero (v : Word) : s.writeReg 0 v = s := rfl

/-- What a register reads as after a write (R13). -/
theorem State.readReg_writeReg (r q : Reg) (v : Word) :
    (s.writeReg r v).readReg q = if q = r then (if r = 0 then 0#32 else v) else s.readReg q := by
  by_cases hr : r = 0
  · subst hr; by_cases hq : q = 0 <;> simp [hq]
  · by_cases hq : q = r
    · subst hq; simp [State.writeReg, State.readReg, hr]
    · have hne : r.val ≠ q.val := fun h => hq (Fin.ext h.symm)
      simp [State.writeReg, State.readReg, hr, hq, hne]

@[simp] theorem State.readReg_writeReg_same (r : Reg) (v : Word) :
    (s.writeReg r v).readReg r = if r = 0 then 0#32 else v := by
  simp [State.readReg_writeReg]

theorem State.readReg_writeReg_other (r q : Reg) (v : Word) (h : q ≠ r) :
    (s.writeReg r v).readReg q = s.readReg q := by
  simp [State.readReg_writeReg, h]

/-- The unread slot of x0 is never written. -/
@[simp] theorem State.writeReg_slotZero (r : Reg) (v : Word) : (s.writeReg r v).x[0] = s.x[0] := by
  by_cases hr : r = 0
  · subst hr; rfl
  · have hne : r.val ≠ 0 := fun e => hr (Fin.ext e)
    simp [State.writeReg, hr, hne]

end Sys2Proof.Machine
end

