-- ==== Sys2Proof/Laws/Ops.lean ====
section
/-! SUPPORT. What each shared operation can do, said once: the address decoder, the access primitives, and the Bridge's
accesses. Provers cite these instead of unfolding the operations. -/

namespace Sys2Proof.Machine

variable (s t : State) (addr v : Word) (width : Width)

/-! ### The address decoder -/

theorem sectionHolds_iff (S : MemSection) (a n : Nat) :
    sectionHolds S a n = true ↔ S.base ≤ a ∧ a + n ≤ S.base + S.size := by
  simp [sectionHolds]

/-- The section `resolve` gives is in the map and holds the range. -/
theorem resolve_some {map : List MemSection} {a n : Nat} {S : MemSection} (h : resolve map a n = some S) :
    S ∈ map ∧ S.base ≤ a ∧ a + n ≤ S.base + S.size :=
  ⟨List.mem_of_find?_eq_some h, (sectionHolds_iff S a n).mp (by simpa using List.find?_some h)⟩

/-- `resolve` gives none exactly when no section holds the whole range. -/
theorem resolve_none_iff {map : List MemSection} {a n : Nat} :
    resolve map a n = none ↔ ∀ S ∈ map, ¬(S.base ≤ a ∧ a + n ≤ S.base + S.size) := by
  simp only [resolve, List.find?_eq_none, sectionHolds_iff]

/-- A range some section holds resolves. -/
theorem resolve_isSome {map : List MemSection} {a n : Nat} {S : MemSection} (hS : S ∈ map) (h1 : S.base ≤ a)
    (h2 : a + n ≤ S.base + S.size) : ∃ T, resolve map a n = some T := by
  cases h : resolve map a n with
  | some T => exact ⟨T, rfl⟩
  | none => exact absurd ⟨h1, h2⟩ (resolve_none_iff.mp h S hS)

theorem mapped_iff (map : List MemSection) (a : Nat) :
    mapped map a = true ↔ ∃ S ∈ map, S.base ≤ a ∧ a < S.base + S.size := by
  simp [mapped, sectionHolds_iff]

/-! ### MemRead and MemWrite -/

/-- A read that succeeds gives the bytes of a mapped range. -/
theorem State.memRead_ok {s : State} {addr v : Word} {width : Width} (h : s.memRead addr width = .ok v) :
    (∃ S, resolve s.cfg.map addr.toNat width.bytes = some S)
      ∧ v = wordOfBytes (Memory.getBytes s.mem addr.toNat width.bytes) := by
  unfold State.memRead at h
  cases hr : resolve s.cfg.map addr.toNat width.bytes with
  | none => rw [hr] at h; cases h
  | some S => rw [hr] at h; cases h; exact ⟨⟨S, rfl⟩, rfl⟩

/-- A read that fails is of an unmapped range. -/
theorem State.memRead_error {s : State} {addr : Word} {width : Width} {F : Fault}
    (h : s.memRead addr width = .error F) :
    resolve s.cfg.map addr.toNat width.bytes = none ∧ F = .memoryAccess addr width .read .unmapped := by
  unfold State.memRead at h
  cases hr : resolve s.cfg.map addr.toNat width.bytes with
  | none => rw [hr] at h; cases h; exact ⟨rfl, rfl⟩
  | some S => rw [hr] at h; cases h

/-- A write that succeeds is to a section that may be written, and changes only the bytes of memory. -/
theorem State.memWrite_ok {s t : State} {addr v : Word} {width : Width} (h : s.memWrite addr width v = .ok t) :
    ∃ S, resolve s.cfg.map addr.toNat width.bytes = some S ∧ S.readOnly = false
      ∧ t = { s with mem := Memory.setBytes s.mem addr.toNat (bytesOfWord width.bytes v) } := by
  unfold State.memWrite at h
  cases hr : resolve s.cfg.map addr.toNat width.bytes with
  | none => rw [hr] at h; cases h
  | some S =>
    rw [hr] at h
    cases hro : S.readOnly with
    | true => simp [hro] at h
    | false => simp only [hro, Bool.false_eq_true, if_false] at h; cases h; exact ⟨S, rfl, hro, rfl⟩

/-- A write that fails is to an unmapped range, or to a read-only section. -/
theorem State.memWrite_error {s : State} {addr v : Word} {width : Width} {F : Fault}
    (h : s.memWrite addr width v = .error F) :
    (resolve s.cfg.map addr.toNat width.bytes = none ∧ F = .memoryAccess addr width .write .unmapped)
    ∨ (∃ S, resolve s.cfg.map addr.toNat width.bytes = some S ∧ S.readOnly = true
        ∧ F = .memoryAccess addr width .write .readOnly) := by
  unfold State.memWrite at h
  cases hr : resolve s.cfg.map addr.toNat width.bytes with
  | none => rw [hr] at h; cases h; exact .inl ⟨rfl, rfl⟩
  | some S =>
    rw [hr] at h
    cases hro : S.readOnly with
    | true => simp only [hro, if_true] at h; cases h; exact .inr ⟨S, rfl, hro, rfl⟩
    | false => simp [hro] at h

/-- What any byte reads as after a write that succeeds: the value's byte inside the range, the old byte outside. -/
theorem State.byteAt_memWrite {s t : State} {addr v : Word} {width : Width} (h : s.memWrite addr width v = .ok t)
    (a : Nat) :
    (∀ k, k < width.bytes → a = addr.toNat + k → t.byteAt a = (bytesOfWord width.bytes v)[k]?.getD 0#8)
    ∧ (a < addr.toNat ∨ addr.toNat + width.bytes ≤ a → t.byteAt a = s.byteAt a) := by
  obtain ⟨S, -, -, rfl⟩ := State.memWrite_ok h
  refine ⟨?_, fun ha => ?_⟩
  · rintro k hk rfl
    have hk' : k < (bytesOfWord width.bytes v).length := by simpa using hk
    have := Memory.get_setBytes_inside (bytesOfWord width.bytes v) s.mem addr.toNat k hk'
    simp only [State.byteAt, this, List.getElem?_eq_getElem hk', Option.getD_some]
  · exact Memory.get_setBytes_other _ _ _ _ (by simpa using ha)

/-- Two sections of a well-formed map that hold one address are the same section (R44 a). -/
theorem sections_agree {map : List MemSection} (hp : map.Pairwise sectionsApart) {S T : MemSection} (hS : S ∈ map)
    (hT : T ∈ map) {a : Nat} (h1 : S.base ≤ a ∧ a < S.base + S.size) (h2 : T.base ≤ a ∧ a < T.base + T.size) : S = T := by
  induction map with
  | nil => cases hS
  | cons A map ih =>
    obtain ⟨hA, hp⟩ := List.pairwise_cons.mp hp
    rcases List.mem_cons.mp hS with rfl | hS' <;> rcases List.mem_cons.mp hT with rfl | hT'
    · rfl
    · have := hA T hT'; simp only [sectionsApart] at this; omega
    · have := hA S hS'; simp only [sectionsApart] at this; omega
    · exact ih hp hS' hT'

theorem Width.bytes_pos (w : Width) : 1 ≤ w.bytes := by cases w <;> decide

/-- A write that succeeds changes no byte of a read-only section, when the map is well-formed. -/
theorem State.memWrite_readOnly {s t : State} {addr v : Word} {width : Width} (hp : s.cfg.map.Pairwise sectionsApart)
    (h : s.memWrite addr width v = .ok t) {S : MemSection} (hS : S ∈ s.cfg.map) (hro : S.readOnly = true) {a : Nat}
    (h1 : S.base ≤ a) (h2 : a < S.base + S.size) : t.byteAt a = s.byteAt a := by
  obtain ⟨T, hT, hTro, -⟩ := State.memWrite_ok h
  obtain ⟨hTm, hT1, hT2⟩ := resolve_some hT
  by_cases hin : addr.toNat ≤ a ∧ a < addr.toNat + width.bytes
  · have := sections_agree hp hS hTm ⟨h1, h2⟩ ⟨by omega, by omega⟩
    subst this; rw [hro] at hTro; cases hTro
  · exact (State.byteAt_memWrite h a).2 (by omega)

/-- A write that succeeds keeps the canonical form. -/
theorem State.memWrite_wf {s t : State} {addr v : Word} {width : Width} (h : s.memWrite addr width v = .ok t)
    (hw : Memory.wf s.mem) : Memory.wf t.mem := by
  obtain ⟨S, -, -, rfl⟩ := State.memWrite_ok h
  exact Memory.wf_setBytes _ _ _ hw

/-- A write that succeeds lists no address outside the placed sections. -/
theorem State.memWrite_held {s t : State} {addr v : Word} {width : Width} (h : s.memWrite addr width v = .ok t)
    (hh : ∀ c ∈ s.mem, mapped s.cfg.map c.1 = true) : ∀ c ∈ t.mem, mapped t.cfg.map c.1 = true := by
  obtain ⟨S, hS, -, rfl⟩ := State.memWrite_ok h
  obtain ⟨hm, h1, h2⟩ := resolve_some hS
  intro c hc
  rcases Memory.mem_setBytes _ _ _ _ hc with hin | hold
  · rw [length_bytesOfWord] at hin
    exact (mapped_iff _ _).mpr ⟨S, hm, by omega, by omega⟩
  · exact hh c hold

/-! ### Fetch -/

theorem aligned4_iff (a : Word) : aligned4 a = true ↔ a.toNat % 4 = 0 := by
  simp only [aligned4, beq_iff_eq, ← BitVec.toNat_inj, BitVec.extractLsb'_toNat, BitVec.toNat_ofNat]
  simp

/-- A fetch that succeeds is of an aligned word inside a code section. -/
theorem State.fetch_ok {s : State} {addr w : Word} (h : s.fetch addr = .ok w) :
    addr.toNat % 4 = 0 ∧ (∃ S, resolve s.cfg.map addr.toNat 4 = some S ∧ S.exec = true)
      ∧ w = wordOfBytes (Memory.getBytes s.mem addr.toNat 4) := by
  unfold State.fetch at h
  cases ha : aligned4 addr with
  | false => simp [ha] at h
  | true =>
    simp only [ha, if_true] at h
    cases hr : resolve s.cfg.map addr.toNat 4 with
    | none => rw [hr] at h; cases h
    | some S =>
      rw [hr] at h
      cases hx : S.exec with
      | false => simp [hx] at h
      | true => simp only [hx, if_true] at h; cases h; exact ⟨(aligned4_iff _).mp ha, ⟨S, rfl, hx⟩, rfl⟩

/-- A fetch that fails is a word fetch, for the first of the three reasons that holds. -/
theorem State.fetch_error {s : State} {addr : Word} {F : Fault} (h : s.fetch addr = .error F) :
    (addr.toNat % 4 ≠ 0 ∧ F = .memoryAccess addr .word .fetch .misaligned)
    ∨ (addr.toNat % 4 = 0 ∧ resolve s.cfg.map addr.toNat 4 = none ∧ F = .memoryAccess addr .word .fetch .unmapped)
    ∨ (addr.toNat % 4 = 0 ∧ (∃ S, resolve s.cfg.map addr.toNat 4 = some S ∧ S.exec = false)
        ∧ F = .memoryAccess addr .word .fetch .notExecutable) := by
  unfold State.fetch at h
  cases ha : aligned4 addr with
  | false =>
    simp only [ha, Bool.false_eq_true, if_false] at h; cases h
    exact .inl ⟨fun e => absurd ((aligned4_iff _).mpr e) (by simp [ha]), rfl⟩
  | true =>
    have ha' := (aligned4_iff _).mp ha
    simp only [ha, if_true] at h
    cases hr : resolve s.cfg.map addr.toNat 4 with
    | none => rw [hr] at h; cases h; exact .inr (.inl ⟨ha', rfl, rfl⟩)
    | some S =>
      rw [hr] at h
      cases hx : S.exec with
      | true => simp [hx] at h
      | false => simp only [hx, Bool.false_eq_true, if_false] at h; cases h; exact .inr (.inr ⟨ha', ⟨S, rfl, hx⟩, rfl⟩)

/-- The counter has no part in a fetch. -/
@[simp] theorem State.countCycle_fetch (addr : Word) : s.countCycle.fetch addr = s.fetch addr := rfl

/-! ### The Bridge's accesses -/

/-- What a list of the Bridge's accesses can do, for any property of states that a register write and a write that
succeeds keep: it ends in a state with the property, or in one whose last act is a MemoryAccess fault taken. -/
theorem State.bridgeActs_keeps (P : State → Prop) (hreg : ∀ s r v, P s → P (s.writeReg r v))
    (hmem : ∀ s t addr width v, State.memWrite s addr width v = .ok t → P s → P t) (acts : List BridgeAct) :
    ∀ s, P s → P (State.bridgeActs acts s)
      ∨ ∃ u addr width kind reason, P u ∧ State.bridgeActs acts s = u.takeFault (.memoryAccess addr width kind reason) := by
  induction acts with
  | nil => intro s hs; exact .inl hs
  | cons act acts ih =>
    intro s hs
    cases act with
    | setReg r v => exact ih _ (hreg s r v hs)
    | load addr width =>
      simp only [State.bridgeActs]
      cases hr : s.memRead addr width with
      | ok v => exact ih s hs
      | error F => exact .inr ⟨s, addr, width, _, _, hs, by rw [(State.memRead_error hr).2]⟩
    | store addr width v =>
      simp only [State.bridgeActs]
      cases hr : s.memWrite addr width v with
      | ok t => exact ih t (hmem s t addr width v hr hs)
      | error F =>
        rcases State.memWrite_error hr with ⟨-, hF⟩ | ⟨S, -, -, hF⟩ <;>
          exact .inr ⟨s, addr, width, _, _, hs, by rw [hF]⟩

/-- What the Bridge's accesses leave alone, whatever they are (R262). -/
theorem State.bridgeActs_frame (acts : List BridgeAct) :
    (State.bridgeActs acts s).pc = s.pc ∧ (State.bridgeActs acts s).cycle = s.cycle
      ∧ (State.bridgeActs acts s).exitCode = s.exitCode ∧ (State.bridgeActs acts s).cfg = s.cfg
      ∧ (State.bridgeActs acts s).debugCommands = s.debugCommands
      ∧ (State.bridgeActs acts s).bridgeAnswers = s.bridgeAnswers
      ∧ (State.bridgeActs acts s).bridgeDraws = s.bridgeDraws ∧ (State.bridgeActs acts s).x[0] = s.x[0] := by
  have h := State.bridgeActs_keeps (fun u => u.pc = s.pc ∧ u.cycle = s.cycle ∧ u.exitCode = s.exitCode ∧ u.cfg = s.cfg
      ∧ u.debugCommands = s.debugCommands ∧ u.bridgeAnswers = s.bridgeAnswers ∧ u.bridgeDraws = s.bridgeDraws
      ∧ u.x[0] = s.x[0]) (fun u r v hu => by simpa using hu)
    (fun u t addr width v hw hu => by obtain ⟨S, -, -, rfl⟩ := State.memWrite_ok hw; exact hu) acts s (by simp)
  rcases h with h | ⟨u, addr, width, kind, reason, hu, hb⟩
  · exact h
  · rw [hb]; exact hu

end Sys2Proof.Machine
end

