-- ==== Sys2Proof/Laws/Exec.lean ====
section
/-! SUPPORT. What a handler, a step of the engine and a transition of the machine can do, said once. An invariant or a frame
is proved from these by cases, not by unfolding the handlers. -/

namespace Sys2Proof.Machine

/-! ### One handler -/

/-- EVERYTHING A HANDLER CAN DO when it answers a next state: write one register; write pc; write a register and pc;
write memory; take a MemoryAccess fault of a read or a write; or be one of the two system instructions. -/
theorem exec_cases {i : Instr} {s t : State} (h : exec i s = .next t) :
    (∃ rd v, t = s.writeReg rd v)
    ∨ (∃ rd v target, t = (s.writeReg rd v).writePc target)
    ∨ (∃ addr width v, s.memWrite addr width v = .ok t)
    ∨ (∃ addr width kind reason, kind ≠ .fetch ∧ t = s.takeFault (.memoryAccess addr width kind reason))
    ∨ (i = .ecall ∧ s.cfg.bridge = .host
        ∧ t = s.useAnswer.applyAnswer (s.hostAnswer (s.readReg sysNumReg) (s.readReg sysArgReg)))
    ∨ (i = .ecall ∧ s.cfg.bridge = .reference ∧ s.readReg sysNumReg = 93#32 ∧ t = s.takeExit (s.readReg sysArgReg))
    ∨ (i = .ebreak ∧ t = s.takeDebugTrap) := by
  have result : ∀ {rd v}, giveResult rd v s = .next t → ∃ rd v, t = s.writeReg rd v := fun h => by
    cases h; exact ⟨_, _, rfl⟩
  have load : ∀ {rd ea width ext}, loadInto rd ea width ext s = .next t → (∃ rd v, t = s.writeReg rd v)
      ∨ ∃ addr width kind reason, kind ≠ AccessKind.fetch ∧ t = s.takeFault (.memoryAccess addr width kind reason) :=
    fun {rd ea width ext} h => by
      unfold loadInto at h
      cases hr : s.memRead ea width with
      | ok v => rw [hr] at h; cases h; exact .inl ⟨_, _, rfl⟩
      | error F =>
        rw [hr] at h; cases h
        exact .inr ⟨ea, width, .read, .unmapped, by decide, by rw [(State.memRead_error hr).2]⟩
  have store : ∀ {v ea width}, storeFrom v ea width s = .next t → (∃ addr width v, s.memWrite addr width v = .ok t)
      ∨ ∃ addr width kind reason, kind ≠ AccessKind.fetch ∧ t = s.takeFault (.memoryAccess addr width kind reason) :=
    fun {v ea width} h => by
      unfold storeFrom at h
      cases hr : s.memWrite ea width v with
      | ok u => rw [hr] at h; cases h; exact .inl ⟨_, _, _, hr⟩
      | error F =>
        rw [hr] at h; cases h
        rcases State.memWrite_error hr with ⟨-, hF⟩ | ⟨S, -, -, hF⟩
        · exact .inr ⟨ea, width, .write, .unmapped, by decide, by rw [hF]⟩
        · exact .inr ⟨ea, width, .write, .readOnly, by decide, by rw [hF]⟩
  have branch : ∀ {c target}, branchIf c target s = .next t → (∃ rd v, t = s.writeReg rd v)
      ∨ ∃ rd v target, t = (s.writeReg rd v).writePc target := fun {c target} h => by
    cases c with
    | true => cases h; exact .inr ⟨0, 0#32, _, rfl⟩
    | false => cases h; exact .inl ⟨0, 0#32, rfl⟩
  have jump : ∀ {rd target}, jumpAndLink rd target s = .next t → ∃ rd v target, t = (s.writeReg rd v).writePc target :=
    fun h => by cases h; exact ⟨_, _, _, rfl⟩
  cases i with
  | lui | auipc | addi | slti | sltiu | xori | ori | andi | slli | srli | srai | add | sub | sll | slt | sltu | xor
  | srl | sra | or | and => exact .inl (result h)
  | jal | jalr => exact .inr (.inl (jump h))
  | beq | bne | blt | bge | bltu | bgeu => exact (branch h).elim .inl (.inr ∘ .inl)
  | lb | lh | lbu | lhu => exact (load h).elim .inl (.inr ∘ .inr ∘ .inr ∘ .inl)
  | lw =>
    simp only [exec, execLw] at h
    split at h
    · exact (load h).elim .inl (.inr ∘ .inr ∘ .inr ∘ .inl)
    · cases h; exact .inr (.inr (.inr (.inl ⟨_, _, _, _, by decide, rfl⟩)))
  | sb | sh => exact (store h).elim (.inr ∘ .inr ∘ .inl) (.inr ∘ .inr ∘ .inr ∘ .inl)
  | sw =>
    simp only [exec, execSw] at h
    split at h
    · exact (store h).elim (.inr ∘ .inr ∘ .inl) (.inr ∘ .inr ∘ .inr ∘ .inl)
    · cases h; exact .inr (.inr (.inr (.inl ⟨_, _, _, _, by decide, rfl⟩)))
  | ecall =>
    simp only [exec, execEcall] at h
    cases hb : s.cfg.bridge with
    | host => rw [hb] at h; cases h; exact .inr (.inr (.inr (.inr (.inl ⟨rfl, rfl, rfl⟩))))
    | reference =>
      rw [hb] at h
      by_cases hn : s.readReg sysNumReg = 93#32
      · simp only [referenceBridge, hn, if_true] at h
        cases h; exact .inr (.inr (.inr (.inr (.inr (.inl ⟨rfl, rfl, hn, rfl⟩)))))
      · simp [referenceBridge, hn] at h
  | ebreak => cases h; exact .inr (.inr (.inr (.inr (.inr (.inr ⟨rfl, rfl⟩)))))

/-- A handler never stops with a host fault: every fault is taken in the state (R127). -/
theorem exec_no_fault (i : Instr) (s : State) (F : Fault) : exec i s ≠ .fault F := by
  have load : ∀ {rd ea width ext}, loadInto rd ea width ext s ≠ .fault F := fun {_ _ _ _} h => by
    unfold loadInto at h; split at h <;> cases h
  have store : ∀ {v ea width}, storeFrom v ea width s ≠ .fault F := fun {_ _ _} h => by
    unfold storeFrom at h; split at h <;> cases h
  cases i with
  | lb | lh | lbu | lhu => exact load
  | sb | sh => exact store
  | lw => simp only [exec, execLw]; split; exacts [load, by simp]
  | sw => simp only [exec, execSw]; split; exacts [store, by simp]
  | ecall =>
    simp only [exec, execEcall]
    cases s.cfg.bridge with
    | host => simp
    | reference => simp only; split <;> simp
  | _ => intro h; cases h

/-- The only handler that refuses is `ecall`'s, under the reference Bridge, for a number other than 93 (R264). -/
theorem exec_refused {i : Instr} {s : State} {r : Refusal} (h : exec i s = .refused r) :
    i = .ecall ∧ s.cfg.bridge = .reference ∧ s.readReg sysNumReg ≠ 93#32
      ∧ r = .syscallUndefined (s.readReg sysNumReg) := by
  have load : ∀ {rd ea width ext}, loadInto rd ea width ext s ≠ .refused r := fun {_ _ _ _} h => by
    unfold loadInto at h; split at h <;> cases h
  have store : ∀ {v ea width}, storeFrom v ea width s ≠ .refused r := fun {_ _ _} h => by
    unfold storeFrom at h; split at h <;> cases h
  cases i with
  | lb | lh | lbu | lhu => exact absurd h load
  | sb | sh => exact absurd h store
  | lw => simp only [exec, execLw] at h; split at h; exacts [absurd h load, by cases h]
  | sw => simp only [exec, execSw] at h; split at h; exacts [absurd h store, by cases h]
  | ecall =>
    simp only [exec, execEcall] at h
    cases hb : s.cfg.bridge with
    | host => rw [hb] at h; cases h
    | reference =>
      rw [hb] at h
      by_cases hn : s.readReg sysNumReg = 93#32
      · simp [referenceBridge, hn] at h
      · simp only [referenceBridge, hn, if_false] at h
        cases h; exact ⟨rfl, rfl, hn, rfl⟩
  | _ => cases h

/-! ### One step of the engine -/

/-- EVERYTHING THE GUARD CAN DO: take its fault before the cycle is counted, or let the step through with it counted. -/
theorem guarded_cases (rest : State → Host.Outcome State Fault Refusal) (s : State) :
    (s.guardFires = true ∧ guarded rest s = .next (s.takeFault (.stackOverflow (s.readReg stackPointer))))
    ∨ (s.guardFires = false ∧ guarded rest s = rest s.countCycle) := by
  unfold guarded
  cases s.guardFires with
  | true => exact .inl ⟨rfl, rfl⟩
  | false => exact .inr ⟨rfl, rfl⟩

/-- EVERYTHING AN ENGINE HANDED ITS INSTRUCTION CAN ANSWER: the guard's fault, Parse, or what the handler answers. -/
theorem abstractEngineStep_cases (a : AbstractInstr) (s : State) :
    (s.guardFires = true ∧ abstractEngineStep a s = .next (s.takeFault (.stackOverflow (s.readReg stackPointer))))
    ∨ (s.guardFires = false ∧ parseAbstract s.pc a = none
        ∧ abstractEngineStep a s = .next (s.countCycle.advancePc.takeFault .parse))
    ∨ (∃ i, s.guardFires = false ∧ parseAbstract s.pc a = some i
        ∧ abstractEngineStep a s = exec i s.countCycle.advancePc) := by
  unfold abstractEngineStep
  rcases guarded_cases (execAbstract a) s with h | ⟨hg, he⟩
  · exact .inl h
  · rw [he, execAbstract, State.countCycle_pc]
    cases hp : parseAbstract s.pc a with
    | none => exact .inr (.inl ⟨hg, rfl, rfl⟩)
    | some i => exact .inr (.inr ⟨i, hg, rfl, rfl⟩)

/-- EVERYTHING A STEP OF THE ENGINE CAN ANSWER: the guard's fault, a fetch's fault, an unknown word's fault, or what the
handler of the word at pc answers. -/
theorem engineStep_cases (s : State) :
    (s.guardFires = true ∧ engineStep s = .next (s.takeFault (.stackOverflow (s.readReg stackPointer))))
    ∨ (∃ F, s.guardFires = false ∧ s.fetch s.pc = .error F ∧ engineStep s = .next (s.countCycle.takeFault F))
    ∨ (∃ w, s.guardFires = false ∧ s.fetch s.pc = .ok w ∧ decodeWord w = .error (.unknown w)
        ∧ engineStep s = .next (s.countCycle.advancePc.takeFault (.unimplemented w)))
    ∨ (∃ w i, s.guardFires = false ∧ s.fetch s.pc = .ok w ∧ decodeWord w = .ok i
        ∧ engineStep s = exec i s.countCycle.advancePc) := by
  unfold engineStep
  rcases guarded_cases fetchAndRun s with h | ⟨hg, he⟩
  · exact .inl h
  · rw [he, fetchAndRun, State.countCycle_fetch, State.countCycle_pc]
    cases hf : s.fetch s.pc with
    | error F => exact .inr (.inl ⟨F, hg, rfl, rfl⟩)
    | ok w =>
      cases hd : decodeWord w with
      | ok i => exact .inr (.inr (.inr ⟨w, i, hg, rfl, hd, by simp [hd]⟩))
      | error e =>
        have hu : decodeWord w = .error (.unknown w) := by
          unfold decodeWord at hd ⊢
          split at hd
          · cases hd
          · rfl
        exact .inr (.inr (.inl ⟨w, hg, rfl, hu, by simp [hd]⟩))

/-! ### One transition of the machine -/

/-- EVERYTHING A TRANSITION CAN DO when it answers a next state: nothing (halted, or suspended with no command), resume,
or a step of the engine, in which a debugger's command may have been used up. -/
theorem transition_cases {engine : State → Host.Outcome State Fault Refusal} {s t : State}
    (h : transition engine s = .next t) :
    configWf s.cfg ∧
    ((s.runState = .halted ∧ t = s)
    ∨ (s.runState = .running ∧ engine s = .next t)
    ∨ (s.runState = .debugSuspended ∧ s.debugCommands = [] ∧ t = s)
    ∨ (∃ rest, s.runState = .debugSuspended ∧ s.debugCommands = .dbgStep :: rest
        ∧ engine { s with debugCommands := rest } = .next t)
    ∨ (∃ rest, s.runState = .debugSuspended ∧ s.debugCommands = .dbgResume :: rest
        ∧ t = ({ s with debugCommands := rest }).resumeFromDebug)) := by
  unfold transition at h
  by_cases hc : configWf s.cfg
  · refine ⟨hc, ?_⟩
    rw [if_pos hc] at h
    cases hr : s.runState with
    | halted => rw [hr] at h; cases h; exact .inl ⟨rfl, rfl⟩
    | running => rw [hr] at h; exact .inr (.inl ⟨rfl, h⟩)
    | debugSuspended =>
      rw [hr] at h
      cases hd : s.debugCommands with
      | nil => rw [hd] at h; cases h; exact .inr (.inr (.inl ⟨rfl, rfl, rfl⟩))
      | cons c rest =>
        rw [hd] at h
        cases c with
        | dbgStep => exact .inr (.inr (.inr (.inl ⟨rest, rfl, rfl, h⟩)))
        | dbgResume => cases h; exact .inr (.inr (.inr (.inr ⟨rest, rfl, rfl, rfl⟩)))
  · rw [if_neg hc] at h; cases h

/-- The same of the step that fetches. -/
theorem step_cases {s t : State} (h : step s = .next t) :
    configWf s.cfg ∧
    ((s.runState = .halted ∧ t = s)
    ∨ (s.runState = .running ∧ engineStep s = .next t)
    ∨ (s.runState = .debugSuspended ∧ s.debugCommands = [] ∧ t = s)
    ∨ (∃ rest, s.runState = .debugSuspended ∧ s.debugCommands = .dbgStep :: rest
        ∧ engineStep { s with debugCommands := rest } = .next t)
    ∨ (∃ rest, s.runState = .debugSuspended ∧ s.debugCommands = .dbgResume :: rest
        ∧ t = ({ s with debugCommands := rest }).resumeFromDebug)) :=
  transition_cases h

end Sys2Proof.Machine
end

