-- ==== Sys2Proof/Laws/Frame.lean ====
section
/-! SUPPORT. The frames of Safety.lean, shown once for each shared operation, and the memory of the state after reset. -/

namespace Sys2Proof.Machine

variable (s : State)

/-! ### Control transfer and register writes -/

/-- A register write gives a register its value and leaves all else but pc alone (R13). -/
theorem registerResult_writeReg (rd : Reg) (v : Word) : registerResult s (s.writeReg rd v) rd v :=
  ⟨State.readReg_writeReg_same s rd v, fun r hr => State.readReg_writeReg_other s rd r v hr, fun a => by simp,
    by simp [sameControl]⟩

/-- So does a register write with a jump (R230). -/
theorem registerResult_writeReg_writePc (rd : Reg) (v target : Word) :
    registerResult s ((s.writeReg rd v).writePc target) rd v :=
  ⟨by simp, fun r hr => by simp [State.readReg_writeReg_other s rd r v hr], fun a => by simp, by simp [sameControl]⟩

/-! ### Faults (R127, R291) -/

/-- Taking a fault records it, halts the engine and changes nothing else. -/
theorem faultTaken_takeFault (F : Fault) : faultTaken s (s.takeFault F) F := by
  simp [faultTaken, sameRegs, sameMemory]

/-! ### Stores (R51) -/

/-- Byte `k` of the bytes of a Word. -/
theorem bytesOfWord_getD (n : Nat) (v : Word) (k : Nat) (h : k < n) :
    (bytesOfWord n v)[k]?.getD 0#8 = v.extractLsb' (8 * k) 8 := by
  induction n generalizing v k with
  | zero => omega
  | succ n ih =>
    cases k with
    | zero => ext i hi; simp [bytesOfWord]
    | succ k =>
      have := ih (v >>> 8) k (by omega)
      simp only [bytesOfWord, List.getElem?_cons_succ, this]
      ext i hi
      simp [Nat.mul_add, Nat.add_comm, Nat.add_left_comm]

/-- A write that succeeds stores the value's low bytes and changes nothing else. -/
theorem storeResult_memWrite {s t : State} {addr v : Word} {width : Width} (h : s.memWrite addr width v = .ok t) :
    storeResult s t addr.toNat width.bytes v := by
  refine ⟨fun k hk => ?_, fun b hb => (State.byteAt_memWrite h b).2 hb, ?_⟩
  · rw [(State.byteAt_memWrite h _).1 k hk rfl, bytesOfWord_getD _ _ _ hk]
  · obtain ⟨S, -, -, rfl⟩ := State.memWrite_ok h
    exact ⟨fun _ => rfl, rfl, rfl, rfl, rfl, rfl, rfl, rfl, rfl, rfl⟩

/-! ### The state the engine steps from: only a debugger's command may have gone -/

@[simp] theorem commandTaken_x : (commandTaken s).x = s.x := by unfold commandTaken; split <;> rfl
@[simp] theorem commandTaken_pc : (commandTaken s).pc = s.pc := by unfold commandTaken; split <;> rfl
@[simp] theorem commandTaken_mem : (commandTaken s).mem = s.mem := by unfold commandTaken; split <;> rfl
@[simp] theorem commandTaken_runState : (commandTaken s).runState = s.runState := by unfold commandTaken; split <;> rfl
@[simp] theorem commandTaken_cycle : (commandTaken s).cycle = s.cycle := by unfold commandTaken; split <;> rfl
@[simp] theorem commandTaken_exitCode : (commandTaken s).exitCode = s.exitCode := by unfold commandTaken; split <;> rfl
@[simp] theorem commandTaken_fault : (commandTaken s).fault = s.fault := by unfold commandTaken; split <;> rfl
@[simp] theorem commandTaken_cfg : (commandTaken s).cfg = s.cfg := by unfold commandTaken; split <;> rfl
@[simp] theorem commandTaken_bridgeAnswers : (commandTaken s).bridgeAnswers = s.bridgeAnswers := by
  unfold commandTaken; split <;> rfl
@[simp] theorem commandTaken_bridgeDraws : (commandTaken s).bridgeDraws = s.bridgeDraws := by
  unfold commandTaken; split <;> rfl
@[simp] theorem commandTaken_readReg (r : Reg) : (commandTaken s).readReg r = s.readReg r := by
  unfold commandTaken; split <;> rfl
@[simp] theorem commandTaken_byteAt (a : Nat) : (commandTaken s).byteAt a = s.byteAt a := by
  unfold commandTaken; split <;> rfl
@[simp] theorem commandTaken_guardFires : (commandTaken s).guardFires = s.guardFires := by
  unfold commandTaken; split <;> rfl
@[simp] theorem commandTaken_fetch (a : Word) : (commandTaken s).fetch a = s.fetch a := by
  unfold commandTaken; split <;> rfl

/-- A machine that takes a step of its engine takes it from there. -/
theorem transition_of_stepping {engine : State → Host.Outcome State Fault Refusal} {s : State} (hc : configWf s.cfg)
    (h : stepping s) : transition engine s = engine (commandTaken s) := by
  unfold transition
  rw [if_pos hc]
  rcases h with h | ⟨h, rest, hd⟩
  · simp [h, commandTaken]
  · simp [h, commandTaken, hd]

/-- The same of the step that fetches. -/
theorem step_of_stepping {s : State} (hc : configWf s.cfg) (h : stepping s) : step s = engineStep (commandTaken s) :=
  transition_of_stepping hc h

/-! ### Reset -/

/-- The memory of the state after reset is in canonical form: it lists nothing. -/
theorem reset_memory_wf : Memory.wf State.reset.mem := by decide

end Sys2Proof.Machine
end

