-- ==== Sys2Proof/Laws/PerInstr.lean ====
section
/-! SUPPORT. Statements made of every instruction, one lemma per constructor. LowBits (R81): the low two bits of an
instruction's word are 11, as they are for every word whose format is one of the six. -/

namespace Sys2Proof.Laws.LowBits

/-- The low two bits of the word are 11. -/
def Statement (i : Instr) : Prop := (encode i).extractLsb' 0 2 = 0b11#2

/-- Two bits are 11 when each of them is set. -/
theorem of_bits {w : Word} (h0 : w.getLsbD 0 = true) (h1 : w.getLsbD 1 = true) : w.extractLsb' 0 2 = 0b11#2 := by
  ext i hi
  interval_cases i
  · simpa [← BitVec.getLsbD_eq_getElem] using h0
  · simpa [← BitVec.getLsbD_eq_getElem] using h1

theorem lui (rd : Reg) (imm20 : BitVec 20) : Statement (.lui rd imm20) :=
  of_bits (getLsbD_wordU _ _ _ 0 (by decide)) (getLsbD_wordU _ _ _ 1 (by decide))
theorem auipc (rd : Reg) (imm20 : BitVec 20) : Statement (.auipc rd imm20) :=
  of_bits (getLsbD_wordU _ _ _ 0 (by decide)) (getLsbD_wordU _ _ _ 1 (by decide))
theorem jal (rd : Reg) (off : BitVec 21) : Statement (.jal rd off) :=
  of_bits (getLsbD_wordJ _ _ _ 0 (by decide)) (getLsbD_wordJ _ _ _ 1 (by decide))
theorem jalr (rd rs1 : Reg) (imm : BitVec 12) : Statement (.jalr rd rs1 imm) :=
  of_bits (getLsbD_wordI _ _ _ _ _ 0 (by decide)) (getLsbD_wordI _ _ _ _ _ 1 (by decide))
theorem beq (rs1 rs2 : Reg) (off : BitVec 13) : Statement (.beq rs1 rs2 off) :=
  of_bits (getLsbD_wordB _ _ _ _ _ 0 (by decide)) (getLsbD_wordB _ _ _ _ _ 1 (by decide))
theorem bne (rs1 rs2 : Reg) (off : BitVec 13) : Statement (.bne rs1 rs2 off) :=
  of_bits (getLsbD_wordB _ _ _ _ _ 0 (by decide)) (getLsbD_wordB _ _ _ _ _ 1 (by decide))
theorem blt (rs1 rs2 : Reg) (off : BitVec 13) : Statement (.blt rs1 rs2 off) :=
  of_bits (getLsbD_wordB _ _ _ _ _ 0 (by decide)) (getLsbD_wordB _ _ _ _ _ 1 (by decide))
theorem bge (rs1 rs2 : Reg) (off : BitVec 13) : Statement (.bge rs1 rs2 off) :=
  of_bits (getLsbD_wordB _ _ _ _ _ 0 (by decide)) (getLsbD_wordB _ _ _ _ _ 1 (by decide))
theorem bltu (rs1 rs2 : Reg) (off : BitVec 13) : Statement (.bltu rs1 rs2 off) :=
  of_bits (getLsbD_wordB _ _ _ _ _ 0 (by decide)) (getLsbD_wordB _ _ _ _ _ 1 (by decide))
theorem bgeu (rs1 rs2 : Reg) (off : BitVec 13) : Statement (.bgeu rs1 rs2 off) :=
  of_bits (getLsbD_wordB _ _ _ _ _ 0 (by decide)) (getLsbD_wordB _ _ _ _ _ 1 (by decide))
theorem lb (rd rs1 : Reg) (imm : BitVec 12) : Statement (.lb rd rs1 imm) :=
  of_bits (getLsbD_wordI _ _ _ _ _ 0 (by decide)) (getLsbD_wordI _ _ _ _ _ 1 (by decide))
theorem lh (rd rs1 : Reg) (imm : BitVec 12) : Statement (.lh rd rs1 imm) :=
  of_bits (getLsbD_wordI _ _ _ _ _ 0 (by decide)) (getLsbD_wordI _ _ _ _ _ 1 (by decide))
theorem lw (rd rs1 : Reg) (imm : BitVec 12) : Statement (.lw rd rs1 imm) :=
  of_bits (getLsbD_wordI _ _ _ _ _ 0 (by decide)) (getLsbD_wordI _ _ _ _ _ 1 (by decide))
theorem lbu (rd rs1 : Reg) (imm : BitVec 12) : Statement (.lbu rd rs1 imm) :=
  of_bits (getLsbD_wordI _ _ _ _ _ 0 (by decide)) (getLsbD_wordI _ _ _ _ _ 1 (by decide))
theorem lhu (rd rs1 : Reg) (imm : BitVec 12) : Statement (.lhu rd rs1 imm) :=
  of_bits (getLsbD_wordI _ _ _ _ _ 0 (by decide)) (getLsbD_wordI _ _ _ _ _ 1 (by decide))
theorem sb (rs2 rs1 : Reg) (imm : BitVec 12) : Statement (.sb rs2 rs1 imm) :=
  of_bits (getLsbD_wordS _ _ _ _ _ 0 (by decide)) (getLsbD_wordS _ _ _ _ _ 1 (by decide))
theorem sh (rs2 rs1 : Reg) (imm : BitVec 12) : Statement (.sh rs2 rs1 imm) :=
  of_bits (getLsbD_wordS _ _ _ _ _ 0 (by decide)) (getLsbD_wordS _ _ _ _ _ 1 (by decide))
theorem sw (rs2 rs1 : Reg) (imm : BitVec 12) : Statement (.sw rs2 rs1 imm) :=
  of_bits (getLsbD_wordS _ _ _ _ _ 0 (by decide)) (getLsbD_wordS _ _ _ _ _ 1 (by decide))
theorem addi (rd rs1 : Reg) (imm : BitVec 12) : Statement (.addi rd rs1 imm) :=
  of_bits (getLsbD_wordI _ _ _ _ _ 0 (by decide)) (getLsbD_wordI _ _ _ _ _ 1 (by decide))
theorem slti (rd rs1 : Reg) (imm : BitVec 12) : Statement (.slti rd rs1 imm) :=
  of_bits (getLsbD_wordI _ _ _ _ _ 0 (by decide)) (getLsbD_wordI _ _ _ _ _ 1 (by decide))
theorem sltiu (rd rs1 : Reg) (imm : BitVec 12) : Statement (.sltiu rd rs1 imm) :=
  of_bits (getLsbD_wordI _ _ _ _ _ 0 (by decide)) (getLsbD_wordI _ _ _ _ _ 1 (by decide))
theorem xori (rd rs1 : Reg) (imm : BitVec 12) : Statement (.xori rd rs1 imm) :=
  of_bits (getLsbD_wordI _ _ _ _ _ 0 (by decide)) (getLsbD_wordI _ _ _ _ _ 1 (by decide))
theorem ori (rd rs1 : Reg) (imm : BitVec 12) : Statement (.ori rd rs1 imm) :=
  of_bits (getLsbD_wordI _ _ _ _ _ 0 (by decide)) (getLsbD_wordI _ _ _ _ _ 1 (by decide))
theorem andi (rd rs1 : Reg) (imm : BitVec 12) : Statement (.andi rd rs1 imm) :=
  of_bits (getLsbD_wordI _ _ _ _ _ 0 (by decide)) (getLsbD_wordI _ _ _ _ _ 1 (by decide))
theorem slli (rd rs1 : Reg) (shamt : BitVec 5) : Statement (.slli rd rs1 shamt) :=
  of_bits (getLsbD_wordR _ _ _ _ _ _ 0 (by decide)) (getLsbD_wordR _ _ _ _ _ _ 1 (by decide))
theorem srli (rd rs1 : Reg) (shamt : BitVec 5) : Statement (.srli rd rs1 shamt) :=
  of_bits (getLsbD_wordR _ _ _ _ _ _ 0 (by decide)) (getLsbD_wordR _ _ _ _ _ _ 1 (by decide))
theorem srai (rd rs1 : Reg) (shamt : BitVec 5) : Statement (.srai rd rs1 shamt) :=
  of_bits (getLsbD_wordR _ _ _ _ _ _ 0 (by decide)) (getLsbD_wordR _ _ _ _ _ _ 1 (by decide))
theorem add (rd rs1 rs2 : Reg) : Statement (.add rd rs1 rs2) :=
  of_bits (getLsbD_wordR _ _ _ _ _ _ 0 (by decide)) (getLsbD_wordR _ _ _ _ _ _ 1 (by decide))
theorem sub (rd rs1 rs2 : Reg) : Statement (.sub rd rs1 rs2) :=
  of_bits (getLsbD_wordR _ _ _ _ _ _ 0 (by decide)) (getLsbD_wordR _ _ _ _ _ _ 1 (by decide))
theorem sll (rd rs1 rs2 : Reg) : Statement (.sll rd rs1 rs2) :=
  of_bits (getLsbD_wordR _ _ _ _ _ _ 0 (by decide)) (getLsbD_wordR _ _ _ _ _ _ 1 (by decide))
theorem slt (rd rs1 rs2 : Reg) : Statement (.slt rd rs1 rs2) :=
  of_bits (getLsbD_wordR _ _ _ _ _ _ 0 (by decide)) (getLsbD_wordR _ _ _ _ _ _ 1 (by decide))
theorem sltu (rd rs1 rs2 : Reg) : Statement (.sltu rd rs1 rs2) :=
  of_bits (getLsbD_wordR _ _ _ _ _ _ 0 (by decide)) (getLsbD_wordR _ _ _ _ _ _ 1 (by decide))
theorem xor (rd rs1 rs2 : Reg) : Statement (.xor rd rs1 rs2) :=
  of_bits (getLsbD_wordR _ _ _ _ _ _ 0 (by decide)) (getLsbD_wordR _ _ _ _ _ _ 1 (by decide))
theorem srl (rd rs1 rs2 : Reg) : Statement (.srl rd rs1 rs2) :=
  of_bits (getLsbD_wordR _ _ _ _ _ _ 0 (by decide)) (getLsbD_wordR _ _ _ _ _ _ 1 (by decide))
theorem sra (rd rs1 rs2 : Reg) : Statement (.sra rd rs1 rs2) :=
  of_bits (getLsbD_wordR _ _ _ _ _ _ 0 (by decide)) (getLsbD_wordR _ _ _ _ _ _ 1 (by decide))
theorem or (rd rs1 rs2 : Reg) : Statement (.or rd rs1 rs2) :=
  of_bits (getLsbD_wordR _ _ _ _ _ _ 0 (by decide)) (getLsbD_wordR _ _ _ _ _ _ 1 (by decide))
theorem and (rd rs1 rs2 : Reg) : Statement (.and rd rs1 rs2) :=
  of_bits (getLsbD_wordR _ _ _ _ _ _ 0 (by decide)) (getLsbD_wordR _ _ _ _ _ _ 1 (by decide))
theorem ecall : Statement .ecall := rfl

end Sys2Proof.Laws.LowBits
end

