-- ==== Sys2Proof/Tests/Slice0.lean ====
section
/-! SUPPORT. The model's own tests: the ill-formed terms WellFormed refuses, the words of spec/95_test_vectors.md against the
decoder, one step of each instruction on that file's configuration TC, and for every statement with hypotheses a state
and operands that meet them. Every expected value is the spec's. -/

namespace Sys2Proof.Tests

open Sys2Proof Sys2Proof.Machine

/-! ### Configuration TC (95_test_vectors.md section 0), with 8 words of text -/

def tcConfig : Config where
  map       := [{ name := .program "text", base := 0x00010000, size := 32, readOnly := true, exec := true },
                { name := .program "data", base := 0x00020000, size := 256, readOnly := false, exec := false },
                { name := .program "rodata", base := 0x00020100, size := 16, readOnly := true, exec := false },
                stackSection 0x00030000 8192, windowSection .periph0 ⟨0xFFFF0000, 16⟩,
                windowSection .periph1 ⟨0xFFFF0010, 16⟩]
  stackBase := 0x00030000
  stackSize := 8192
  guardBand := 4096
  periph0   := ⟨0xFFFF0000, 16⟩
  periph1   := ⟨0xFFFF0010, 16⟩
  auipcBias := .zero
  bridge    := .reference

/-- The data bytes of section 2.3, the rodata bytes, and one word of text at 0x00010010. -/
def tcMem (w : Word) : Memory :=
  Memory.setBytes (Memory.setBytes (Memory.setBytes [] 0x00020000 [0x80#8, 0xFF#8, 0x7F#8, 0x01#8, 0x44#8, 0x33#8, 0x22#8, 0x11#8])
    0x00020100 [0x00#8, 0x01#8, 0x02#8, 0x03#8, 0x04#8]) 0x00010010 (bytesOfWord 4 w)

/-- A running machine about to fetch `w` at 0x00010010, with x5, x6 and x7 as given. -/
def tc (w a5 a6 a7 : Word) : State :=
  ((({ State.atReset tcConfig (tcMem w) 0x00010010#32 with cycle := 7 }).writeReg 5 a5).writeReg 6 a6).writeReg 7 a7

/-- A field of the state a step or a handler answers. -/
def field {α : Type} (o : Host.Outcome State Fault Refusal) (f : State → α) : Option α :=
  match o with
  | .next t => some (f t)
  | .fault _ => none
  | .refused _ => none

/-- x5 after a step. -/
def x5 (s : State) : Option Word := field (step s) (fun t => t.readReg 5)

/-- The first eight bytes of data after a step. -/
def data (s : State) : Option (List Byte) := field (step s) (fun t => Memory.getBytes t.mem 0x00020000 8)

/-- The fault recorded, pc and x5 after a step. -/
def faultAt (s : State) : Option (Option Fault × Word × Word) := field (step s) (fun t => (t.fault, t.pc, t.readReg 5))

/-- pc and x1 after a step. -/
def pcLink (s : State) : Option (Word × Word) := field (step s) (fun t => (t.pc, t.readReg 1))

/-! ### WellFormed refuses ill-formed terms -/

theorem test_wf_refuses_odd_branch_offset :
    [Instr.beq 0 0 1#13, .bne 0 0 3#13, .blt 0 0 5#13, .bge 0 0 7#13, .bltu 0 0 9#13, .bgeu 0 0 4095#13].map Instr.wf
      = [false, false, false, false, false, false] := by decide

theorem test_wf_refuses_odd_jump_offset : Instr.wf (.jal 1 1#21) = false ∧ Instr.wf (.jal 1 2#21) = true := by decide

/-! ### Decoding: a word of every constructor, written out in the spec's vectors -/

theorem test_decode_upper_and_jumps :
    decodeWord 0x123452B7#32 = .ok (.lui 5 0x12345#20)
      ∧ decodeWord 0x00001297#32 = .ok (.auipc 5 1#20)
      ∧ decodeWord 0x001000EF#32 = .ok (.jal 1 2048#21)
      ∧ decodeWord 0xFFD28067#32 = .ok (.jalr 0 5 (BitVec.ofInt 12 (-3))) := by decide

theorem test_decode_branches :
    decodeWord 0x80628063#32 = .ok (.beq 5 6 (BitVec.ofInt 13 (-4096)))
      ∧ decodeWord 0xFE629CE3#32 = .ok (.bne 5 6 (BitVec.ofInt 13 (-8)))
      ∧ decodeWord 0x0062C463#32 = .ok (.blt 5 6 8#13)
      ∧ decodeWord 0x0062D463#32 = .ok (.bge 5 6 8#13)
      ∧ decodeWord 0x0062E463#32 = .ok (.bltu 5 6 8#13)
      ∧ decodeWord 0xFE62FEE3#32 = .ok (.bgeu 5 6 (BitVec.ofInt 13 (-4))) := by decide

theorem test_decode_loads :
    decodeWord 0xFFF30283#32 = .ok (.lb 5 6 (BitVec.ofInt 12 (-1)))
      ∧ decodeWord 0x00231283#32 = .ok (.lh 5 6 2#12)
      ∧ decodeWord 0x80432283#32 = .ok (.lw 5 6 (BitVec.ofInt 12 (-2044)))
      ∧ decodeWord 0x00134283#32 = .ok (.lbu 5 6 1#12)
      ∧ decodeWord 0x00035283#32 = .ok (.lhu 5 6 0#12) := by decide

theorem test_decode_stores :
    decodeWord 0x00730023#32 = .ok (.sb 7 6 0#12)
      ∧ decodeWord 0x00731123#32 = .ok (.sh 7 6 2#12)
      ∧ decodeWord 0xFE732C23#32 = .ok (.sw 7 6 (BitVec.ofInt 12 (-8))) := by decide

theorem test_decode_register_immediate :
    decodeWord 0x80030293#32 = .ok (.addi 5 6 (BitVec.ofInt 12 (-2048)))
      ∧ decodeWord 0x7FF32293#32 = .ok (.slti 5 6 2047#12)
      ∧ decodeWord 0xFFF33293#32 = .ok (.sltiu 5 6 (BitVec.ofInt 12 (-1)))
      ∧ decodeWord 0x7FF34293#32 = .ok (.xori 5 6 2047#12)
      ∧ decodeWord 0x67836293#32 = .ok (.ori 5 6 1656#12)
      ∧ decodeWord 0x0FF37293#32 = .ok (.andi 5 6 255#12) := by decide

theorem test_decode_shift_immediate :
    decodeWord 0x00431293#32 = .ok (.slli 5 6 4#5)
      ∧ decodeWord 0x01F35293#32 = .ok (.srli 5 6 31#5)
      ∧ decodeWord 0x41F35293#32 = .ok (.srai 5 6 31#5) := by decide

theorem test_decode_register_register :
    decodeWord 0x002081B3#32 = .ok (.add 3 1 2)
      ∧ decodeWord 0x402081B3#32 = .ok (.sub 3 1 2)
      ∧ decodeWord 0x007312B3#32 = .ok (.sll 5 6 7)
      ∧ decodeWord 0x007322B3#32 = .ok (.slt 5 6 7)
      ∧ decodeWord 0x007332B3#32 = .ok (.sltu 5 6 7)
      ∧ decodeWord 0x007342B3#32 = .ok (.xor 5 6 7)
      ∧ decodeWord 0x007352B3#32 = .ok (.srl 5 6 7)
      ∧ decodeWord 0x407352B3#32 = .ok (.sra 5 6 7)
      ∧ decodeWord 0x007362B3#32 = .ok (.or 5 6 7)
      ∧ decodeWord 0x007372B3#32 = .ok (.and 5 6 7) := by decide

theorem test_decode_system :
    decodeWord 0x00000073#32 = .ok (.ecall)
      ∧ decodeWord 0x00100073#32 = .ok (.ebreak) := by decide

theorem test_decode_unknown_opcode :
    decodeWord 0x00000000#32 = .error (.unknown 0x00000000#32)
      ∧ decodeWord 0xFFFFFFFF#32 = .error (.unknown 0xFFFFFFFF#32)
      ∧ decodeWord 0x00010001#32 = .error (.unknown 0x00010001#32)
      ∧ decodeWord 0x0FF0000F#32 = .error (.unknown 0x0FF0000F#32)
      ∧ decodeWord 0x0000100F#32 = .error (.unknown 0x0000100F#32) := by decide

theorem test_decode_unknown_function :
    decodeWord 0x027302B3#32 = .error (.unknown 0x027302B3#32)
      ∧ decodeWord 0x02031293#32 = .error (.unknown 0x02031293#32)
      ∧ decodeWord 0x20435293#32 = .error (.unknown 0x20435293#32)
      ∧ decodeWord 0x00033283#32 = .error (.unknown 0x00033283#32)
      ∧ decodeWord 0x00733023#32 = .error (.unknown 0x00733023#32)
      ∧ decodeWord 0x0062A463#32 = .error (.unknown 0x0062A463#32)
      ∧ decodeWord 0x00029067#32 = .error (.unknown 0x00029067#32) := by decide

theorem test_decode_unknown_system :
    decodeWord 0x30529073#32 = .error (.unknown 0x30529073#32)
      ∧ decodeWord 0x30200073#32 = .error (.unknown 0x30200073#32)
      ∧ decodeWord 0x10500073#32 = .error (.unknown 0x10500073#32)
      ∧ decodeWord 0x00000173#32 = .error (.unknown 0x00000173#32)
      ∧ decodeWord 0x00200073#32 = .error (.unknown 0x00200073#32) := by decide

/-- The bounds of the offsets (95_test_vectors.md 2.1). -/
theorem test_decode_offset_bounds :
    decodeWord 0x7E000FE3#32 = .ok (.beq 0 0 4094#13) ∧ decodeWord 0x80000063#32 = .ok (.beq 0 0 4096#13)
      ∧ decodeWord 0x800000EF#32 = .ok (.jal 1 (BitVec.ofInt 21 (-1048576)))
      ∧ decodeWord 0x7FFFF06F#32 = .ok (.jal 0 1048574#21) := by decide

/-- Bytes are little-endian, and three bytes are no instruction (R48, R81). -/
theorem test_decode_bytes :
    decode [0x13#8, 0x05#8, 0x50#8, 0x00#8, 0xAA#8] = .ok (.addi 10 0 5#12, [0xAA#8])
      ∧ decode [0x13#8, 0x05#8, 0x50#8] = .error (.truncated 3) ∧ decodeTableWord 32 0x00500513 = some (.addi 10 0 5#12) := by
  decide

/-! ### One step of each instruction -/

theorem test_add : x5 (tc 0x007302B3#32 0x4D#32 0x7FFFFFFF#32 1#32) = some 0x80000000#32 ∧ x5 (tc 0x007302B3#32 0x4D#32 0xFFFFFFFF#32 1#32) = some 0#32 := by decide

theorem test_sub : x5 (tc 0x407302B3#32 0x4D#32 0#32 1#32) = some 0xFFFFFFFF#32 ∧ x5 (tc 0x407302B3#32 0x4D#32 0x80000000#32 1#32) = some 0x7FFFFFFF#32 := by decide

theorem test_and : x5 (tc 0x007372B3#32 0x4D#32 0xF0F0F0F0#32 0xFF00FF00#32) = some 0xF000F000#32 := by decide

theorem test_or : x5 (tc 0x007362B3#32 0x4D#32 0xF0F0F0F0#32 0x0F0F0F0F#32) = some 0xFFFFFFFF#32 := by decide

theorem test_xor : x5 (tc 0x007342B3#32 0x4D#32 0xFFFFFFFF#32 0x12345678#32) = some 0xEDCBA987#32 := by decide

theorem test_sll : x5 (tc 0x007312B3#32 0x4D#32 1#32 0x20#32) = some 1#32 ∧ x5 (tc 0x007312B3#32 0x4D#32 0xFFFFFFFF#32 0x21#32) = some 0xFFFFFFFE#32 := by decide

theorem test_srl : x5 (tc 0x007352B3#32 0x4D#32 0x80000000#32 0x20#32) = some 0x80000000#32 ∧ x5 (tc 0x007352B3#32 0x4D#32 0xFFFFFFFF#32 4#32) = some 0x0FFFFFFF#32 := by decide

theorem test_sra : x5 (tc 0x407352B3#32 0x4D#32 0x80000000#32 4#32) = some 0xF8000000#32 ∧ x5 (tc 0x407352B3#32 0x4D#32 0xF0000000#32 0x24#32) = some 0xFF000000#32 := by decide

theorem test_slt : x5 (tc 0x007322B3#32 0x4D#32 0xFFFFFFFF#32 0#32) = some 1#32 ∧ x5 (tc 0x007322B3#32 0x4D#32 0#32 0xFFFFFFFF#32) = some 0#32 := by decide

theorem test_sltu : x5 (tc 0x007332B3#32 0x4D#32 0xFFFFFFFF#32 0#32) = some 0#32 ∧ x5 (tc 0x007332B3#32 0x4D#32 0#32 0xFFFFFFFF#32) = some 1#32 := by decide

theorem test_addi : x5 (tc 0x80030293#32 0x4D#32 0x800#32 0#32) = some 0#32 ∧ x5 (tc 0x7FF30293#32 0x4D#32 0xFFFFFFFF#32 0#32) = some 0x7FE#32 := by decide

theorem test_andi : x5 (tc 0x0FF37293#32 0x4D#32 0x12345678#32 0#32) = some 0x78#32 ∧ x5 (tc 0x80037293#32 0x4D#32 0xFFFFFFFF#32 0#32) = some 0xFFFFF800#32 := by decide

theorem test_ori : x5 (tc 0x80036293#32 0x4D#32 0#32 0#32) = some 0xFFFFF800#32 ∧ x5 (tc 0x67836293#32 0x4D#32 0x12345000#32 0#32) = some 0x12345678#32 := by decide

theorem test_xori : x5 (tc 0xFFF34293#32 0x4D#32 0x0F0F0F0F#32 0#32) = some 0xF0F0F0F0#32 ∧ x5 (tc 0x7FF34293#32 0x4D#32 0xFFFFFFFF#32 0#32) = some 0xFFFFF800#32 := by decide

theorem test_slti : x5 (tc 0x80032293#32 0x4D#32 0x80000000#32 0#32) = some 1#32 ∧ x5 (tc 0x7FF32293#32 0x4D#32 0x7FF#32 0#32) = some 0#32 := by decide

theorem test_sltiu : x5 (tc 0x80033293#32 0x4D#32 0xFFFFF7FF#32 0#32) = some 1#32 ∧ x5 (tc 0x80033293#32 0x4D#32 0xFFFFF800#32 0#32) = some 0#32 := by decide

theorem test_slli : x5 (tc 0x01F31293#32 0x4D#32 1#32 0#32) = some 0x80000000#32 ∧ x5 (tc 0x00431293#32 0x4D#32 0x12345678#32 0#32) = some 0x23456780#32 := by decide

theorem test_srli : x5 (tc 0x01F35293#32 0x4D#32 0x80000000#32 0#32) = some 1#32 ∧ x5 (tc 0x00435293#32 0x4D#32 0x12345678#32 0#32) = some 0x01234567#32 := by decide

theorem test_srai : x5 (tc 0x40435293#32 0x4D#32 0x87654321#32 0#32) = some 0xF8765432#32 ∧ x5 (tc 0x41E35293#32 0x4D#32 0x7FFFFFFF#32 0#32) = some 1#32 := by decide

theorem test_lui : x5 (tc 0xFFFFF2B7#32 0x4D#32 0#32 0#32) = some 0xFFFFF000#32 := by decide

theorem test_add_same_register : x5 (tc 0x005282B3#32 0x80000001#32 0#32 0#32) = some 2#32 := by decide

theorem test_add_to_x0_is_discarded :
    field (step (tc 0x00730033#32 0#32 1#32 2#32)) (fun t => (t.readReg 0, t.pc)) = some (0#32, 0x00010014#32) := by decide

/-- `auipc` at 0x00010010, with the bias 0 and with the bias 4 (R191). -/
theorem test_auipc :
    x5 (tc 0xFFFFF297#32 0#32 0#32 0#32) = some 0x0000F010#32
      ∧ x5 { tc 0xFFFFF297#32 0#32 0#32 0#32 with cfg := { tcConfig with auipcBias := .four } } = some 0x0000F014#32 := by decide

theorem test_lb : x5 (tc 0x00030283#32 0xAAAAAAAA#32 0x00020000#32 0#32) = some 0xFFFFFF80#32 ∧ x5 (tc 0xFFF30283#32 0xAAAAAAAA#32 0x00020003#32 0#32) = some 0x7F#32 := by decide

theorem test_lbu : x5 (tc 0x00034283#32 0xAAAAAAAA#32 0x00020000#32 0#32) = some 0x80#32 ∧ x5 (tc 0x00134283#32 0xAAAAAAAA#32 0x00020000#32 0#32) = some 0xFF#32 := by decide

theorem test_lh : x5 (tc 0x00131283#32 0xAAAAAAAA#32 0x00020000#32 0#32) = some 0x7FFF#32 ∧ x5 (tc 0x00031283#32 0xAAAAAAAA#32 0x00020000#32 0#32) = some 0xFFFFFF80#32 := by decide

theorem test_lhu : x5 (tc 0x00035283#32 0xAAAAAAAA#32 0x00020000#32 0#32) = some 0xFF80#32 ∧ x5 (tc 0x00035283#32 0xAAAAAAAA#32 0x00020003#32 0#32) = some 0x4401#32 := by decide

theorem test_lw : x5 (tc 0x80432283#32 0xAAAAAAAA#32 0x00020800#32 0#32) = some 0x11223344#32 ∧ x5 (tc 0x00032283#32 0xAAAAAAAA#32 0x00020100#32 0#32) = some 0x03020100#32 := by decide

theorem test_load_faults :
    faultAt (tc 0x00032283#32 0xAAAAAAAA#32 0x00040001#32 0#32)
        = some (some (.memoryAccess 0x00040001#32 .word .read .misaligned), 0x00010014#32, 0xAAAAAAAA#32)
      ∧ faultAt (tc 0xFFC32283#32 0xAAAAAAAA#32 0#32 0#32)
        = some (some (.memoryAccess 0xFFFFFFFC#32 .word .read .unmapped), 0x00010014#32, 0xAAAAAAAA#32)
      ∧ faultAt (tc 0x00031283#32 0xAAAAAAAA#32 0x000200FF#32 0#32)
        = some (some (.memoryAccess 0x000200FF#32 .half .read .unmapped), 0x00010014#32, 0xAAAAAAAA#32)
      ∧ faultAt (tc 0x00035283#32 0xAAAAAAAA#32 0xFFFFFFFF#32 0#32)
        = some (some (.memoryAccess 0xFFFFFFFF#32 .half .read .unmapped), 0x00010014#32, 0xAAAAAAAA#32)
      ∧ faultAt (tc 0x00030283#32 0xAAAAAAAA#32 0x0001FFFF#32 0#32)
        = some (some (.memoryAccess 0x0001FFFF#32 .byte .read .unmapped), 0x00010014#32, 0xAAAAAAAA#32) := by decide

theorem test_sb : data (tc 0x00730023#32 0#32 0x00020000#32 0x123456AB#32)
    = some [0xAB#8, 0xFF#8, 0x7F#8, 0x01#8, 0x44#8, 0x33#8, 0x22#8, 0x11#8] := by decide

theorem test_sh : data (tc 0x00731023#32 0#32 0x00020001#32 0x0000CAFE#32)
    = some [0x80#8, 0xFE#8, 0xCA#8, 0x01#8, 0x44#8, 0x33#8, 0x22#8, 0x11#8] := by decide

theorem test_sw : data (tc 0xFE732C23#32 0#32 0x00020008#32 0x01020304#32)
    = some [0x04#8, 0x03#8, 0x02#8, 0x01#8, 0x44#8, 0x33#8, 0x22#8, 0x11#8] := by decide

theorem test_store_faults :
    faultAt (tc 0x00732023#32 0xAAAAAAAA#32 0x00020101#32 1#32)
        = some (some (.memoryAccess 0x00020101#32 .word .write .misaligned), 0x00010014#32, 0xAAAAAAAA#32)
      ∧ faultAt (tc 0x00731023#32 0xAAAAAAAA#32 0x000200FF#32 1#32)
        = some (some (.memoryAccess 0x000200FF#32 .half .write .unmapped), 0x00010014#32, 0xAAAAAAAA#32)
      ∧ faultAt (tc 0x00730023#32 0xAAAAAAAA#32 0x00020100#32 1#32)
        = some (some (.memoryAccess 0x00020100#32 .byte .write .readOnly), 0x00010014#32, 0xAAAAAAAA#32)
      ∧ faultAt (tc 0x00732023#32 0xAAAAAAAA#32 0x00010000#32 1#32)
        = some (some (.memoryAccess 0x00010000#32 .word .write .readOnly), 0x00010014#32, 0xAAAAAAAA#32)
      ∧ faultAt (tc 0x00732023#32 0xAAAAAAAA#32 0x00032000#32 0x55#32)
        = some (some (.memoryAccess 0x00032000#32 .word .write .unmapped), 0x00010014#32, 0xAAAAAAAA#32) := by decide

theorem test_beq : field (step (tc 0x80628063#32 0#32 0#32 0#32)) (fun t => t.pc) = some 0x0000F010#32 ∧ field (step (tc 0x00628863#32 7#32 8#32 0#32)) (fun t => t.pc) = some 0x00010014#32 := by decide

theorem test_bne : field (step (tc 0xFE629CE3#32 1#32 0#32 0#32)) (fun t => t.pc) = some 0x00010008#32 ∧ field (step (tc 0xFE629CE3#32 3#32 3#32 0#32)) (fun t => t.pc) = some 0x00010014#32 := by decide

theorem test_blt : field (step (tc 0x0062C463#32 0xFFFFFFFF#32 1#32 0#32)) (fun t => t.pc) = some 0x00010018#32 ∧ field (step (tc 0x0062C463#32 5#32 5#32 0#32)) (fun t => t.pc) = some 0x00010014#32 := by decide

theorem test_bge : field (step (tc 0x0062D463#32 0x80000000#32 0x80000000#32 0#32)) (fun t => t.pc) = some 0x00010018#32 ∧ field (step (tc 0x0062D463#32 0x80000000#32 0#32 0#32)) (fun t => t.pc) = some 0x00010014#32 := by decide

theorem test_bltu : field (step (tc 0x0062E463#32 1#32 0xFFFFFFFF#32 0#32)) (fun t => t.pc) = some 0x00010018#32 ∧ field (step (tc 0x0062E463#32 0xFFFFFFFF#32 1#32 0#32)) (fun t => t.pc) = some 0x00010014#32 := by decide

theorem test_bgeu : field (step (tc 0xFE62FEE3#32 9#32 9#32 0#32)) (fun t => t.pc) = some 0x0001000C#32 ∧ field (step (tc 0xFE62FEE3#32 0#32 1#32 0#32)) (fun t => t.pc) = some 0x00010014#32 := by decide

theorem test_jal : pcLink (tc 0x800000EF#32 0#32 0#32 0#32) = some (0xFFF10010#32, 0x00010014#32)
    ∧ pcLink (tc 0x7FFFF0EF#32 0#32 0#32 0#32) = some (0x0011000E#32, 0x00010014#32) := by decide

theorem test_jalr : pcLink (tc 0x004280E7#32 0x00010101#32 0#32 0#32) = some (0x00010104#32, 0x00010014#32)
    ∧ pcLink (tc 0xFFF280E7#32 0#32 0#32 0#32) = some (0xFFFFFFFE#32, 0x00010014#32) := by decide

/-- `rd` is `rs1`: the target is the old value. -/
theorem test_jalr_same_register :
    pcLink ((tc 0x000080E7#32 0#32 0#32 0#32).writeReg 1 0x00020000#32) = some (0x00020000#32, 0x00010014#32) := by decide

/-- The state of section 2.5's first row: `ecall` with 93 in x17. -/
def exitCall (code : Word) : State := ((tc 0x00000073#32 0#32 0#32 0#32).writeReg 17 93#32).writeReg 10 code

theorem test_ecall_exit :
    field (step (exitCall 0x2A#32)) (fun t => (t.exitCode, t.runState, t.pc, t.cycle))
      = some (0x2A#32, .halted, 0x00010014#32, 8)
      ∧ stepReport (exitCall 0x2A#32) = some (.halted 0x2A#32) := by decide

/-- Under the OPEN Bridge, the accesses of a `Continue`: x10 written, two bytes stored, then a fault with both left in place. -/
theorem test_ecall_continue_then_fault :
    field (step { tc 0x00000073#32 0#32 0#32 0#32 with cfg := { tcConfig with bridge := .host }, bridgeAnswers := [.continue [.setReg 10 9#32, .store 0x00020000#32 .half 0x1234#32, .store 0x00010000#32 .byte 0#32]] })
      (fun t => (t.readReg 10, t.byteAt 0x00020000, t.byteAt 0x00020001, t.fault))
      = some (9#32, 0x34#8, 0x12#8, some (.memoryAccess 0x00010000#32 .byte .write .readOnly)) := by decide

/-- At an `ebreak`, running. -/
def atBreak : State := tc 0x00100073#32 0#32 0#32 0#32

/-- At an `ebreak`, suspended, with a step commanded. -/
def steppedBreak : State := { atBreak with runState := .debugSuspended, debugCommands := [.dbgStep] }

theorem test_ebreak :
    field (step atBreak) (fun t => (t.runState, t.pc, t.cycle, t.fault)) = some (.debugSuspended, 0x00010014#32, 8, none)
      ∧ stepReport atBreak = some .debugTrap := by decide

theorem test_ebreak_propagates :
    field (step steppedBreak) (fun t => (t.runState, t.pc, t.cycle)) = some (.debugSuspended, 0x00010014#32, 8)
      ∧ stepReport steppedBreak = some .debugTrapPropagated := by decide

/-! ### The cycle (section 2.5) -/

/-- The stack guard: strict, unsigned, before the fetch, nothing counted. -/
theorem test_stack_guard :
    field (step ((tc 0x00000013#32 0#32 0#32 0#32).writeReg 2 0x00030FFF#32)) (fun t => (t.fault, t.pc, t.cycle))
      = some (some (.stackOverflow 0x00030FFF#32), 0x00010010#32, 7)
      ∧ field (step ((tc 0x00000013#32 0#32 0#32 0#32).writeReg 2 0x00031000#32)) (fun t => (t.fault, t.pc, t.cycle))
      = some (none, 0x00010014#32, 8) := by decide

theorem test_fetch_faults :
    faultAt { tc 0#32 0#32 0#32 0#32 with pc := 0x00010002#32 }
        = some (some (.memoryAccess 0x00010002#32 .word .fetch .misaligned), 0x00010002#32, 0#32)
      ∧ faultAt { tc 0#32 0#32 0#32 0#32 with pc := 0x00040000#32 }
        = some (some (.memoryAccess 0x00040000#32 .word .fetch .unmapped), 0x00040000#32, 0#32)
      ∧ faultAt { tc 0#32 0#32 0#32 0#32 with pc := 0x00020000#32 }
        = some (some (.memoryAccess 0x00020000#32 .word .fetch .notExecutable), 0x00020000#32, 0#32) := by decide

theorem test_unknown_word :
    faultAt (tc 0x0FF0000F#32 0#32 0#32 0#32) = some (some (.unimplemented 0x0FF0000F#32), 0x00010014#32, 0#32) := by decide

/-! ### Pseudo-instructions, the abstract interface, boot, placing a word -/

/-- `bgt x5, x6, +8` is `blt x6, x5, +8` (S12); the constant of program P3. -/
theorem test_pseudo :
    (Pseudo.bgt 5 6 8#13).expand.map encode = [0x00534463#32] ∧ Pseudo.ret.expand.map encode = [0x00008067#32]
      ∧ (Pseudo.li 7 0x8765CFED#32).expand.map encode = [0x8765D3B7#32, 0xFED38393#32]
      ∧ (Pseudo.li 17 93#32).expand.map encode = [0x05D00893#32] := by decide

theorem test_parse :
    parseAbstract 0#32 ⟨.addi, [.reg 5, .reg 6, .imm 2048]⟩ = none
      ∧ parseAbstract 0x00010010#32 ⟨.beq, [.reg 5, .reg 6, .imm 0x0000F010]⟩ = some (.beq 5 6 4096#13)
      ∧ parseAbstract 0#32 ⟨.lw, [.reg 5, .reg 6, .imm 0]⟩ = none := by decide

/-- A handed `addi x5, x6, 1` runs in a machine that runs; in one that has halted nothing happens (R121, R294). -/
theorem test_abstract_step :
    field (abstractStep ⟨.addi, [.reg 5, .reg 6, .imm 1]⟩ (tc 0#32 0#32 41#32 0#32)) (fun t => (t.readReg 5, t.pc, t.cycle))
      = some (42#32, 0x00010014#32, 8)
      ∧ field (abstractStep ⟨.ebreak, []⟩ { tc 0#32 0#32 0#32 0#32 with runState := .halted }) (fun t => (t.runState, t.pc))
      = some (.halted, 0x00010010#32) := by decide

/-- S9: `setup_stack(4096)` leaves x2 at the stack's base plus 4096; the boot of log entry 2's inputs is the reset state. -/
theorem test_boot : (boot bootInputAtReset).toOption = some State.reset
    ∧ State.reset.readReg 2 = BitVec.ofNat 32 (State.reset.cfg.stackBase + 4096) := by decide

/-- A word placed in the reset state is the first to run. -/
theorem test_withFetchWord :
    field (step (State.reset.withFetchWord 32 0x00500513)) (fun t => (t.readReg 10, t.pc, t.cycle))
      = some (5#32, 0x00010004#32, 1) := by decide

/-- The word unit's instances (section 2.2). -/
theorem test_word_unit :
    wordNot 0#32 = 0xFFFFFFFF#32 ∧ sext8 0x80#32 = 0xFFFFFF80#32 ∧ sext8 0x7F#32 = 0x7F#32 ∧ sext16 0x8000#32 = 0xFFFF8000#32
      ∧ zext16 0xFFFF#32 = 0xFFFF#32 ∧ bytesOfWord 4 0x11223344#32 = [0x44#8, 0x33#8, 0x22#8, 0x11#8]
      ∧ bytesOfWord 2 0x11223344#32 = [0x44#8, 0x33#8] ∧ wordOfBytes [0xEF#8, 0xBE#8] = 0xBEEF#32 := by decide

/-! ### Witnesses: for every statement with hypotheses, a state and operands that meet them, clause by clause -/

/-- A running machine at `nop`, in TC with the OPEN Bridge. -/
def hostAt (w : Word) (answers : List BridgeAnswer) : State :=
  { tc w 0#32 0#32 0#32 with cfg := { tcConfig with bridge := .host }, bridgeAnswers := answers }

/-- A machine at `nop` that is suspended, with these commands to come. -/
def suspended (commands : List DebugCommand) : State :=
  { tc 0x00000013#32 0#32 0#32 0#32 with runState := .debugSuspended, debugCommands := commands }

/-- A machine that has exited. -/
def exited : State := { tc 0x00000013#32 0#32 0#32 0#32 with runState := .halted, exitCode := 5#32 }

theorem tcConfig_wf : configWf tcConfig := by decide

theorem tc_inv : Inv (tc 0x00000013#32 0#32 0#32 0#32) :=
  ⟨by decide, by decide, by decide, by decide, by decide, by decide⟩

theorem witness_DecodeUndoesEncode :
    Instr.wf (.beq 1 2 4094#13) = true ∧ Instr.wf (.beq 31 0 (BitVec.ofInt 13 (-4096))) = true
      ∧ Instr.wf (.jal 1 1048574#21) = true ∧ Instr.wf (.sw 7 6 (BitVec.ofInt 12 (-2048))) = true := by decide

theorem witness_EncodeUndoesDecode : decodeWord 0x7E000FE3#32 = .ok (.beq 0 0 4094#13)
    ∧ decodeWord 0x7FFFF06F#32 = .ok (.jal 0 1048574#21) := by decide

theorem witness_OnlyTheOpcodeMapDecodes : executableWord 0x41F35293#32 = true ∧ executableWord 0x00100073#32 = true
    ∧ executableWord 0x20435293#32 = false ∧ executableWord 0x00200073#32 = false := by decide

theorem witness_RegisterWriteChangesThatRegisterAlone : (1 : Reg) ≠ 0 ∧ (31 : Reg) ≠ 0 ∧ (31 : Reg) ≠ 1 := by decide

/-- The last halfword of data, with the word that ends where it starts written. -/
theorem witness_ReadAfterWriteGivesTheBytes :
    (∃ t, (tc 0#32 0#32 0#32 0#32).memWrite 0x000200FE#32 .half 0xFFFFCAFE#32 = .ok t)
      ∧ (∃ r t, (tc 0#32 0#32 0#32 0#32).memRead 0x000200FE#32 .half = .ok r
          ∧ (tc 0#32 0#32 0#32 0#32).memWrite 0x000200FA#32 .word 1#32 = .ok t
          ∧ (0x000200FA#32 : Word).toNat + Width.word.bytes ≤ (0x000200FE#32 : Word).toNat) :=
  ⟨⟨_, rfl⟩, ⟨_, _, rfl, rfl, by decide⟩⟩

theorem witness_BytesAreLittleEndian :
    (∃ t, (tc 0#32 0#32 0#32 0#32).memWrite 0x00020000#32 .word 0x01020304#32 = .ok t)
      ∧ (∃ v, (tc 0#32 0#32 0#32 0#32).memRead 0x000200FE#32 .half = .ok v) := ⟨⟨_, rfl⟩, ⟨_, rfl⟩⟩

/-- The last word of data resolves; the halfword across data and rodata, both mapped, does not. -/
theorem witness_AtMostOneSectionHoldsARange :
    (∃ S ∈ tcConfig.map, sectionHolds S 0x000200FC 4 = true)
      ∧ (∀ S ∈ tcConfig.map, ¬(S.base ≤ 0x000200FF ∧ 0x000200FF + 2 ≤ S.base + S.size))
      ∧ mapped tcConfig.map 0x000200FF = true ∧ mapped tcConfig.map 0x00020100 = true := by decide

theorem witness_AccessNeverWrapsTheAddressSpace : configWf (tc 0#32 0#32 0#32 0#32).cfg
    ∧ (0xFFFFFFFF#32 : Word).toNat + Width.half.bytes > 2 ^ 32 ∧ (0xFFFFFFFD#32 : Word).toNat + Width.word.bytes > 2 ^ 32 := by
  decide

theorem witness_MemWriteChecksThenWritesItsBytesOnly : configWf (tc 0#32 0#32 0#32 0#32).cfg
    ∧ ¬holdsRange (tc 0#32 0#32 0#32 0#32) 0x000200FF 2 ∧ readOnlyRange (tc 0#32 0#32 0#32 0#32) 0x00020100 4
    ∧ writableRange (tc 0#32 0#32 0#32 0#32) 0x000200FC 4 ∧ writableRange (tc 0#32 0#32 0#32 0#32) 0x00020000 4 := by
  unfold holdsRange readOnlyRange writableRange; decide

/-- The two ways to step: running, and suspended with a step commanded. -/
theorem witness_StepRunsTheDecodedInstruction :
    (configWf atBreak.cfg ∧ stepping atBreak ∧ dispatches atBreak .ebreak)
      ∧ (configWf steppedBreak.cfg ∧ stepping steppedBreak ∧ dispatches steppedBreak .ebreak) := by
  refine ⟨⟨by decide, .inl rfl, ?_⟩, ⟨by decide, .inr ⟨rfl, _, rfl⟩, ?_⟩⟩ <;>
    (unfold dispatches guardPasses fetchable; decide)

theorem witness_HaltedStepChangesNothing : configWf exited.cfg ∧ exited.runState = .halted := by decide

/-- One below the threshold, and the threshold itself. -/
theorem witness_StackGuardFiresBeforeTheFetch :
    (∃ s : State, configWf s.cfg ∧ stepping s ∧ (s.readReg 2).toNat + 1 = s.cfg.stackBase + s.cfg.guardBand)
      ∧ (∃ s t : State, configWf s.cfg ∧ stepping s ∧ (s.readReg 2).toNat = s.cfg.stackBase + s.cfg.guardBand
          ∧ step s = .next t ∧ s.fault = none) :=
  ⟨⟨(tc 0x00000013#32 0#32 0#32 0#32).writeReg 2 0x00030FFF#32, by decide, .inl rfl, by decide⟩,
    ⟨(tc 0x00000013#32 0#32 0#32 0#32).writeReg 2 0x00031000#32, _, by decide, .inl rfl, by decide, rfl, rfl⟩⟩

/-- pc two bytes off; pc at the first word past text; pc in data. -/
theorem witness_FetchFaultsInOrder :
    (∃ s : State, configWf s.cfg ∧ stepping s ∧ guardPasses s ∧ s.pc.toNat % 4 ≠ 0)
      ∧ (∃ s : State, configWf s.cfg ∧ stepping s ∧ guardPasses s ∧ s.pc.toNat % 4 = 0 ∧ ¬holdsRange s s.pc.toNat 4)
      ∧ (∃ s : State, configWf s.cfg ∧ stepping s ∧ guardPasses s ∧ s.pc.toNat % 4 = 0 ∧ holdsRange s s.pc.toNat 4
          ∧ ¬fetchable s) := by
  refine ⟨⟨{ tc 0#32 0#32 0#32 0#32 with pc := 0x00010002#32 }, by decide, .inl rfl, ?_⟩,
    ⟨{ tc 0#32 0#32 0#32 0#32 with pc := 0x00010020#32 }, by decide, .inl rfl, ?_⟩,
    ⟨{ tc 0#32 0#32 0#32 0#32 with pc := 0x00020000#32 }, by decide, .inl rfl, ?_⟩⟩ <;>
    (unfold guardPasses; try unfold holdsRange) <;> try unfold fetchable
  all_goals decide

theorem witness_UnknownWordIsUnimplemented :
    ∃ s : State, configWf s.cfg ∧ stepping s ∧ guardPasses s ∧ fetchable s
      ∧ decode (bytesAtPc s) = .error (.unknown 0x0FF0000F#32) :=
  ⟨tc 0x0FF0000F#32 0#32 0#32 0#32, by decide, .inl rfl, by unfold guardPasses; decide, by unfold fetchable; decide, by decide⟩

theorem witness_DebuggerCommandsMoveASuspendedEngine :
    configWf (suspended []).cfg ∧ (suspended []).runState = .debugSuspended ∧ (suspended []).debugCommands = []
      ∧ (suspended [.dbgResume]).debugCommands = [.dbgResume]
      ∧ (suspended [.dbgStep, .dbgResume]).debugCommands = [.dbgStep, .dbgResume] := by decide

/-- A step of `nop`, which does not halt; and each of the four reports. -/
theorem witness_ReportsTellTheEngineState :
    (∃ t, step (tc 0x00000013#32 0#32 0#32 0#32) = .next t ∧ stepping (tc 0x00000013#32 0#32 0#32 0#32)
        ∧ t.runState ≠ .halted ∧ ¬dispatches (tc 0x00000013#32 0#32 0#32 0#32) .ebreak
        ∧ stepReport (tc 0x00000013#32 0#32 0#32 0#32) = some .continued)
      ∧ (∃ t, step exited = .next t ∧ stepReport exited = some (.halted 5#32))
      ∧ (∃ t, step atBreak = .next t ∧ stepReport atBreak = some .debugTrap)
      ∧ (∃ t, step steppedBreak = .next t ∧ stepReport steppedBreak = some .debugTrapPropagated) :=
  ⟨⟨_, rfl, .inl rfl, by decide, fun h => absurd h.2.2 (by decide), by decide⟩, ⟨_, rfl, by decide⟩, ⟨_, rfl, by decide⟩,
    ⟨_, rfl, by decide⟩⟩

theorem witness_EngineStateMovesOnlyAsAllowed :
    (∃ t, step exited = .next t ∧ exited.runState = .halted)
      ∧ (∃ t, step (suspended [.dbgResume]) = .next t ∧ (suspended [.dbgResume]).runState = .debugSuspended
          ∧ t.runState = .running)
      ∧ (∃ t, step atBreak = .next t ∧ atBreak.runState = .running ∧ t.runState = .debugSuspended) :=
  ⟨⟨_, rfl, rfl⟩, ⟨_, rfl, rfl, rfl⟩, ⟨_, rfl, rfl, rfl⟩⟩

theorem witness_CycleCountsFetchAttempts :
    (∃ t, step atBreak = .next t ∧ stepping atBreak ∧ guardPasses atBreak)
      ∧ (∃ t, step exited = .next t ∧ ¬(stepping exited ∧ guardPasses exited)) :=
  ⟨⟨_, rfl, .inl rfl, by unfold guardPasses; decide⟩, ⟨_, rfl, fun h => by
    rcases h.1 with h | ⟨h, -⟩ <;> exact absurd h (by decide)⟩⟩

theorem witness_CycleHasNoFunctionalEffect : ∃ t, step atBreak = .next t := ⟨_, rfl⟩

theorem witness_OnlyAnExitRequestWritesTheExitCode :
    ∃ t, step (exitCall 0x2A#32) = .next t ∧ t.exitCode ≠ (exitCall 0x2A#32).exitCode := ⟨_, rfl, by decide⟩

/-- A fault of the guard, of a fetch, of a load, and of an unknown word. -/
theorem witness_FaultsArePrecise :
    (∃ s t : State, step s = .next t ∧ s.fault = none ∧ t.fault = some (.stackOverflow 0#32))
      ∧ (∃ s t : State, step s = .next t ∧ s.fault = none
          ∧ t.fault = some (.memoryAccess 0x00010020#32 .word .fetch .unmapped))
      ∧ (∃ s t : State, step s = .next t ∧ s.fault = none
          ∧ t.fault = some (.memoryAccess 0x00020001#32 .word .read .misaligned))
      ∧ (∃ s t : State, step s = .next t ∧ s.fault = none ∧ t.fault = some (.unimplemented 0#32)) :=
  ⟨⟨(tc 0#32 0#32 0#32 0#32).writeReg 2 0#32, _, rfl, rfl, rfl⟩,
    ⟨{ tc 0#32 0#32 0#32 0#32 with pc := 0x00010020#32 }, _, rfl, rfl, rfl⟩,
    ⟨tc 0x00132283#32 0#32 0x00020000#32 0#32, _, rfl, rfl, rfl⟩, ⟨tc 0#32 0#32 0#32 0#32, _, rfl, rfl, rfl⟩⟩

/-- The OPEN Bridge, and the reference Bridge at an `ecall` for another number. -/
theorem witness_EveryStepHasANextState :
    configWf (hostAt 0x00000073#32 []).cfg ∧ configWf (tc 0x00000073#32 0#32 0#32 0#32).cfg
      ∧ (tc 0x00000073#32 0#32 0#32 0#32).readReg 17 ≠ 93#32 := by decide

/-- No section at all; and TC with its text at an address that is not a multiple of 4. -/
theorem witness_AnIllFormedMapIsRefused : ¬configWf { tcConfig with map := [] }
    ∧ ¬configWf { tcConfig with map := oneWordSection 0x00010002 :: tcConfig.map } := by decide

theorem witness_StepKeepsInv :
    ∃ s t : State, Inv s ∧ step s = .next t := ⟨_, _, tc_inv, rfl⟩

/-- The last byte of text. -/
theorem witness_CodeAndConfigurationNeverChange :
    ∃ t, step (tc 0x00730023#32 0#32 0x00020000#32 1#32) = .next t
      ∧ ∃ S ∈ (tc 0x00730023#32 0#32 0x00020000#32 1#32).cfg.map, S.readOnly = true ∧ S.base ≤ 0x0001001F
          ∧ 0x0001001F < S.base + S.size := ⟨_, rfl, by decide⟩

theorem witness_UpperImmediates : tcConfig.auipcBias = .zero ∧ ({ tcConfig with auipcBias := .four } : Config).auipcBias = .four := by
  decide

/-- The address one past data, as x6: its bytes below are the last of data (by -1, -2 and -4). -/
def pastData : State := (tc 0#32 0#32 0x00020100#32 0#32)

/-- The address `n` from it. -/
def fromPast (n : Int) : Nat := (effectiveAddress pastData 6 (BitVec.ofInt 12 n)).toNat

/-- The last byte and halfword of data; one byte past rodata; the halfword across data and rodata. -/
theorem witness_ByteAndHalfwordLoads :
    holdsRange pastData (fromPast (-1)) 1 ∧ ¬holdsRange pastData (fromPast 16) 1
      ∧ holdsRange pastData (fromPast (-2)) 2 ∧ ¬holdsRange pastData (fromPast (-1)) 2 := by
  unfold holdsRange; decide

/-- The last word of data; a word one byte off; the first word past rodata. -/
theorem witness_WordLoads :
    (fromPast (-4) % 4 = 0 ∧ holdsRange pastData (fromPast (-4)) 4) ∧ fromPast (-3) % 4 ≠ 0
      ∧ (fromPast 16 % 4 = 0 ∧ ¬holdsRange pastData (fromPast 16) 4) := by
  unfold holdsRange; decide

/-- The last byte and halfword of data; the first past rodata; the halfword across the two; the first of rodata. -/
theorem witness_ByteAndHalfwordStores : configWf pastData.cfg
    ∧ writableRange pastData (fromPast (-1)) 1 ∧ ¬holdsRange pastData (fromPast 16) 1 ∧ readOnlyRange pastData (fromPast 0) 1
    ∧ writableRange pastData (fromPast (-2)) 2 ∧ ¬holdsRange pastData (fromPast (-1)) 2
    ∧ readOnlyRange pastData (fromPast 0) 2 := by
  unfold holdsRange writableRange readOnlyRange; decide

/-- The last word of data; a word one byte off; the first word past rodata; the last word of rodata. -/
theorem witness_WordStores : configWf pastData.cfg
    ∧ (fromPast (-4) % 4 = 0 ∧ writableRange pastData (fromPast (-4)) 4) ∧ fromPast 1 % 4 ≠ 0
    ∧ (fromPast 16 % 4 = 0 ∧ ¬holdsRange pastData (fromPast 16) 4)
    ∧ (fromPast 12 % 4 = 0 ∧ readOnlyRange pastData (fromPast 12) 4) := by
  unfold holdsRange writableRange readOnlyRange; decide

/-- Both ends of the offset; operands equal, signed below but not unsigned, and zero (each comparison holds somewhere and
fails somewhere). -/
theorem witness_BranchesCompareAndGo : branchOffsetEven 4094#13 = true ∧ branchOffsetEven 4096#13 = true
    ∧ (tc 0#32 7#32 7#32 0#32).readReg 5 = (tc 0#32 7#32 7#32 0#32).readReg 6
    ∧ ((tc 0#32 0x80000000#32 0x7FFFFFFF#32 0#32).readReg 5).toInt < ((tc 0#32 0x80000000#32 0x7FFFFFFF#32 0#32).readReg 6).toInt
    ∧ ((tc 0#32 0x80000000#32 0x7FFFFFFF#32 0#32).readReg 6).toNat < ((tc 0#32 0x80000000#32 0x7FFFFFFF#32 0#32).readReg 5).toNat := by
  decide

theorem witness_PseudoBranchesKeepTheComparison :
    (tc 0#32 0#32 1#32 0#32).readReg 5 = 0#32 ∧ (tc 0#32 0#32 1#32 0#32).readReg 6 ≠ 0#32
      ∧ ((tc 0#32 0x80000000#32 1#32 0#32).readReg 5).toInt < 0 ∧ 0 < ((tc 0#32 0x80000000#32 1#32 0#32).readReg 6).toInt := by
  decide

theorem witness_JalLinksAndJumps : jumpOffsetEven 1048574#21 = true ∧ jumpOffsetEven 1048576#21 = true := by decide

/-- The ends of the short range, and the first constant past each. -/
theorem witness_LoadImmediateLoadsTheConstant :
    (-2048 ≤ (0xFFFFF800#32 : Word).toInt ∧ (0xFFFFF800#32 : Word).toInt ≤ 2047)
      ∧ (-2048 ≤ (0x7FF#32 : Word).toInt ∧ (0x7FF#32 : Word).toInt ≤ 2047)
      ∧ ¬(-2048 ≤ (0x800#32 : Word).toInt ∧ (0x800#32 : Word).toInt ≤ 2047)
      ∧ ¬(-2048 ≤ (0xFFFFF7FF#32 : Word).toInt ∧ (0xFFFFF7FF#32 : Word).toInt ≤ 2047) := by decide

theorem witness_BreakpointReportsTrapOrPropagates :
    (configWf atBreak.cfg ∧ dispatches atBreak .ebreak ∧ atBreak.runState = .running)
      ∧ (configWf steppedBreak.cfg ∧ dispatches steppedBreak .ebreak ∧ steppedBreak.runState = .debugSuspended
          ∧ steppedBreak.debugCommands = [.dbgStep]) := by
  unfold dispatches guardPasses fetchable; decide

/-- The exit comes as an input; that it comes as the free value when there is none, nothing shuts out and nothing shows. -/
theorem witness_EcallExitHaltsWithTheCode :
    (hostAt 0x00000073#32 [.exit 5#32]).cfg.bridge = .host
      ∧ (hostAt 0x00000073#32 [.exit 5#32]).hostAnswer ((hostAt 0x00000073#32 [.exit 5#32]).readReg 17)
          ((hostAt 0x00000073#32 [.exit 5#32]).readReg 10) = .exit 5#32
      ∧ (hostAt 0x00000073#32 [.exit 5#32]).bridgeAnswers ≠ [] ∧ (hostAt 0x00000073#32 []).bridgeAnswers = [] :=
  ⟨rfl, rfl, by decide, rfl⟩

/-- No answer given; an empty `Continue`; a mapped and an unmapped load; a store that succeeds and one that fails. -/
theorem witness_EcallContinueAppliesTheAccesses :
    ((hostAt 0x00000073#32 []).cfg.bridge = .host ∧ (hostAt 0x00000073#32 []).bridgeAnswers = [])
      ∧ (hostAt 0x00000073#32 [.continue []]).bridgeAnswers = [.continue []]
      ∧ holdsRange (hostAt 0x00000073#32 []) (0x000200FC#32 : Word).toNat Width.word.bytes
      ∧ ¬holdsRange (hostAt 0x00000073#32 []) (0x000200FF#32 : Word).toNat Width.half.bytes
      ∧ (∃ t, (hostAt 0x00000073#32 []).memWrite 0x000200FF#32 .byte 1#32 = .ok t)
      ∧ (∃ F, (hostAt 0x00000073#32 []).memWrite 0x00020100#32 .byte 1#32 = .error F) :=
  ⟨by decide, by decide, by unfold holdsRange; decide, by unfold holdsRange; decide, ⟨_, rfl⟩, ⟨_, rfl⟩⟩

theorem witness_TheBridgeKeepsItsContract : configWf (hostAt 0x00000073#32 []).cfg
    ∧ (hostAt 0x00000073#32 []).cfg.bridge = .host := by decide

theorem witness_ReferenceBridgeExitsOnNinetyThree :
    ((exitCall 5#32).cfg.bridge = .reference ∧ (exitCall 5#32).readReg 17 = 93#32)
      ∧ ((tc 0x00000073#32 0#32 0#32 0#32).cfg.bridge = .reference
          ∧ (tc 0x00000073#32 0#32 0#32 0#32).readReg 17 ≠ 93#32) := by decide

theorem witness_DecodedOperandsNeverFailToParse :
    Instr.wf (.bgeu 1 2 (BitVec.ofInt 13 (-4096))) = true ∧ Instr.wf (.jal 0 1048574#21) = true := by decide

theorem witness_MalformedOperandsRaiseParse :
    parseAbstract (tc 0#32 0#32 0#32 0#32).pc ⟨.addi, [.reg 5, .reg 6, .imm 2048]⟩ = none
      ∧ parseAbstract (tc 0#32 0#32 0#32 0#32).pc ⟨.addi, [.reg 5, .reg 6, .imm 2047]⟩ = some (.addi 5 6 2047#12) := by decide

/-- Held; about to be resumed; below the stack guard; and past it, running or stepped by the Debugger. -/
theorem witness_AHandedInstructionFollowsTheCycle :
    (configWf exited.cfg ∧ exited.runState = .halted)
      ∧ ((suspended []).runState = .debugSuspended ∧ (suspended []).debugCommands = [])
      ∧ (suspended [.dbgResume]).debugCommands = [.dbgResume]
      ∧ (stepping ((tc 0#32 0#32 0#32 0#32).writeReg 2 0x00030FFF#32)
          ∧ ¬guardPasses ((tc 0#32 0#32 0#32 0#32).writeReg 2 0x00030FFF#32))
      ∧ (stepping ((tc 0#32 0#32 0#32 0#32).writeReg 2 0x00031000#32)
          ∧ guardPasses ((tc 0#32 0#32 0#32 0#32).writeReg 2 0x00031000#32))
      ∧ (configWf steppedBreak.cfg ∧ stepping steppedBreak ∧ guardPasses steppedBreak) := by
  refine ⟨by decide, by decide, rfl, ⟨.inl rfl, ?_⟩, ⟨.inl rfl, ?_⟩, by decide, .inr ⟨rfl, _, rfl⟩, ?_⟩ <;>
    (unfold guardPasses; decide)

/-- A program of two sections, one fixed and one relocatable. -/
def bootInput : BootInput :=
  { bootInputAtReset with sections := [{ label := "text", placement := .fixed 0x00010000, readOnly := true, exec := true, bytes := [0x13#8, 0x05#8, 0x50#8, 0x00#8] }, { label := "data", placement := .relocatable, readOnly := false, exec := false, bytes := [0#8, 7#8] }] }

/-- The relocatable section stands at RELOC_BASE, above the fixed one, and the stack above it, rounded up to a multiple of 4
(R322); the map this gives is well-formed. -/
theorem witness_bootInput_placed : placedAt bootInput [0x00010000, 0x00030000]
    ∧ leastFree bootInput.relocBase (programAt bootInput [0x00010000, 0x00030000]) 0x00030004
    ∧ configWf (configAt bootInput [0x00010000, 0x00030000] 0x00030004) := by
  refine ⟨⟨rfl, fun k h hb => ?_⟩, ⟨by decide, fun n h4 hr hT => ?_⟩, by decide⟩
  · match k, h with
    | 0, _ => rfl
    | 1, _ =>
      show leastFree _ _ 0x00030000
      exact ⟨by decide, fun n _ hr _ => hr⟩
    | k + 2, h => exact absurd h (by simp [bootInput])
  · have : 0x00030002 ≤ n := hT { name := .program "data", base := 0x00030000, size := 2, readOnly := false, exec := false } (by decide)
    omega

/-- For the reset values and for the invariant after boot. -/
theorem witness_BootGivesTheResetValues : ∃ s, boot bootInput = .ok s ∧ s.byteAt 0x00010002 = 0x50#8
    ∧ s.byteAt 0x00030001 = 7#8 := ⟨_, rfl, by decide, by decide⟩

/-- The first multiple of 4 above one section that ends at one, RELOC_BASE being below it. -/
theorem leastFree_oneWordSection (base : Nat) (h : base % 4 = 0) : leastFree 0 [oneWordSection base] (base + 4) :=
  ⟨⟨by omega, by omega, by simp [oneWordSection]⟩, fun n _ _ hT => hT (oneWordSection base) (by simp)⟩

theorem witness_LoadSectionPlacesAsDeclaredOrAbove :
    (0xFFFFFFF1 + (windowSection .periph0 ⟨0, 16⟩).size > 2 ^ 32)
      ∧ (0xFFFFFFF0 + (windowSection .periph0 ⟨0, 16⟩).size ≤ 2 ^ 32)
      ∧ (∃ T ∈ tcConfig.map, ¬sectionsApart { windowSection .periph0 ⟨0, 16⟩ with base := 0x0001001F } T)
      ∧ (∀ T ∈ tcConfig.map, sectionsApart { windowSection .periph0 ⟨0, 16⟩ with base := 0x00010020 } T)
      ∧ (leastFree 0 [oneWordSection 0xFFFFFFEC] 0xFFFFFFF0
          ∧ 0xFFFFFFF0 + (windowSection .periph0 ⟨0, 16⟩).size ≤ 2 ^ 32)
      ∧ (leastFree 0 [oneWordSection 0xFFFFFFF0] 0xFFFFFFF4
          ∧ 0xFFFFFFF4 + (windowSection .periph0 ⟨0, 16⟩).size > 2 ^ 32) :=
  ⟨by decide, by decide, by decide, by decide, ⟨leastFree_oneWordSection 0xFFFFFFEC (by decide), by decide⟩,
    ⟨leastFree_oneWordSection 0xFFFFFFF0 (by decide), by decide⟩⟩

theorem witness_PlacedWordRunsFirstAfterReset : decodeWord 0x00500513#32 = .ok (.addi 10 0 5#12) := by decide

theorem witness_DebuggerInspectsOnlyWhileSuspended :
    (suspended []).runState = .debugSuspended ∧ atBreak.runState ≠ .debugSuspended := by decide

end Sys2Proof.Tests
end

section
/-! PROOFS. The statements about the state (spec/10_state.md). First what every proof about a step uses: which step a
transition is, and what its operations carry from the state a step starts in to the one it ends in. -/

namespace Sys2Proof.Machine

/-! ### The step a transition is -/

/-- The guard of the cycle is the guard of the statements (R122). -/
theorem guardFires_eq_false_iff (s : State) : s.guardFires = false ↔ guardPasses s := by
  unfold State.guardFires
  rw [decide_eq_false_iff_not, Nat.not_lt]
  rfl

/-- A fetched word that decodes is what the step dispatches (R120, R125). -/
theorem dispatches_of_fetch {s : State} {w : Word} {i : Instr} (hg : s.guardFires = false) (hf : s.fetch s.pc = .ok w)
    (hd : decodeWord w = .ok i) : dispatches s i := by
  obtain ⟨hal, ⟨S, hS, hx⟩, hw⟩ := State.fetch_ok hf
  obtain ⟨hmem, hlo, hhi⟩ := resolve_some hS
  refine ⟨(guardFires_eq_false_iff s).mp hg, ⟨hal, S, hmem, hlo, hhi, hx⟩, ?_⟩
  have hbytes : wordOfBytes (bytesAtPc s) = w := hw.symm
  simp only [bytesAtPc] at hbytes ⊢
  simp only [decode, hbytes, hd]

/-- The command a debugger has given is no part of what is dispatched. -/
theorem dispatches_commandTaken {s : State} {i : Instr} : dispatches (commandTaken s) i ↔ dispatches s i := by
  simp [dispatches, guardPasses, fetchable, bytesAtPc]

/-- The next state of an engine step: the guard's fault, or, the cycle counted, a fault of the fetch or of an unknown word,
or what the handler of the dispatched instruction answers. -/
theorem engineStep_next {s t : State} (h : engineStep s = .next t) :
    (s.guardFires = true ∧ ∃ F, t = s.takeFault F)
    ∨ (s.guardFires = false ∧ ((∃ F, t = s.countCycle.takeFault F) ∨ (∃ F, t = s.countCycle.advancePc.takeFault F)
        ∨ ∃ i, dispatches s i ∧ exec i s.countCycle.advancePc = .next t)) := by
  rcases engineStep_cases s with ⟨hg, he⟩ | ⟨F, hg, -, he⟩ | ⟨w, hg, -, -, he⟩ | ⟨w, i, hg, hf, hd, he⟩ <;> rw [he] at h
  · cases h; exact .inl ⟨hg, _, rfl⟩
  · cases h; exact .inr ⟨hg, .inl ⟨F, rfl⟩⟩
  · cases h; exact .inr ⟨hg, .inr (.inl ⟨_, rfl⟩)⟩
  · exact .inr ⟨hg, .inr (.inr ⟨i, dispatches_of_fetch hg hf hd, h⟩)⟩

/-- The next state of a machine: the same one, a resumed one, or the next state of its engine. -/
theorem step_next {s t : State} (h : step s = .next t) :
    (¬stepping s ∧ t = s)
    ∨ (¬stepping s ∧ ∃ rest, s.runState = .debugSuspended ∧ s.debugCommands = .dbgResume :: rest
        ∧ t = ({ s with debugCommands := rest }).resumeFromDebug)
    ∨ (stepping s ∧ engineStep (commandTaken s) = .next t) := by
  obtain ⟨hc, hcase⟩ := step_cases h
  have hstep : stepping s → engineStep (commandTaken s) = .next t := fun hs => step_of_stepping hc hs ▸ h
  rcases hcase with ⟨hr, ht⟩ | ⟨hr, -⟩ | ⟨hr, hd, ht⟩ | ⟨rest, hr, hd, -⟩ | ⟨rest, hr, hd, ht⟩
  · exact .inl ⟨by simp [stepping, hr], ht⟩
  · exact .inr (.inr ⟨.inl hr, hstep (.inl hr)⟩)
  · exact .inl ⟨by simp [stepping, hr, hd], ht⟩
  · exact .inr (.inr ⟨.inr ⟨hr, rest, hd⟩, hstep (.inr ⟨hr, rest, hd⟩)⟩)
  · exact .inr (.inl ⟨by simp [stepping, hr, hd], rest, hr, hd, ht⟩)

/-- A machine whose engine steps has not halted. -/
theorem stepping.not_halted {s : State} (h : stepping s) : s.runState ≠ .halted := by
  rcases h with h | ⟨h, -⟩ <;> simp [h]

/-! ### What a handler carries -/

/-- What the operations of the handler of `i` do with a property `P` of the states it works in and a property `Q` of those
it ends in: its writes keep `P`, and completion, a fault, an exit and the debug trap each lead from `P` to `Q`. Only `ecall`
exits, and only `ebreak` traps. -/
structure Carries (i : Instr) (P Q : State → Prop) : Prop where
  writeReg : ∀ s r v, P s → P (s.writeReg r v)
  writePc : ∀ s target, P s → P (s.writePc target)
  memWrite : ∀ s t addr width v, State.memWrite s addr width v = .ok t → P s → P t
  useAnswer : ∀ s, P s → P s.useAnswer
  complete : ∀ s, P s → Q s
  takeFault : ∀ s F, P s → Q (s.takeFault F)
  takeExit : i = .ecall → ∀ s code, P s → Q (s.takeExit code)
  takeDebugTrap : i = .ebreak → ∀ s, P s → Q s.takeDebugTrap

variable {i : Instr} {P Q : State → Prop} {s t : State}

/-- What an `ecall` carries through the Bridge's answer. -/
theorem Carries.applyAnswer (h : Carries .ecall P Q) (a : BridgeAnswer) (hs : P s) : Q (s.applyAnswer a) := by
  match a with
  | .exit code => exact h.takeExit rfl s code hs
  | .continue acts =>
    rcases State.bridgeActs_keeps P h.writeReg h.memWrite acts s hs with hP | ⟨u, addr, width, kind, reason, hu, he⟩
    · exact h.complete _ hP
    · exact (show State.applyAnswer s (.continue acts) = _ from he) ▸ h.takeFault u _ hu

/-- What a handler's operations carry, the handler carries. -/
theorem Carries.exec (h : Carries i P Q) (he : exec i s = .next t) (hs : P s) : Q t := by
  rcases exec_cases he with ⟨rd, v, rfl⟩ | ⟨rd, v, target, rfl⟩ | ⟨addr, width, v, hw⟩
    | ⟨addr, width, kind, reason, -, rfl⟩ | ⟨rfl, -, rfl⟩ | ⟨rfl, -, -, rfl⟩ | ⟨rfl, rfl⟩
  · exact h.complete _ (h.writeReg s rd v hs)
  · exact h.complete _ (h.writePc _ target (h.writeReg s rd v hs))
  · exact h.complete _ (h.memWrite s t addr width v hw hs)
  · exact h.takeFault s _ hs
  · exact h.applyAnswer _ (h.useAnswer s hs)
  · exact h.takeExit rfl s _ hs
  · exact h.takeDebugTrap rfl s hs

/-- What every handler carries, a step of the engine carries, if it holds before and after the cycle is counted. -/
theorem Carries.engineStep (h : ∀ i, Carries i P Q) (he : engineStep s = .next t) (hs : P s) (hc : P s.countCycle) :
    Q t := by
  have hp : P s.countCycle.advancePc := (h .ecall).writePc _ _ hc
  rcases engineStep_next he with ⟨-, F, rfl⟩ | ⟨-, ⟨F, rfl⟩ | ⟨F, rfl⟩ | ⟨i, -, hi⟩⟩
  · exact (h .ecall).takeFault _ F hs
  · exact (h .ecall).takeFault _ F hc
  · exact (h .ecall).takeFault _ F hp
  · exact (h i).exec hi hp

end Sys2Proof.Machine

/-! ### The invariant -/

namespace Sys2Proof.Machine

variable {s t : State}

/-- The invariant of a state in which the engine has not ended: as `Inv`, with no fault recorded and no exit code. -/
structure Unended (s : State) : Prop where
  map : configWf s.cfg
  memory : Memory.wf s.mem
  held : ∀ c ∈ s.mem, mapped s.cfg.map c.1 = true
  zero : s.x[0] = 0#32
  noFault : s.fault = none
  noExit : s.exitCode = 0#32

/-- A state that meets the invariant and has not halted has recorded no fault and no exit code. -/
theorem Inv.unended (h : Inv s) (hr : s.runState ≠ .halted) : Unended s :=
  ⟨h.map, h.memory, h.held, h.zero, by_contra fun hf => hr (h.faulted hf), by_contra fun hx => hr (h.exited hx).1⟩

theorem Unended.inv (h : Unended s) : Inv s :=
  ⟨h.map, h.memory, h.held, h.zero, fun hf => absurd h.noFault hf, fun hx => absurd h.noExit hx⟩

/-- The other registers, pc, the engine state, the counter and the agents' inputs have no part in `Unended`. -/
theorem Unended.congr (h : Unended s) (hx : t.x[0] = s.x[0]) (hm : t.mem = s.mem) (hc : t.cfg = s.cfg)
    (hf : t.fault = s.fault) (he : t.exitCode = s.exitCode) : Unended t :=
  ⟨hc ▸ h.map, hm ▸ h.memory, hm ▸ hc ▸ h.held, hx.trans h.zero, hf ▸ h.noFault, he ▸ h.noExit⟩

theorem Unended.inv_takeFault (h : Unended s) (F : Fault) : Inv (s.takeFault F) :=
  ⟨h.map, h.memory, h.held, h.zero, fun _ => rfl, fun hx => absurd h.noExit hx⟩

theorem Unended.inv_takeExit (h : Unended s) (code : Word) : Inv (s.takeExit code) :=
  ⟨h.map, h.memory, h.held, h.zero, fun _ => rfl, fun _ => ⟨rfl, h.noFault⟩⟩

theorem Unended.memWrite {addr v : Word} {width : Width} (hw : s.memWrite addr width v = .ok t) (h : Unended s) :
    Unended t := by
  have hmem := State.memWrite_wf hw h.memory
  have hheld := State.memWrite_held hw h.held
  obtain ⟨S, -, -, rfl⟩ := State.memWrite_ok hw
  exact ⟨h.map, hmem, hheld, h.zero, h.noFault, h.noExit⟩

/-- Every handler that starts from an engine that has not ended ends in the invariant. -/
theorem carries_unended_inv (i : Instr) : Carries i Unended Inv where
  writeReg s r v h := h.congr (by simp) (by simp) (by simp) (by simp) (by simp)
  writePc _ _ h := h.congr rfl rfl rfl rfl rfl
  memWrite _ _ _ _ _ hw h := h.memWrite hw
  useAnswer s h := h.congr (by simp) (by simp) (by simp) (by simp) (by simp)
  complete _ h := h.inv
  takeFault _ F h := h.inv_takeFault F
  takeExit _ _ code h := h.inv_takeExit code
  takeDebugTrap _ s h := (h.congr (t := s.takeDebugTrap) rfl rfl rfl rfl rfl).inv

/-- Settles O27: a halted or held machine stays as it is, a resumed one loses nothing of the invariant, and a step of the
engine, which starts unended, ends in it. -/
theorem stepKeepsInv : Obligations.StepKeepsInv := by
  intro s t hinv h
  rcases step_next h with ⟨-, rfl⟩ | ⟨-, rest, hr, -, rfl⟩ | ⟨hs, he⟩
  · exact hinv
  · exact Unended.inv (Unended.congr (hinv.unended (by simp [hr])) rfl rfl rfl rfl rfl)
  · have hu : Unended (commandTaken s) :=
      (hinv.unended hs.not_halted).congr (by simp) (by simp) (by simp) (by simp) (by simp)
    exact Carries.engineStep carries_unended_inv he hu (hu.congr rfl rfl rfl rfl rfl)

/-- Settles O28: the configuration of the state after reset is well-formed, and its memory lists nothing. -/
theorem resetMeetsInv : Obligations.ResetMeetsInv where
  map := by decide
  memory := reset_memory_wf
  held := by decide
  zero := by decide
  faulted := by decide
  exited := by decide

/-! ### Code and configuration -/

/-- `t` has the configuration of `s` and the bytes of its read-only sections (R28, R46). -/
def keepsCode (s t : State) : Prop :=
  t.cfg = s.cfg ∧ ∀ S ∈ s.cfg.map, S.readOnly = true → ∀ a, S.base ≤ a → a < S.base + S.size → t.byteAt a = s.byteAt a

/-- Only memory and the configuration have a part in `keepsCode`. -/
theorem keepsCode.congr {u : State} (h : keepsCode s t) (hc : u.cfg = t.cfg) (hb : ∀ a, u.byteAt a = t.byteAt a) :
    keepsCode s u :=
  ⟨hc.trans h.1, fun S hS hro a hlo hhi => (hb a).trans (h.2 S hS hro a hlo hhi)⟩

/-- A write that succeeds is outside every read-only section (R46). -/
theorem keepsCode.memWrite {u : State} {addr v : Word} {width : Width} (hp : s.cfg.map.Pairwise sectionsApart)
    (hw : t.memWrite addr width v = .ok u) (h : keepsCode s t) : keepsCode s u := by
  obtain ⟨hcfg, hbytes⟩ := h
  have hu : u.cfg = t.cfg := by obtain ⟨S, -, -, rfl⟩ := State.memWrite_ok hw; rfl
  refine ⟨hu.trans hcfg, fun S hS hro a hlo hhi => ?_⟩
  exact (State.memWrite_readOnly (hcfg ▸ hp) hw (hcfg ▸ hS) hro hlo hhi).trans (hbytes S hS hro a hlo hhi)

/-- Every handler keeps code and configuration, an `ecall` in which the Bridge writes included (R63). -/
theorem carries_keepsCode (hp : s.cfg.map.Pairwise sectionsApart) (i : Instr) : Carries i (keepsCode s) (keepsCode s) where
  writeReg _ _ _ h := h.congr (by simp) (by simp)
  writePc _ _ h := h.congr rfl (fun _ => rfl)
  memWrite _ _ _ _ _ hw h := h.memWrite hp hw
  useAnswer _ h := h.congr (by simp) (by simp)
  complete _ h := h
  takeFault _ _ h := h.congr rfl (fun _ => rfl)
  takeExit _ _ _ h := h.congr rfl (fun _ => rfl)
  takeDebugTrap _ _ h := h.congr rfl (fun _ => rfl)

/-- Settles O29: the engine writes memory through `memWrite` alone, which leaves read-only sections alone, and no operation
writes the configuration. -/
theorem codeAndConfigurationNeverChange : Obligations.CodeAndConfigurationNeverChange := by
  intro s t h
  have hp : s.cfg.map.Pairwise sectionsApart := (step_cases h).1.1
  have hself : keepsCode s s := ⟨rfl, fun _ _ _ _ _ _ => rfl⟩
  show keepsCode s t
  rcases step_next h with ⟨-, rfl⟩ | ⟨-, rest, -, -, rfl⟩ | ⟨-, he⟩
  · exact hself
  · exact hself.congr rfl (fun _ => rfl)
  · have hc : keepsCode s (commandTaken s) := hself.congr (by simp) (by simp)
    exact Carries.engineStep (carries_keepsCode hp) he hc (hc.congr rfl (fun _ => rfl))

end Sys2Proof.Machine
end

section
/-! PROOFS. What a step does with the counter, the engine state and the exit code; a register write; the Debugger's view. -/

namespace Sys2Proof.Machine

/-! ### The counter has no functional effect -/

/-- The same state at another count. -/
def State.withCycle (s : State) (n : Nat) : State := { s with cycle := n }

/-- Change the next state of an outcome, if there is one. -/
def mapNext (f : State → State) : Host.Outcome State Fault Refusal → Host.Outcome State Fault Refusal
  | .next s => .next (f s)
  | .fault F => .fault F
  | .refused r => .refused r

@[simp] theorem mapNext_next (f : State → State) (s : State) : mapNext f (.next s) = .next (f s) := rfl

variable (s : State) (n : Nat)

@[simp] theorem State.withCycle_runState : (s.withCycle n).runState = s.runState := rfl
@[simp] theorem State.withCycle_exitCode : (s.withCycle n).exitCode = s.exitCode := rfl
@[simp] theorem State.withCycle_cfg : (s.withCycle n).cfg = s.cfg := rfl
@[simp] theorem State.withCycle_debugCommands : (s.withCycle n).debugCommands = s.debugCommands := rfl
@[simp] theorem State.withCycle_readReg (r : Reg) : (s.withCycle n).readReg r = s.readReg r := rfl
@[simp] theorem State.withCycle_memRead (addr : Word) (width : Width) :
    (s.withCycle n).memRead addr width = s.memRead addr width := rfl
@[simp] theorem State.withCycle_fetch (addr : Word) : (s.withCycle n).fetch addr = s.fetch addr := rfl
@[simp] theorem State.withCycle_guardFires : (s.withCycle n).guardFires = s.guardFires := rfl
@[simp] theorem State.withCycle_hostAnswer (num arg : Word) :
    (s.withCycle n).hostAnswer num arg = s.hostAnswer num arg := rfl
@[simp] theorem State.withCycle_takeFault (F : Fault) : (s.withCycle n).takeFault F = (s.takeFault F).withCycle n := rfl
@[simp] theorem State.withCycle_takeExit (code : Word) :
    (s.withCycle n).takeExit code = (s.takeExit code).withCycle n := rfl
@[simp] theorem State.withCycle_advancePc : (s.withCycle n).advancePc = s.advancePc.withCycle n := rfl
@[simp] theorem State.withCycle_countCycle : (s.withCycle n).countCycle = s.countCycle.withCycle (n + 1) := rfl

@[simp] theorem State.withCycle_writeReg (r : Reg) (v : Word) :
    (s.withCycle n).writeReg r v = (s.writeReg r v).withCycle n := by
  unfold State.writeReg; split <;> rfl

@[simp] theorem State.withCycle_useAnswer : (s.withCycle n).useAnswer = s.useAnswer.withCycle n := by
  unfold State.useAnswer
  cases h : s.bridgeAnswers <;> simp [State.withCycle, h]

/-- A write from another count is the same write, at that count. -/
@[simp] theorem State.withCycle_memWrite (addr v : Word) (width : Width) :
    (s.withCycle n).memWrite addr width v = (s.memWrite addr width v).map (·.withCycle n) := by
  simp only [State.memWrite, State.withCycle_cfg]
  cases resolve s.cfg.map addr.toNat width.bytes with
  | none => rfl
  | some S => cases h : S.readOnly <;> simp [h, Except.map, State.withCycle]

/-- The Bridge's accesses do not read the count. -/
@[simp] theorem State.withCycle_bridgeActs (acts : List BridgeAct) :
    ∀ s : State, State.bridgeActs acts (s.withCycle n) = (State.bridgeActs acts s).withCycle n := by
  induction acts with
  | nil => intro s; rfl
  | cons act acts ih =>
    intro s
    cases act with
    | setReg r v => simp only [State.bridgeActs, State.withCycle_writeReg, ih]
    | load addr width =>
      simp only [State.bridgeActs, State.withCycle_memRead]
      cases s.memRead addr width with
      | ok v => exact ih s
      | error F => rfl
    | store addr width v =>
      simp only [State.bridgeActs, State.withCycle_memWrite]
      cases s.memWrite addr width v with
      | ok t => exact ih t
      | error F => rfl

@[simp] theorem State.withCycle_applyAnswer (a : BridgeAnswer) :
    (s.withCycle n).applyAnswer a = (s.applyAnswer a).withCycle n := by
  match a with
  | .exit code => rfl
  | .continue acts => exact State.withCycle_bridgeActs n acts s

/-! The handlers of each shape, from another count. -/

theorem giveResult_withCycle (rd : Reg) (v : Word) :
    giveResult rd v (s.withCycle n) = mapNext (·.withCycle n) (giveResult rd v s) := by
  simp [giveResult]

theorem branchIf_withCycle (c : Bool) (target : Word) :
    branchIf c target (s.withCycle n) = mapNext (·.withCycle n) (branchIf c target s) := by
  cases c <;> rfl

theorem jumpAndLink_withCycle (rd : Reg) (target : Word) :
    jumpAndLink rd target (s.withCycle n) = mapNext (·.withCycle n) (jumpAndLink rd target s) := by
  simp only [jumpAndLink, State.withCycle_writeReg]; rfl

theorem loadInto_withCycle (rd : Reg) (ea : Word) (width : Width) (extend : Word → Word) :
    loadInto rd ea width extend (s.withCycle n) = mapNext (·.withCycle n) (loadInto rd ea width extend s) := by
  simp only [loadInto, State.withCycle_memRead]
  cases s.memRead ea width <;> simp

theorem storeFrom_withCycle (v ea : Word) (width : Width) :
    storeFrom v ea width (s.withCycle n) = mapNext (·.withCycle n) (storeFrom v ea width s) := by
  simp only [storeFrom, State.withCycle_memWrite]
  cases s.memWrite ea width v <;> rfl

theorem execEcall_withCycle : execEcall (s.withCycle n) = mapNext (·.withCycle n) (execEcall s) := by
  simp only [execEcall, State.withCycle_cfg, State.withCycle_readReg]
  cases s.cfg.bridge with
  | host => simp
  | reference => cases referenceBridge (s.readReg sysNumReg) (s.readReg sysArgReg) <;> simp [mapNext]

/-- Every handler answers the same from another count, at that count. -/
theorem exec_withCycle (i : Instr) : exec i (s.withCycle n) = mapNext (·.withCycle n) (exec i s) := by
  cases i with
  | lui | auipc | addi | slti | sltiu | xori | ori | andi | slli | srli | srai | add | sub | sll | slt | sltu | xor
  | srl | sra | or | and => exact giveResult_withCycle s n _ _
  | jal | jalr => exact jumpAndLink_withCycle s n _ _
  | beq | bne | blt | bge | bltu | bgeu => exact branchIf_withCycle s n _ _
  | lb | lh | lbu | lhu => exact loadInto_withCycle s n _ _ _ _
  | sb | sh => exact storeFrom_withCycle s n _ _ _
  | lw rd rs1 imm =>
    show execLw rd rs1 imm (s.withCycle n) = mapNext _ (execLw rd rs1 imm s)
    unfold execLw
    rw [show effectiveAddress (s.withCycle n) rs1 imm = effectiveAddress s rs1 imm from rfl]
    split
    · exact loadInto_withCycle s n _ _ _ _
    · rfl
  | sw rs2 rs1 imm =>
    show execSw rs2 rs1 imm (s.withCycle n) = mapNext _ (execSw rs2 rs1 imm s)
    unfold execSw
    rw [show effectiveAddress (s.withCycle n) rs1 imm = effectiveAddress s rs1 imm from rfl]
    split
    · exact storeFrom_withCycle s n _ _ _
    · rfl
  | ecall => exact execEcall_withCycle s n
  | ebreak => rfl

/-- The engine answers the same from another count, at a count of its own. -/
theorem engineStep_withCycle : ∃ m, engineStep (s.withCycle n) = mapNext (·.withCycle m) (engineStep s) := by
  unfold engineStep guarded
  rw [State.withCycle_guardFires]
  cases s.guardFires with
  | true => exact ⟨n, rfl⟩
  | false =>
    refine ⟨n + 1, ?_⟩
    simp only [Bool.false_eq_true, if_false, State.withCycle_countCycle, fetchAndRun]
    rw [show (s.countCycle.withCycle (n + 1)).fetch (s.countCycle.withCycle (n + 1)).pc
      = s.countCycle.fetch s.countCycle.pc from rfl]
    cases s.countCycle.fetch s.countCycle.pc with
    | error F => rfl
    | ok w =>
      cases hd : decodeWord w with
      | error e => simp only [hd]; rfl
      | ok i => simp only [hd]; exact exec_withCycle s.countCycle.advancePc (n + 1) i

/-- So does the whole machine. -/
theorem step_withCycle : ∃ m, step (s.withCycle n) = mapNext (·.withCycle m) (step s) := by
  unfold step machineStep transition
  rw [State.withCycle_cfg, State.withCycle_runState, State.withCycle_debugCommands]
  split
  · cases s.runState with
    | halted => exact ⟨n, rfl⟩
    | running => exact engineStep_withCycle s n
    | debugSuspended =>
      cases s.debugCommands with
      | nil => exact ⟨n, rfl⟩
      | cons c rest =>
        cases c with
        | dbgStep => exact engineStep_withCycle { s with runState := .debugSuspended, debugCommands := rest } n
        | dbgResume => exact ⟨n, rfl⟩
  · exact ⟨n, rfl⟩

/-- What the engine reports does not read the count. -/
theorem engineReport_withCycle : engineReport (s.withCycle n) = engineReport s := by
  obtain ⟨m, hm⟩ := engineStep_withCycle s n
  unfold engineReport
  rw [hm]
  cases engineStep s <;> rfl

theorem stepReport_withCycle : stepReport (s.withCycle n) = stepReport s := by
  unfold stepReport
  rw [State.withCycle_runState, State.withCycle_debugCommands]
  cases s.runState with
  | halted => rfl
  | running => exact engineReport_withCycle s n
  | debugSuspended =>
    cases s.debugCommands with
    | nil => rfl
    | cons c rest =>
      cases c with
      | dbgStep => exact engineReport_withCycle { s with runState := .debugSuspended, debugCommands := rest } n
      | dbgResume => rfl

/-- Settles O22: every operation commutes with a change of the count, so the step and its report do. -/
theorem cycleHasNoFunctionalEffect : Obligations.CycleHasNoFunctionalEffect := by
  intro s t n h
  obtain ⟨m, hm⟩ := step_withCycle s n
  exact ⟨m, by rw [h] at hm; exact hm, stepReport_withCycle s n⟩

end Sys2Proof.Machine

namespace Sys2Proof.Machine

variable {i : Instr} {s t : State}

/-! ### The counter -/

/-- No handler writes the counter. -/
theorem carries_cycle (n : Nat) (i : Instr) : Carries i (fun u => u.cycle = n) (fun u => u.cycle = n) where
  writeReg _ _ _ h := by simpa using h
  writePc _ _ h := h
  memWrite _ _ _ _ _ hw h := by obtain ⟨S, -, -, rfl⟩ := State.memWrite_ok hw; exact h
  useAnswer _ h := by simpa using h
  complete _ h := h
  takeFault _ _ h := h
  takeExit _ _ _ h := h
  takeDebugTrap _ _ h := h

/-- An engine step counts 1 when the guard passes, and nothing when it fires (R123). -/
theorem engineStep_cycle (h : engineStep s = .next t) :
    (guardPasses s → t.cycle = s.cycle + 1) ∧ (¬guardPasses s → t.cycle = s.cycle) := by
  rw [← guardFires_eq_false_iff]
  rcases engineStep_next h with ⟨hg, F, rfl⟩ | ⟨hg, hrest⟩
  · exact ⟨fun hp => by simp [hg] at hp, fun _ => rfl⟩
  · refine ⟨fun _ => ?_, fun hn => absurd hg hn⟩
    rcases hrest with ⟨F, rfl⟩ | ⟨F, rfl⟩ | ⟨i, -, hi⟩
    · rfl
    · rfl
    · exact (carries_cycle (s.cycle + 1) i).exec hi rfl

/-- Settles O21: only the engine counts, once, after its guard has passed. -/
theorem cycleCountsFetchAttempts : Obligations.CycleCountsFetchAttempts := by
  intro s t h
  rcases step_next h with ⟨hs, rfl⟩ | ⟨hs, rest, -, -, rfl⟩ | ⟨hs, he⟩
  · exact ⟨fun hp => absurd hp.1 hs, fun _ => rfl⟩
  · exact ⟨fun hp => absurd hp.1 hs, fun _ => rfl⟩
  · have hguard : guardPasses (commandTaken s) ↔ guardPasses s := by simp [guardPasses]
    obtain ⟨hpass, hfire⟩ := engineStep_cycle he
    rw [hguard, commandTaken_cycle] at hpass hfire
    exact ⟨fun hp => hpass hp.2, fun hn => hfire fun hp => hn ⟨hs, hp⟩⟩

/-! ### The engine state -/

/-- A handler leaves the engine state as it is, or halts the engine, or is `ebreak`'s, which suspends it (R22). -/
theorem carries_runState (r : RunState) (i : Instr) :
    Carries i (fun u => u.runState = r)
      (fun u => u.runState = r ∨ u.runState = .halted ∨ (i = .ebreak ∧ u.runState = .debugSuspended)) where
  writeReg _ _ _ h := by simpa using h
  writePc _ _ h := h
  memWrite _ _ _ _ _ hw h := by obtain ⟨S, -, -, rfl⟩ := State.memWrite_ok hw; exact h
  useAnswer _ h := by simpa using h
  complete _ h := .inl h
  takeFault _ _ _ := .inr (.inl rfl)
  takeExit _ _ _ _ := .inr (.inl rfl)
  takeDebugTrap hi _ _ := .inr (.inr ⟨hi, rfl⟩)

/-- So does a step of the engine. -/
theorem engineStep_runState (h : engineStep s = .next t) :
    t.runState = s.runState ∨ t.runState = .halted ∨ (dispatches s .ebreak ∧ t.runState = .debugSuspended) := by
  rcases engineStep_next h with ⟨-, F, rfl⟩ | ⟨-, ⟨F, rfl⟩ | ⟨F, rfl⟩ | ⟨i, hd, hi⟩⟩
  · exact .inr (.inl rfl)
  · exact .inr (.inl rfl)
  · exact .inr (.inl rfl)
  · rcases (carries_runState s.runState i).exec hi rfl with hr | hr | ⟨rfl, hr⟩
    · exact .inl hr
    · exact .inr (.inl hr)
    · exact .inr (.inr ⟨hd, hr⟩)

/-- Settles O20: a halted machine stays as it is; a suspended one is made to run by `dbg_resume` alone, since an engine step
never makes an engine run; and an engine step suspends a running engine by `ebreak` alone. -/
theorem engineStateMovesOnlyAsAllowed : Obligations.EngineStateMovesOnlyAsAllowed := by
  intro s t h
  rcases step_next h with ⟨-, rfl⟩ | ⟨-, rest, hr, hd, rfl⟩ | ⟨hs, he⟩
  · exact ⟨id, fun h1 h2 => by simp [h1] at h2, fun h1 h2 => by simp [h1] at h2⟩
  · exact ⟨fun h1 => by simp [hr] at h1, fun _ _ => ⟨rest, hd⟩, fun h1 => by simp [hr] at h1⟩
  · have hmove := engineStep_runState he
    rw [commandTaken_runState, dispatches_commandTaken] at hmove
    refine ⟨fun h1 => absurd h1 hs.not_halted, fun h1 h2 => ?_, fun h1 h2 => ?_⟩
    · simp [h1, h2] at hmove
    · simpa [h1, h2] using hmove

/-! ### The exit code -/

/-- A handler that starts with exit code `e` and fault record `F` ends with that exit code, or is `ecall`'s and has halted
the engine without recording a fault (R263). -/
theorem carries_exitCode (e : Word) (F : Option Fault) (i : Instr) :
    Carries i (fun u => u.exitCode = e ∧ u.fault = F)
      (fun u => u.exitCode = e ∨ (i = .ecall ∧ u.runState = .halted ∧ u.fault = F)) where
  writeReg _ _ _ h := by simpa using h
  writePc _ _ h := h
  memWrite _ _ _ _ _ hw h := by obtain ⟨S, -, -, rfl⟩ := State.memWrite_ok hw; exact h
  useAnswer _ h := by simpa using h
  complete _ h := .inl h.1
  takeFault _ _ h := .inl h.1
  takeExit hi _ _ h := .inr ⟨hi, rfl, h.2⟩
  takeDebugTrap _ _ h := .inl h.1

/-- A step of the engine that changes the exit code dispatches `ecall` and ends halted without recording a fault. -/
theorem engineStep_exitCode (h : engineStep s = .next t) (hne : t.exitCode ≠ s.exitCode) :
    dispatches s .ecall ∧ t.runState = .halted ∧ t.fault = s.fault := by
  rcases engineStep_next h with ⟨-, F, rfl⟩ | ⟨-, ⟨F, rfl⟩ | ⟨F, rfl⟩ | ⟨i, hd, hi⟩⟩
  · exact absurd rfl hne
  · exact absurd rfl hne
  · exact absurd rfl hne
  · rcases (carries_exitCode s.exitCode s.fault i).exec hi ⟨rfl, rfl⟩ with he | ⟨rfl, hr, hf⟩
    · exact absurd he hne
    · exact ⟨hd, hr, hf⟩

/-- Settles O23: outside an engine step the exit code stays, and in one only an exit request writes it. -/
theorem onlyAnExitRequestWritesTheExitCode : Obligations.OnlyAnExitRequestWritesTheExitCode := by
  intro s t h hne
  rcases step_next h with ⟨-, rfl⟩ | ⟨-, rest, -, -, rfl⟩ | ⟨hs, he⟩
  · exact absurd rfl hne
  · exact absurd rfl hne
  · obtain ⟨hd, hr, hf⟩ := engineStep_exitCode he (by simpa using hne)
    exact ⟨hs, dispatches_commandTaken.mp hd, hr, by simpa using hf⟩

/-! ### A register write, and the Debugger's view -/

/-- Settles O7: the frame of a register write, `registerResult`, and the write to x0, which is discarded. -/
theorem registerWriteChangesThatRegisterAlone : Obligations.RegisterWriteChangesThatRegisterAlone := by
  intro s r v
  obtain ⟨hsame, hother, hmem, hcontrol⟩ := registerResult_writeReg s r v
  exact ⟨fun hr => by rw [hsame, if_neg hr], s.writeReg_zero v, hother, hmem, hcontrol, s.writeReg_pc r v⟩

/-- Settles O59: the two branches of `inspect`. -/
theorem debuggerInspectsOnlyWhileSuspended : Obligations.DebuggerInspectsOnlyWhileSuspended := by
  intro s
  refine ⟨fun hr => ⟨_, if_pos hr, fun r => ?_, rfl, rfl, fun _ => rfl, rfl⟩, fun hr => if_neg hr⟩
  exact Vector.getElem_ofFn r.isLt

end Sys2Proof.Machine
end

section
/-! PROOFS. The boot procedure (R321 to R323): that placement succeeds when its map is well-formed, and what memory holds
after it. -/

namespace Sys2Proof.Machine

variable {relocBase : Nat} {map map' : List MemSection} {mem mem' : Memory} {ps : List ProgramSection}

/-! ### Where placement puts a section -/

/-- The highest end is the least bound of `RELOC_BASE` and the sections' ends. -/
theorem highestEnd_le {n : Nat} (hr : relocBase ≤ n) (hT : ∀ T ∈ map, T.base + T.size ≤ n) :
    highestEnd relocBase map ≤ n := by
  induction map with
  | nil => exact hr
  | cons S map ih =>
    exact max_le (hT S (by simp)) (ih fun T h => hT T (by simp [h]))

/-- The base of a relocatable section is the first free multiple of 4 (R322). -/
theorem roundUp4_highestEnd_of_leastFree {b : Nat} (h : leastFree relocBase map b) :
    roundUp4 (highestEnd relocBase map) = b := by
  obtain ⟨⟨hb4, hbr, hbT⟩, hleast⟩ := h
  obtain ⟨hr, hT⟩ := le_highestEnd relocBase map
  obtain ⟨h4, hle, hlt⟩ := roundUp4_spec (highestEnd relocBase map)
  have hup : b ≤ roundUp4 (highestEnd relocBase map) :=
    hleast _ h4 (hr.trans hle) fun T h => (hT T h).trans hle
  have hdown : highestEnd relocBase map ≤ b := highestEnd_le hbr hbT
  omega

/-- The sections apart from each other, and each below 2^32: what a placement checks one by one (R322). -/
def placeable (map : List MemSection) : Prop := map.Pairwise sectionsApart ∧ ∀ S ∈ map, S.base + S.size ≤ 2 ^ 32

/-- A section that is placeable after those before it is placed at the base it asks for. -/
theorem loadSection_of_placeable {placement : Placement} {S : MemSection} {base : Nat} {rest : List MemSection}
    (hb : placementBase relocBase map placement = base) (h : placeable (map ++ { S with base := base } :: rest)) :
    loadSection relocBase map placement S = .ok { S with base := base } := by
  obtain ⟨hp, hsize⟩ := h
  have hfits : base + S.size ≤ 2 ^ 32 := hsize { S with base := base } (by simp)
  have hapart : ∀ T ∈ map, sectionsApart { S with base := base } T := fun T hT =>
    ((List.pairwise_append.mp hp).2.2 T hT _ (by simp)).symm
  rw [loadSection, hb, if_neg (by omega), if_pos hapart]

/-- The program sections at these bases. -/
def programPlaced (ps : List ProgramSection) (bases : List Nat) : List MemSection :=
  List.zipWith (fun p base => { p.request with base := base }) ps bases

/-- Each base is where placement puts its section, after `map` and the sections before it. -/
def placedFrom (relocBase : Nat) (map : List MemSection) (ps : List ProgramSection) (bases : List Nat) : Prop :=
  bases.length = ps.length ∧ ∀ k, (hk : k < ps.length) → (hb : k < bases.length) →
    placementBase relocBase (map ++ (programPlaced ps bases).take k) ps[k].placement = bases[k]

/-- The first section is placed after `map`, and the others after it. -/
theorem placedFrom_cons {p : ProgramSection} {base : Nat} {bases : List Nat}
    (h : placedFrom relocBase map (p :: ps) (base :: bases)) :
    placementBase relocBase map p.placement = base
      ∧ placedFrom relocBase (map ++ [{ p.request with base := base }]) ps bases := by
  obtain ⟨hlen, hat⟩ := h
  have hfirst : placementBase relocBase (map ++ []) p.placement = base := hat 0 (Nat.zero_lt_succ _) (Nat.zero_lt_succ _)
  rw [List.append_nil] at hfirst
  refine ⟨hfirst, Nat.succ.inj hlen, fun k hk hb => ?_⟩
  rw [List.append_assoc]
  exact hat (k + 1) (Nat.succ_lt_succ hk) (Nat.succ_lt_succ hb)

/-- The bases of `placedAt` are where placement puts the program's sections (R322). -/
theorem placedFrom_of_placedAt {b : BootInput} {bases : List Nat} (h : placedAt b bases) :
    placedFrom b.relocBase [] b.sections bases := by
  obtain ⟨hlen, hat⟩ := h
  refine ⟨hlen, fun k hk hb => ?_⟩
  have hk' := hat k hk hb
  cases hp : b.sections[k].placement with
  | fixed base => rw [hp] at hk'; exact hk'.symm
  | relocatable => rw [hp] at hk'; exact roundUp4_highestEnd_of_leastFree hk'

/-- A program whose bases are where placement puts them is loaded there, if the resulting map is placeable. -/
theorem loadPrograms_of_placeable {bases : List Nat} {rest : List MemSection} (hb : placedFrom relocBase map ps bases)
    (h : placeable (map ++ programPlaced ps bases ++ rest)) :
    ∃ mem', loadPrograms relocBase ps map mem = .ok (map ++ programPlaced ps bases, mem') := by
  induction ps generalizing map mem bases with
  | nil => exact ⟨mem, by simp [loadPrograms, programPlaced]⟩
  | cons p ps ih =>
    cases bases with
    | nil => cases hb.1
    | cons base bases =>
      obtain ⟨hbase, hbases⟩ := placedFrom_cons hb
      have hmap : map ++ programPlaced (p :: ps) (base :: bases)
          = map ++ [{ p.request with base := base }] ++ programPlaced ps bases := by
        simp [programPlaced]
      have hload : loadSection relocBase map p.placement p.request = .ok { p.request with base := base } :=
        loadSection_of_placeable hbase (rest := programPlaced ps bases ++ rest) (by simpa [hmap] using h)
      rw [hmap] at h ⊢
      rw [loadPrograms, hload]
      exact ih hbases h

/-- The stack and the windows are set up above a placeable map. -/
theorem setupStack_of_placeable {b : BootInput} {stackBase : Nat} (hs : leastFree b.relocBase map stackBase)
    (h : placeable (map ++ [stackSection stackBase b.stackSize, windowSection .periph0 b.periph0,
      windowSection .periph1 b.periph1])) :
    setupStack b map = .ok { map := map ++ [stackSection stackBase b.stackSize, windowSection .periph0 b.periph0,
                               windowSection .periph1 b.periph1], stackBase := stackBase, stackSize := b.stackSize,
                             guardBand := b.guardBand, periph0 := b.periph0, periph1 := b.periph1,
                             auipcBias := b.auipcBias, bridge := b.bridge } := by
  have hstack : loadSection b.relocBase map .relocatable (stackSection 0 b.stackSize)
      = .ok (stackSection stackBase b.stackSize) :=
    loadSection_of_placeable (S := stackSection 0 b.stackSize) (roundUp4_highestEnd_of_leastFree hs) h
  have hp0 : loadSection b.relocBase (map ++ [stackSection stackBase b.stackSize]) (.fixed b.periph0.base)
      (windowSection .periph0 b.periph0) = .ok (windowSection .periph0 b.periph0) :=
    loadSection_of_placeable (S := windowSection .periph0 b.periph0) (base := b.periph0.base)
      (rest := [windowSection .periph1 b.periph1]) rfl (by rw [List.append_assoc]; exact h)
  have hp1 : loadSection b.relocBase (map ++ [stackSection stackBase b.stackSize, windowSection .periph0 b.periph0])
      (.fixed b.periph1.base) (windowSection .periph1 b.periph1) = .ok (windowSection .periph1 b.periph1) :=
    loadSection_of_placeable (S := windowSection .periph1 b.periph1) (base := b.periph1.base) (rest := []) rfl
      (by rw [List.append_assoc]; exact h)
  rw [setupStack, hstack]
  simp only [hp0, hp1]
  rfl

/-- Boot succeeds when the map that placement gives is well-formed. -/
theorem boot_of_configWf {b : BootInput} {bases : List Nat} {stackBase : Nat} (hb : placedAt b bases)
    (hs : leastFree b.relocBase (programAt b bases) stackBase) (hc : configWf (configAt b bases stackBase)) :
    ∃ s, boot b = .ok s ∧ s.cfg = configAt b bases stackBase := by
  have hplace : placeable (configAt b bases stackBase).map := ⟨hc.1, fun S hS => (hc.2.1 S hS).2.1⟩
  obtain ⟨mem, hload⟩ := loadPrograms_of_placeable (mem := []) (placedFrom_of_placedAt hb)
    (rest := [stackSection stackBase b.stackSize, windowSection .periph0 b.periph0, windowSection .periph1 b.periph1])
    hplace
  refine ⟨State.atReset (configAt b bases stackBase) mem b.entryPc, ?_, rfl⟩
  rw [boot, hload]
  simp only [List.nil_append]
  rw [show programPlaced b.sections bases = programAt b bases from rfl, setupStack_of_placeable hs hplace]
  exact if_pos hc

/-! ### What a program that has been loaded leaves -/

/-- Loading goes on from the sections already placed. -/
theorem loadPrograms_prefix (h : loadPrograms relocBase ps map mem = .ok (map', mem')) : map <+: map' := by
  induction ps generalizing map mem with
  | nil => cases h; exact List.prefix_rfl
  | cons p ps ih =>
    obtain ⟨S, -, hrest⟩ := loadPrograms_cons h
    exact (List.prefix_append map [S]).trans (ih hrest)

/-- Loading leaves the bytes of the sections already placed as they are: a new section is apart from them. -/
theorem loadPrograms_keeps_byte (h : loadPrograms relocBase ps map mem = .ok (map', mem')) {T : MemSection} (hT : T ∈ map)
    {a : Nat} (hlo : T.base ≤ a) (hhi : a < T.base + T.size) : Memory.get mem' a = Memory.get mem a := by
  induction ps generalizing map mem with
  | nil => cases h; rfl
  | cons p ps ih =>
    obtain ⟨S, hS, hrest⟩ := loadPrograms_cons h
    obtain ⟨-, -, hapart⟩ := loadSection_ok hS
    have hsize : S.size = p.bytes.length := (loadSection_keeps hS).2.1
    rw [ih hrest (by simp [hT]), Memory.get_setBytes_other]
    have := hapart T hT
    simp only [sectionsApart] at this
    omega

/-- `S` has the name, size and flags of a program section, and memory holds its initial bytes there (R31, R321). -/
def placedAs (mem : Memory) (p : ProgramSection) (S : MemSection) : Prop :=
  S.name = .program p.label ∧ S.size = p.bytes.length ∧ S.readOnly = p.readOnly ∧ S.exec = p.exec
    ∧ ∀ j, (hj : j < p.bytes.length) → Memory.get mem (S.base + j) = p.bytes[j]

/-- Loading places every program section, in order. -/
theorem loadPrograms_places (h : loadPrograms relocBase ps map mem = .ok (map', mem')) (k : Nat) (hk : k < ps.length) :
    ∃ S, map'[map.length + k]? = some S ∧ placedAs mem' ps[k] S := by
  induction ps generalizing map mem k with
  | nil => simp at hk
  | cons p ps ih =>
    obtain ⟨S, hS, hrest⟩ := loadPrograms_cons h
    cases k with
    | zero =>
      obtain ⟨hname, hsize, hro, hexec⟩ := loadSection_keeps hS
      have hat : map'[map.length]? = some S := by
        obtain ⟨more, rfl⟩ := loadPrograms_prefix hrest
        simp
      refine ⟨S, hat, hname, hsize, hro, hexec, fun j hj => ?_⟩
      have hj' : S.base + j < S.base + S.size := by rw [hsize]; exact Nat.add_lt_add_left hj _
      rw [loadPrograms_keeps_byte hrest (T := S) (by simp) (Nat.le_add_right _ _) hj']
      exact Memory.get_setBytes_inside p.bytes mem S.base j hj
    | succ k =>
      obtain ⟨T, hT, hplaced⟩ := ih hrest k (by simpa using hk)
      refine ⟨T, ?_, hplaced⟩
      rw [← hT, List.length_append, List.length_singleton, Nat.add_assoc, Nat.add_comm 1 k]

/-- Loading lists no address outside the sections placed. -/
theorem loadPrograms_held (h : loadPrograms relocBase ps map mem = .ok (map', mem'))
    (hheld : ∀ c ∈ mem, mapped map c.1 = true) : ∀ c ∈ mem', mapped map' c.1 = true := by
  induction ps generalizing map mem with
  | nil => cases h; exact hheld
  | cons p ps ih =>
    obtain ⟨S, hS, hrest⟩ := loadPrograms_cons h
    have hsize : S.size = p.bytes.length := (loadSection_keeps hS).2.1
    refine ih hrest fun c hc => (mapped_iff _ _).mpr ?_
    rcases Memory.mem_setBytes _ _ _ _ hc with hin | hold
    · exact ⟨S, by simp, hin.1, by omega⟩
    · obtain ⟨T, hT, hrange⟩ := (mapped_iff _ _).mp (hheld c hold)
      exact ⟨T, by simp [hT], hrange⟩

/-- Loading places program sections alone. -/
theorem loadPrograms_names (h : loadPrograms relocBase ps map mem = .ok (map', mem'))
    (hmap : ∀ T ∈ map, ∃ label, T.name = .program label) : ∀ T ∈ map', ∃ label, T.name = .program label := by
  induction ps generalizing map mem with
  | nil => cases h; exact hmap
  | cons p ps ih =>
    obtain ⟨S, hS, hrest⟩ := loadPrograms_cons h
    refine ih hrest fun T hT => ?_
    rcases List.mem_append.mp hT with hT | hT
    · exact hmap T hT
    · cases List.mem_singleton.mp hT
      exact ⟨p.label, (loadSection_keeps hS).1⟩

/-- An address that no cell has reads as unlisted. -/
theorem Memory.get_eq_unlisted {m : Memory} {a : Nat} (h : ∀ c ∈ m, c.1 ≠ a) : Memory.get m a = Memory.unlisted := by
  induction m with
  | nil => rfl
  | cons c m ih =>
    obtain ⟨c, d⟩ := c
    rw [Memory.get, if_neg (h (c, d) (by simp)), ih fun e he => h e (by simp [he])]

/-- In a well-formed map, a section outside the program's sections holds zeros once the program is loaded. -/
theorem loadPrograms_zero_outside {more : List MemSection} (h : loadPrograms relocBase ps [] [] = .ok (map, mem))
    (hp : (map ++ more).Pairwise sectionsApart) {S : MemSection} (hS : S ∈ more) {a : Nat} (hlo : S.base ≤ a)
    (hhi : a < S.base + S.size) : Memory.get mem a = 0#8 := by
  refine Memory.get_eq_unlisted fun c hc ha => ?_
  obtain ⟨T, hT, hTlo, hThi⟩ := (mapped_iff _ _).mp (loadPrograms_held h (by simp) c hc)
  have hapart := (List.pairwise_append.mp hp).2.2 T hT S hS
  simp only [sectionsApart] at hapart
  omega

/-! ### The reset values -/

/-- The registers when a machine leaves reset (R31). -/
theorem State.readReg_atReset (cfg : Config) (mem : Memory) (entryPc : Word) (r : Reg) :
    (State.atReset cfg mem entryPc).readReg r
      = if r = 2 then BitVec.ofNat 32 (cfg.stackBase + cfg.stackSize) else 0#32 := by
  unfold State.readReg State.atReset
  by_cases hr : r = 2
  · subst hr; rfl
  · have hne : 2 ≠ r.val := fun h => hr (Fin.ext h.symm)
    simp [hr, hne]

/-- Settles O55: placement follows R322, so a well-formed map is placed as it stands; and what boot leaves is read off its
parts: the reset state's fields, the program's sections in order with their bytes, and zeros in the sections above. -/
theorem bootGivesTheResetValues : Obligations.BootGivesTheResetValues := by
  refine ⟨fun b bases stackBase hb hs hc => boot_of_configWf hb hs hc, fun b s h => ?_⟩
  obtain ⟨map, mem, cfg, hload, hsetup, hc, rfl⟩ := boot_ok h
  obtain ⟨stack, p0, p1, -, -, -, rfl⟩ := setupStack_ok hsetup
  refine ⟨State.readReg_atReset _ _ _ 2, rfl, fun r hr => (State.readReg_atReset _ _ _ r).trans (if_neg hr), rfl, rfl, rfl,
    rfl, rfl, fun S hS hname a hlo hhi => ?_, fun k hk => ?_⟩
  · have hnot : S ∉ map := fun hS => by
      obtain ⟨label, hl⟩ := loadPrograms_names hload (by simp) S hS
      simp [hl] at hname
    have habove : S ∈ [stack, p0, p1] := (List.mem_append.mp hS).resolve_left hnot
    exact loadPrograms_zero_outside hload hc.1 habove hlo hhi
  · obtain ⟨S, hS, hplaced⟩ := loadPrograms_places hload k hk
    rw [List.length_nil, Nat.zero_add] at hS
    exact ⟨S, List.getElem?_append_left (List.getElem?_eq_some_iff.mp hS).1 ▸ hS, hplaced⟩

end Sys2Proof.Machine
end

section
/-! PROOFS. The statements about memory (spec/20_memory.md): bytes against words, the address decoder in a well-formed map,
the access primitives, the faults of a fetch, and the invariant of a machine that has booted. -/

namespace Sys2Proof

/-! ### Bytes and words -/

theorem Width.bytes_le_four (w : Width) : w.bytes ≤ 4 := by cases w <;> decide

/-- Byte `k` of the word that bytes stand for is the `k`-th of them (R156). -/
theorem extractLsb'_wordOfBytes (bs : List Byte) {k : Nat} (hk : k < 4) :
    (wordOfBytes bs).extractLsb' (8 * k) 8 = bs.getD k 0#8 := by
  apply BitVec.eq_of_getLsbD_eq
  intro i hi
  have hdiv : (8 * k + i) / 8 = k := by omega
  have hmod : (8 * k + i) % 8 = i := by omega
  have h32 : 8 * k + i < 32 := by omega
  rw [BitVec.getLsbD_extractLsb', getLsbD_wordOfBytes, hdiv, hmod]
  simp [hi, h32]

/-- The word that `n` bytes stand for is below `2^(8n)`: its upper bits are 0 (R156). -/
theorem toNat_wordOfBytes_lt (bs : List Byte) : (wordOfBytes bs).toNat < 2 ^ (8 * bs.length) := by
  refine Nat.lt_pow_two_of_testBit _ fun i hi => ?_
  have hbyte : bs.getD (i / 8) 0#8 = 0#8 := List.getD_eq_default _ _ (by omega)
  rw [BitVec.testBit_toNat, getLsbD_wordOfBytes, hbyte]
  simp

/-- The low `n` bytes of a word stand for its low `8n` bits. -/
theorem wordOfBytes_bytesOfWord_eq_and (n : Nat) (v : Word) :
    wordOfBytes (bytesOfWord n v) = v &&& BitVec.ofNat 32 (2 ^ (8 * n) - 1) := by
  apply BitVec.eq_of_getLsbD_eq
  intro i hi
  rw [getLsbD_wordOfBytes_bytesOfWord, BitVec.getLsbD_and, BitVec.getLsbD_ofNat, Nat.testBit_two_pow_sub_one, Bool.and_comm]
  simp [hi]

end Sys2Proof

namespace Sys2Proof.Machine

/-- Byte `k` of the bytes at `a` is the byte at `a + k`. -/
theorem Memory.getD_getBytes (m : Memory) (a : Nat) {n k : Nat} (hk : k < n) :
    (Memory.getBytes m a n).getD k 0#8 = Memory.get m (a + k) := by
  induction n generalizing a k with
  | zero => omega
  | succ n ih =>
    cases k with
    | zero => rfl
    | succ k => rw [Memory.getBytes, List.getD_cons_succ, ih (a + 1) (by omega), Nat.add_assoc, Nat.add_comm 1 k]

/-! ### The address decoder (R43) -/

/-- Two sections of a well-formed map that hold one range of a byte or more are the same section (R43, R44 a). -/
theorem section_unique {map : List MemSection} (hp : map.Pairwise sectionsApart) {a n : Nat} (hn : 1 ≤ n)
    {S T : MemSection} (hS : S ∈ map) (hT : T ∈ map) (hSa : S.base ≤ a ∧ a + n ≤ S.base + S.size)
    (hTa : T.base ≤ a ∧ a + n ≤ T.base + T.size) : S = T :=
  sections_agree hp hS hT (a := a) (by omega) (by omega)

/-- `resolve` gives the one section that holds the range. -/
theorem resolve_eq_some_iff {map : List MemSection} (hp : map.Pairwise sectionsApart) {a n : Nat} (hn : 1 ≤ n)
    {S : MemSection} : resolve map a n = some S ↔ S ∈ map ∧ S.base ≤ a ∧ a + n ≤ S.base + S.size := by
  refine ⟨resolve_some, fun ⟨hS, hSa⟩ => ?_⟩
  obtain ⟨T, hT⟩ := resolve_isSome hS hSa.1 hSa.2
  obtain ⟨hTm, hTa⟩ := resolve_some hT
  rw [hT, section_unique hp hn hS hTm hSa hTa]

/-- Settles O10: sections of a well-formed map are apart, so the section `resolve` finds is the only candidate. -/
theorem atMostOneSectionHoldsARange : Obligations.AtMostOneSectionHoldsARange := by
  intro c a n hc hn
  refine ⟨fun S T hS hT hSa hTa => ?_, fun S => resolve_eq_some_iff hc.1 hn, resolve_none_iff.mpr⟩
  exact section_unique hc.1 hn hS hT ((sectionHolds_iff S a n).mp hSa) ((sectionHolds_iff T a n).mp hTa)

/-- No section of a well-formed map holds a range that would pass the top of the address space (R44 b, R58). -/
theorem resolve_none_past_top {c : Config} (hc : configWf c) {a n : Nat} (h : a + n > 2 ^ 32) :
    resolve c.map a n = none := by
  refine resolve_none_iff.mpr fun S hS hSa => ?_
  have hsize : S.base + S.size ≤ 2 ^ 32 := (hc.2.1 S hS).2.1
  omega

/-! ### MemRead and MemWrite (R50, R51) -/

section Access

variable {s t : State} {addr v : Word} {width : Width} {S : MemSection}

theorem State.memRead_unmapped (h : resolve s.cfg.map addr.toNat width.bytes = none) :
    s.memRead addr width = .error (.memoryAccess addr width .read .unmapped) := by
  rw [State.memRead, h]

theorem State.memRead_mapped (h : resolve s.cfg.map addr.toNat width.bytes = some S) :
    s.memRead addr width = .ok (wordOfBytes (Memory.getBytes s.mem addr.toNat width.bytes)) := by
  rw [State.memRead, h]

theorem State.memWrite_unmapped (h : resolve s.cfg.map addr.toNat width.bytes = none) :
    s.memWrite addr width v = .error (.memoryAccess addr width .write .unmapped) := by
  rw [State.memWrite, h]

theorem State.memWrite_of_readOnly (h : resolve s.cfg.map addr.toNat width.bytes = some S) (hro : S.readOnly = true) :
    s.memWrite addr width v = .error (.memoryAccess addr width .write .readOnly) := by
  rw [State.memWrite, h]
  exact if_pos hro

theorem State.memWrite_of_writable (h : resolve s.cfg.map addr.toNat width.bytes = some S) (hro : S.readOnly = false) :
    s.memWrite addr width v
      = .ok { s with mem := Memory.setBytes s.mem addr.toNat (bytesOfWord width.bytes v) } := by
  rw [State.memWrite, h]
  exact if_neg (by simp [hro])

/-- A read depends on the section map and on the bytes it reads alone. -/
theorem State.memRead_congr (hcfg : t.cfg = s.cfg)
    (hbytes : ∀ k, k < width.bytes → t.byteAt (addr.toNat + k) = s.byteAt (addr.toNat + k)) :
    t.memRead addr width = s.memRead addr width := by
  rw [State.memRead, State.memRead, hcfg, Memory.getBytes_congr s.mem t.mem addr.toNat width.bytes hbytes]

/-- A range that no section holds does not resolve. -/
theorem resolve_none_of_not_holdsRange {a n : Nat} (h : ¬holdsRange s a n) : resolve s.cfg.map a n = none :=
  resolve_none_iff.mpr fun S hS hSa => h ⟨S, hS, hSa⟩

end Access

/-- Settles O8: a write puts the value's bytes where the read takes them, and leaves every byte outside its range. -/
theorem readAfterWriteGivesTheBytes : Obligations.ReadAfterWriteGivesTheBytes := by
  refine ⟨fun s t addr v width hw => ?_, fun s t addr r addr' v width width' hr hw hapart => ?_⟩
  · obtain ⟨S, hS, -, ht⟩ := State.memWrite_ok hw
    have hback := Memory.getBytes_setBytes (bytesOfWord width.bytes v) s.mem addr.toNat
    rw [length_bytesOfWord] at hback
    have hmem : Memory.getBytes t.mem addr.toNat width.bytes = bytesOfWord width.bytes v := by rw [ht]; exact hback
    have hres : resolve t.cfg.map addr.toNat width.bytes = some S := by rw [ht]; exact hS
    rw [State.memRead_mapped hres, hmem, wordOfBytes_bytesOfWord_eq_and]
  · obtain ⟨-, hother, -, -, hcontrol⟩ := storeResult_memWrite hw
    obtain ⟨-, -, -, -, hcfg, -⟩ := hcontrol
    rw [State.memRead_congr hcfg fun k hk => hother _ (by omega), hr]

/-- Settles O9: `storeResult` for the write; a read is the word its bytes stand for. -/
theorem bytesAreLittleEndian : Obligations.BytesAreLittleEndian := by
  refine ⟨fun s t addr v width hw => (storeResult_memWrite hw).1, fun s addr v width hr => ?_⟩
  obtain ⟨-, rfl⟩ := State.memRead_ok hr
  refine ⟨fun k hk => ?_, ?_⟩
  · rw [extractLsb'_wordOfBytes _ (hk.trans_le width.bytes_le_four), Memory.getD_getBytes _ _ hk, State.byteAt]
  · have hlt := toNat_wordOfBytes_lt (Memory.getBytes s.mem addr.toNat width.bytes)
    rwa [Memory.length_getBytes] at hlt

/-- Settles O11: the decoder resolves no range that would pass the top. -/
theorem accessNeverWrapsTheAddressSpace : Obligations.AccessNeverWrapsTheAddressSpace := by
  intro s addr v width hc htop
  have hnone := resolve_none_past_top hc htop
  exact ⟨State.memRead_unmapped hnone, State.memWrite_unmapped hnone⟩

/-- Settles O12: the section of a range in a well-formed map is the one `resolve` gives, and its flag decides the write. -/
theorem memWriteChecksThenWritesItsBytesOnly : Obligations.MemWriteChecksThenWritesItsBytesOnly := by
  intro s addr v width hc
  have hn : 1 ≤ width.bytes := Width.bytes_pos width
  refine ⟨fun h => State.memWrite_unmapped (resolve_none_of_not_holdsRange h), fun ⟨S, hS, hlo, hhi, hro⟩ => ?_,
    fun ⟨S, hS, hlo, hhi, hro⟩ => ?_⟩
  · exact State.memWrite_of_readOnly ((resolve_eq_some_iff hc.1 hn).mpr ⟨hS, hlo, hhi⟩) hro
  · have hw := State.memWrite_of_writable (v := v) ((resolve_eq_some_iff hc.1 hn).mpr ⟨hS, hlo, hhi⟩) hro
    exact ⟨_, hw, storeResult_memWrite hw⟩

/-! ### The faults of a fetch (R53, R290) -/

section Fetch

variable {s : State} {addr : Word}

theorem State.fetch_misaligned (h : addr.toNat % 4 ≠ 0) :
    s.fetch addr = .error (.memoryAccess addr .word .fetch .misaligned) := by
  rw [State.fetch, if_neg (mt (aligned4_iff addr).mp h)]

theorem State.fetch_unmapped (hal : addr.toNat % 4 = 0) (h : resolve s.cfg.map addr.toNat 4 = none) :
    s.fetch addr = .error (.memoryAccess addr .word .fetch .unmapped) := by
  rw [State.fetch, if_pos ((aligned4_iff addr).mpr hal), h]

theorem State.fetch_notExecutable {S : MemSection} (hal : addr.toNat % 4 = 0)
    (h : resolve s.cfg.map addr.toNat 4 = some S) (hx : S.exec = false) :
    s.fetch addr = .error (.memoryAccess addr .word .fetch .notExecutable) := by
  rw [State.fetch, if_pos ((aligned4_iff addr).mpr hal), h]
  exact if_neg (by simp [hx])

/-- Past the guard, the engine counts the cycle and goes on to the fetch (R122, R123). -/
theorem engineStep_of_guardPasses (hg : guardPasses s) : engineStep s = fetchAndRun s.countCycle := by
  rw [engineStep, guarded, (guardFires_eq_false_iff s).mpr hg]
  exact if_neg Bool.false_ne_true

/-- Past the guard, a fetch that fails ends the step in its fault, with the cycle counted and pc not advanced (R123,
R124). -/
theorem engineStep_of_fetch_error {F : Fault} (hg : guardPasses s) (hf : s.fetch s.pc = .error F) :
    engineStep s = .next (s.countCycle.takeFault F) := by
  rw [engineStep_of_guardPasses hg, fetchAndRun, State.countCycle_fetch, State.countCycle_pc, hf]

/-- The same of a step of the machine. -/
theorem step_faultTaken_of_fetch_error {F : Fault} (hc : configWf s.cfg) (hs : stepping s) (hg : guardPasses s)
    (hf : s.fetch s.pc = .error F) : ∃ t, step s = .next t ∧ faultTaken (commandTaken s).countCycle t F := by
  have hg' : guardPasses (commandTaken s) := by simpa [guardPasses] using hg
  have hf' : (commandTaken s).fetch (commandTaken s).pc = .error F := by simpa using hf
  exact ⟨_, (step_of_stepping hc hs).trans (engineStep_of_fetch_error hg' hf'), faultTaken_takeFault _ F⟩

end Fetch

/-- Settles O16: the three checks of a fetch in their order, each of whose faults ends the step. -/
theorem fetchFaultsInOrder : Obligations.FetchFaultsInOrder := by
  intro s hc hs hg
  refine ⟨fun h => ?_, fun hal h => ?_, fun hal ⟨S, hS, hSa⟩ hnot => ?_⟩
  · exact step_faultTaken_of_fetch_error hc hs hg (State.fetch_misaligned h)
  · exact step_faultTaken_of_fetch_error hc hs hg (State.fetch_unmapped hal (resolve_none_of_not_holdsRange h))
  · have hx : S.exec = false := Bool.eq_false_iff.mpr fun hx => hnot ⟨hal, S, hS, hSa.1, hSa.2, hx⟩
    have hres : resolve s.cfg.map s.pc.toNat 4 = some S := (resolve_eq_some_iff hc.1 (by decide)).mpr ⟨hS, hSa⟩
    exact step_faultTaken_of_fetch_error hc hs hg (State.fetch_notExecutable hal hres hx)

/-! ### The section map of a machine (R44) -/

/-- Settles O26: a transition looks at the map before anything else. -/
theorem anIllFormedMapIsRefused : Obligations.AnIllFormedMapIsRefused := fun _ hc => if_neg hc

/-- Loading keeps the canonical form of memory. -/
theorem loadPrograms_wf {relocBase : Nat} {ps : List ProgramSection} {map map' : List MemSection} {mem mem' : Memory}
    (h : loadPrograms relocBase ps map mem = .ok (map', mem')) (hw : Memory.wf mem) : Memory.wf mem' := by
  induction ps generalizing map mem with
  | nil => cases h; exact hw
  | cons p ps ih =>
    obtain ⟨S, -, hrest⟩ := loadPrograms_cons h
    exact ih hrest (Memory.wf_setBytes _ _ _ hw)

/-- An address in a map is in every map that goes on from it. -/
theorem mapped_append {map : List MemSection} {a : Nat} (h : mapped map a = true) (more : List MemSection) :
    mapped (map ++ more) a = true := by
  obtain ⟨S, hS, hSa⟩ := (mapped_iff map a).mp h
  exact (mapped_iff _ a).mpr ⟨S, List.mem_append_left more hS, hSa⟩

/-- A machine that leaves reset meets the invariant, if its map is well-formed and its memory canonical and inside the map
(R31). -/
theorem inv_atReset {cfg : Config} {mem : Memory} (hc : configWf cfg) (hw : Memory.wf mem)
    (hheld : ∀ c ∈ mem, mapped cfg.map c.1 = true) (entryPc : Word) : Inv (State.atReset cfg mem entryPc) where
  map := hc
  memory := hw
  held := hheld
  zero := rfl
  faulted hf := absurd rfl hf
  exited hx := absurd rfl hx

/-- Settles O56: boot checks the map, and loading fills a memory that is canonical and inside the program's sections, which
the map still has when the stack and the windows have been set up. -/
theorem bootedMachineMeetsInv : Obligations.BootedMachineMeetsInv := by
  intro b s h
  obtain ⟨map, mem, cfg, hload, hsetup, hc, rfl⟩ := boot_ok h
  obtain ⟨stack, p0, p1, -, -, -, rfl⟩ := setupStack_ok hsetup
  have hwf : Memory.wf mem := loadPrograms_wf hload ⟨.nil, by simp⟩
  have hheld : ∀ c ∈ mem, mapped map c.1 = true := loadPrograms_held hload (by simp)
  exact inv_atReset hc hwf (fun c hmem => mapped_append (hheld c hmem) _) b.entryPc

end Sys2Proof.Machine
end

section
/-! PROOFS. The statements about the encoding (spec/30_encoding.md): the rows of the opcode table are disjoint, encoding and
decoding undo each other, the opcode map says which words decode, and an operand list parses exactly when the decoder
could have given it. -/

namespace Sys2Proof

/-! ### The rows are disjoint (R80) -/

/-- Two rows whose match bits differ where both masks look have no word in common. -/
theorem Row.disjoint_of_mat_ne {r q : Row} (h : r.mat &&& q.mask ≠ q.mat &&& r.mask) (w : Word) :
    ¬(r.hits w = true ∧ q.hits w = true) := by
  rintro ⟨hr, hq⟩
  apply h
  rw [← eq_of_beq (a := w &&& r.mask) hr, ← eq_of_beq (a := w &&& q.mask) hq, BitVec.and_assoc, BitVec.and_assoc,
    BitVec.and_comm r.mask]

/-- Settles O3: each two rows have different match bits where both masks look. -/
theorem noWordMatchesTwoRows : Obligations.NoWordMatchesTwoRows := by
  have hmat : opcodeRows.Pairwise fun r q => r.mat &&& q.mask ≠ q.mat &&& r.mask := by decide
  exact ⟨rfl, hmat.imp Row.disjoint_of_mat_ne⟩

/-- A word that a row of the table hits decodes by that row, since no other row hits it. -/
theorem decodeWord_of_hits {r : Row} {w : Word} (hr : r ∈ opcodeRows) (hw : r.hits w = true) :
    decodeWord w = .ok (r.build w) := by
  cases hfind : opcodeRows.find? (fun q => q.hits w) with
  | none => exact absurd hw (List.find?_eq_none.mp hfind r hr)
  | some q =>
    have hq : q.hits w = true := List.find?_some (p := fun q : Row => q.hits w) hfind
    have hsymm : Std.Symm fun r q : Row => ∀ w : Word, ¬(r.hits w = true ∧ q.hits w = true) :=
      ⟨fun _ _ h w hw => h w hw.symm⟩
    have hqr : q = r := by
      by_contra hne
      exact noWordMatchesTwoRows.2.forall (List.mem_of_find?_eq_some hfind) hr hne w ⟨hq, hw⟩
    exact (decodeWord_eq_ok_iff w _).mpr ⟨q, hfind, by rw [hqr]⟩

/-! ### An instruction decodes from its word -/

/-- The mnemonic of an instruction's operand list. -/
def Instr.mnemonic (i : Instr) : Mnemonic := (Machine.operandsOf 0#32 i).mnemonic

/-- The row of the opcode table with this mnemonic. -/
def rowOf (m : Mnemonic) : Option Row := opcodeRows.find? (fun r => r.mnemonic = m)

/-- A word that the row of a mnemonic hits decodes by that row. -/
theorem decodeWord_of_rowOf {m : Mnemonic} {r : Row} {w : Word} (hr : rowOf m = some r) (hw : w &&& r.mask = r.mat) :
    decodeWord w = .ok (r.build w) :=
  decodeWord_of_hits (List.mem_of_find?_eq_some hr) (beq_iff_eq.mpr hw)

theorem branchOffsetEven_iff {off : BitVec 13} : branchOffsetEven off = true ↔ off.getLsbD 0 = false :=
  Bool.not_eq_true' _ ▸ Iff.rfl

theorem jumpOffsetEven_iff {off : BitVec 21} : jumpOffsetEven off = true ↔ off.getLsbD 0 = false :=
  Bool.not_eq_true' _ ▸ Iff.rfl

section Formats

variable {n : Mnemonic} {f3 : BitVec 3} {f7 op : BitVec 7}

theorem decodeWord_wordR {f : Reg → Reg → Reg → Instr} {rd rs1 rs2 : Reg}
    (hr : rowOf (f rd rs1 rs2).mnemonic = some ⟨n, wordR f7 0#5 0#5 f3 0#5 op, 0xFE00707F#32, shapeR f⟩) :
    decodeWord (wordR f7 (regBits rs2) (regBits rs1) f3 (regBits rd) op) = .ok (f rd rs1 rs2) := by
  simpa [shapeR] using decodeWord_of_rowOf hr (wordR_and_mask f7 (regBits rs2) (regBits rs1) f3 (regBits rd) op)

theorem decodeWord_wordR_shamt {f : Reg → Reg → BitVec 5 → Instr} {rd rs1 : Reg} {sh : BitVec 5}
    (hr : rowOf (f rd rs1 sh).mnemonic = some ⟨n, wordR f7 0#5 0#5 f3 0#5 op, 0xFE00707F#32, shapeShift f⟩) :
    decodeWord (wordR f7 sh (regBits rs1) f3 (regBits rd) op) = .ok (f rd rs1 sh) := by
  simpa [shapeShift] using decodeWord_of_rowOf hr (wordR_and_mask f7 sh (regBits rs1) f3 (regBits rd) op)

theorem decodeWord_wordI {f : Reg → Reg → BitVec 12 → Instr} {rd rs1 : Reg} {imm : BitVec 12}
    (hr : rowOf (f rd rs1 imm).mnemonic = some ⟨n, wordI 0#12 0#5 f3 0#5 op, 0x0000707F#32, shapeI f⟩) :
    decodeWord (wordI imm (regBits rs1) f3 (regBits rd) op) = .ok (f rd rs1 imm) := by
  simpa [shapeI] using decodeWord_of_rowOf hr (wordI_and_mask imm (regBits rs1) f3 (regBits rd) op)

theorem decodeWord_wordS {f : Reg → Reg → BitVec 12 → Instr} {rs2 rs1 : Reg} {imm : BitVec 12}
    (hr : rowOf (f rs2 rs1 imm).mnemonic = some ⟨n, wordS 0#12 0#5 0#5 f3 op, 0x0000707F#32, shapeS f⟩) :
    decodeWord (wordS imm (regBits rs2) (regBits rs1) f3 op) = .ok (f rs2 rs1 imm) := by
  simpa [shapeS] using decodeWord_of_rowOf hr (wordS_and_mask imm (regBits rs2) (regBits rs1) f3 op)

theorem decodeWord_wordB {f : Reg → Reg → BitVec 13 → Instr} {rs1 rs2 : Reg} {off : BitVec 13}
    (hr : rowOf (f rs1 rs2 off).mnemonic = some ⟨n, wordB 0#13 0#5 0#5 f3 op, 0x0000707F#32, shapeB f⟩)
    (he : branchOffsetEven off = true) :
    decodeWord (wordB off (regBits rs2) (regBits rs1) f3 op) = .ok (f rs1 rs2 off) := by
  simpa [shapeB, fieldOffB_wordB _ _ _ _ _ (branchOffsetEven_iff.mp he)] using
    decodeWord_of_rowOf hr (wordB_and_mask off (regBits rs2) (regBits rs1) f3 op)

theorem decodeWord_wordU {f : Reg → BitVec 20 → Instr} {rd : Reg} {imm : BitVec 20}
    (hr : rowOf (f rd imm).mnemonic = some ⟨n, wordU 0#20 0#5 op, 0x0000007F#32, shapeU f⟩) :
    decodeWord (wordU imm (regBits rd) op) = .ok (f rd imm) := by
  simpa [shapeU] using decodeWord_of_rowOf hr (wordU_and_mask imm (regBits rd) op)

theorem decodeWord_wordJ {f : Reg → BitVec 21 → Instr} {rd : Reg} {off : BitVec 21}
    (hr : rowOf (f rd off).mnemonic = some ⟨n, wordJ 0#21 0#5 op, 0x0000007F#32, shapeJ f⟩)
    (he : jumpOffsetEven off = true) :
    decodeWord (wordJ off (regBits rd) op) = .ok (f rd off) := by
  simpa [shapeJ, fieldOffJ_wordJ _ _ _ (jumpOffsetEven_iff.mp he)] using
    decodeWord_of_rowOf hr (wordJ_and_mask off (regBits rd) op)

end Formats

/-- A well-formed instruction decodes from its word: its row is in the table, with its format's match and mask. -/
theorem decodeWord_encode {i : Instr} (h : i.wf = true) : decodeWord (encode i) = .ok i := by
  cases i with
  | lui | auipc => exact decodeWord_wordU rfl
  | jal => exact decodeWord_wordJ rfl h
  | beq | bne | blt | bge | bltu | bgeu => exact decodeWord_wordB rfl h
  | jalr | lb | lh | lw | lbu | lhu | addi | slti | sltiu | xori | ori | andi => exact decodeWord_wordI rfl
  | sb | sh | sw => exact decodeWord_wordS rfl
  | slli | srli | srai => exact decodeWord_wordR_shamt rfl
  | add | sub | sll | slt | sltu | xor | srl | sra | or | and => exact decodeWord_wordR rfl
  | ecall | ebreak => decide

/-- Settles O1: the four bytes stand for the word, which decodes to the instruction. -/
theorem decodeUndoesEncode : Obligations.DecodeUndoesEncode := by
  intro i rest h
  rw [encodeBytes, decode_bytesOfWord, decodeWord_encode h]
  rfl

/-! ### A word from its fields -/

/-- The opcode, bits 6:0 (R91). -/
def fieldOpcode (w : Word) : BitVec 7 := w.extractLsb' 0 7

/-- funct3, bits 14:12 (R83). -/
def fieldFunct3 (w : Word) : BitVec 3 := w.extractLsb' 12 3

/-- funct7, bits 31:25 (R83). -/
def fieldFunct7 (w : Word) : BitVec 7 := w.extractLsb' 25 7

section Fields

variable (w : Word)

theorem regBits_fieldRd : regBits (fieldRd w) = w.extractLsb' 7 5 := rfl
theorem regBits_fieldRs1 : regBits (fieldRs1 w) = w.extractLsb' 15 5 := rfl
theorem regBits_fieldRs2 : regBits (fieldRs2 w) = w.extractLsb' 20 5 := rfl

theorem wordR_fields :
    wordR (fieldFunct7 w) (regBits (fieldRs2 w)) (regBits (fieldRs1 w)) (fieldFunct3 w) (regBits (fieldRd w))
      (fieldOpcode w) = w := by
  apply BitVec.eq_of_getLsbD_eq
  intro i hi
  rw [getLsbD_wordR _ _ _ _ _ _ i hi]
  interval_cases i <;> simp [fieldOpcode, regBits_fieldRd, fieldFunct3, regBits_fieldRs1, regBits_fieldRs2, fieldFunct7]

theorem wordI_fields :
    wordI (fieldImmI w) (regBits (fieldRs1 w)) (fieldFunct3 w) (regBits (fieldRd w)) (fieldOpcode w) = w := by
  apply BitVec.eq_of_getLsbD_eq
  intro i hi
  rw [getLsbD_wordI _ _ _ _ _ i hi]
  interval_cases i <;> simp [fieldOpcode, regBits_fieldRd, fieldFunct3, regBits_fieldRs1, fieldImmI]

theorem wordS_fields :
    wordS (fieldImmS w) (regBits (fieldRs2 w)) (regBits (fieldRs1 w)) (fieldFunct3 w) (fieldOpcode w) = w := by
  apply BitVec.eq_of_getLsbD_eq
  intro i hi
  rw [getLsbD_wordS _ _ _ _ _ i hi]
  interval_cases i <;>
    simp [fieldOpcode, fieldFunct3, regBits_fieldRs1, regBits_fieldRs2, getLsbD_fieldImmS, -BitVec.getLsbD_eq_getElem]

theorem wordB_fields :
    wordB (fieldOffB w) (regBits (fieldRs2 w)) (regBits (fieldRs1 w)) (fieldFunct3 w) (fieldOpcode w) = w := by
  apply BitVec.eq_of_getLsbD_eq
  intro i hi
  rw [getLsbD_wordB _ _ _ _ _ i hi]
  interval_cases i <;>
    simp [fieldOpcode, fieldFunct3, regBits_fieldRs1, regBits_fieldRs2, getLsbD_fieldOffB, -BitVec.getLsbD_eq_getElem]

theorem wordU_fields : wordU (fieldImmU w) (regBits (fieldRd w)) (fieldOpcode w) = w := by
  apply BitVec.eq_of_getLsbD_eq
  intro i hi
  rw [getLsbD_wordU _ _ _ i hi]
  interval_cases i <;> simp [fieldOpcode, regBits_fieldRd, fieldImmU]

theorem wordJ_fields : wordJ (fieldOffJ w) (regBits (fieldRd w)) (fieldOpcode w) = w := by
  apply BitVec.eq_of_getLsbD_eq
  intro i hi
  rw [getLsbD_wordJ _ _ _ i hi]
  interval_cases i <;> simp [fieldOpcode, regBits_fieldRd, getLsbD_fieldOffJ, -BitVec.getLsbD_eq_getElem]

end Fields

/-! ### The fields a mask keeps -/

theorem fieldOpcode_and (a b : Word) : fieldOpcode (a &&& b) = fieldOpcode a &&& fieldOpcode b := BitVec.extractLsb'_and
theorem fieldFunct3_and (a b : Word) : fieldFunct3 (a &&& b) = fieldFunct3 a &&& fieldFunct3 b := BitVec.extractLsb'_and
theorem fieldFunct7_and (a b : Word) : fieldFunct7 (a &&& b) = fieldFunct7 a &&& fieldFunct7 b := BitVec.extractLsb'_and

section Kept

variable {w mask mat : Word}

/-- A match whose mask keeps the whole opcode fixes it. -/
theorem fieldOpcode_of_and_eq (h : w &&& mask = mat) (hmask : fieldOpcode mask = BitVec.allOnes 7) :
    fieldOpcode w = fieldOpcode mat := by
  rw [← h, fieldOpcode_and, hmask, BitVec.and_allOnes]

/-- A match whose mask keeps the whole of funct3 fixes it. -/
theorem fieldFunct3_of_and_eq (h : w &&& mask = mat) (hmask : fieldFunct3 mask = BitVec.allOnes 3) :
    fieldFunct3 w = fieldFunct3 mat := by
  rw [← h, fieldFunct3_and, hmask, BitVec.and_allOnes]

/-- A match whose mask keeps the whole of funct7 fixes it. -/
theorem fieldFunct7_of_and_eq (h : w &&& mask = mat) (hmask : fieldFunct7 mask = BitVec.allOnes 7) :
    fieldFunct7 w = fieldFunct7 mat := by
  rw [← h, fieldFunct7_and, hmask, BitVec.and_allOnes]

variable {n : Mnemonic} {b : Word → Instr}

theorem fields_of_hits_opcode (h : Row.hits ⟨n, mat, 0x0000007F#32, b⟩ w = true) : fieldOpcode w = fieldOpcode mat :=
  have hmat : w &&& 0x0000007F#32 = mat := eq_of_beq h
  fieldOpcode_of_and_eq hmat (by decide)

theorem fields_of_hits_funct3 (h : Row.hits ⟨n, mat, 0x0000707F#32, b⟩ w = true) :
    fieldFunct3 w = fieldFunct3 mat ∧ fieldOpcode w = fieldOpcode mat :=
  have hmat : w &&& 0x0000707F#32 = mat := eq_of_beq h
  ⟨fieldFunct3_of_and_eq hmat (by decide), fieldOpcode_of_and_eq hmat (by decide)⟩

theorem fields_of_hits_funct7 (h : Row.hits ⟨n, mat, 0xFE00707F#32, b⟩ w = true) :
    fieldFunct7 w = fieldFunct7 mat ∧ fieldFunct3 w = fieldFunct3 mat ∧ fieldOpcode w = fieldOpcode mat :=
  have hmat : w &&& 0xFE00707F#32 = mat := eq_of_beq h
  ⟨fieldFunct7_of_and_eq hmat (by decide), fieldFunct3_of_and_eq hmat (by decide),
    fieldOpcode_of_and_eq hmat (by decide)⟩

end Kept

/-! ### A word that decodes is the encoding of its instruction -/

/-- Every word that the row hits is the encoding of the well-formed instruction the row builds from it. -/
def Row.roundTrips (r : Row) : Prop := ∀ w, r.hits w = true → (r.build w).wf = true ∧ encode (r.build w) = w

section RoundTrips

variable {n : Mnemonic} {mat : Word}

theorem roundTrips_shapeR {f : Reg → Reg → Reg → Instr} (hwf : ∀ rd rs1 rs2, (f rd rs1 rs2).wf = true)
    (henc : ∀ rd rs1 rs2, encode (f rd rs1 rs2)
      = wordR (fieldFunct7 mat) (regBits rs2) (regBits rs1) (fieldFunct3 mat) (regBits rd) (fieldOpcode mat)) :
    Row.roundTrips ⟨n, mat, 0xFE00707F#32, shapeR f⟩ := by
  intro w hw
  obtain ⟨h7, h3, ho⟩ := fields_of_hits_funct7 hw
  refine ⟨hwf _ _ _, (henc _ _ _).trans ?_⟩
  rw [← h7, ← h3, ← ho]
  exact wordR_fields w

theorem roundTrips_shapeShift {f : Reg → Reg → BitVec 5 → Instr} (hwf : ∀ rd rs1 sh, (f rd rs1 sh).wf = true)
    (henc : ∀ rd rs1 sh, encode (f rd rs1 sh)
      = wordR (fieldFunct7 mat) sh (regBits rs1) (fieldFunct3 mat) (regBits rd) (fieldOpcode mat)) :
    Row.roundTrips ⟨n, mat, 0xFE00707F#32, shapeShift f⟩ := by
  intro w hw
  obtain ⟨h7, h3, ho⟩ := fields_of_hits_funct7 hw
  refine ⟨hwf _ _ _, (henc _ _ _).trans ?_⟩
  rw [← h7, ← h3, ← ho]
  exact wordR_fields w

theorem roundTrips_shapeI {f : Reg → Reg → BitVec 12 → Instr} (hwf : ∀ rd rs1 imm, (f rd rs1 imm).wf = true)
    (henc : ∀ rd rs1 imm, encode (f rd rs1 imm)
      = wordI imm (regBits rs1) (fieldFunct3 mat) (regBits rd) (fieldOpcode mat)) :
    Row.roundTrips ⟨n, mat, 0x0000707F#32, shapeI f⟩ := by
  intro w hw
  obtain ⟨h3, ho⟩ := fields_of_hits_funct3 hw
  refine ⟨hwf _ _ _, (henc _ _ _).trans ?_⟩
  rw [← h3, ← ho]
  exact wordI_fields w

theorem roundTrips_shapeS {f : Reg → Reg → BitVec 12 → Instr} (hwf : ∀ rs2 rs1 imm, (f rs2 rs1 imm).wf = true)
    (henc : ∀ rs2 rs1 imm, encode (f rs2 rs1 imm)
      = wordS imm (regBits rs2) (regBits rs1) (fieldFunct3 mat) (fieldOpcode mat)) :
    Row.roundTrips ⟨n, mat, 0x0000707F#32, shapeS f⟩ := by
  intro w hw
  obtain ⟨h3, ho⟩ := fields_of_hits_funct3 hw
  refine ⟨hwf _ _ _, (henc _ _ _).trans ?_⟩
  rw [← h3, ← ho]
  exact wordS_fields w

theorem roundTrips_shapeB {f : Reg → Reg → BitVec 13 → Instr}
    (hwf : ∀ rs1 rs2 off, (f rs1 rs2 off).wf = branchOffsetEven off)
    (henc : ∀ rs1 rs2 off, encode (f rs1 rs2 off)
      = wordB off (regBits rs2) (regBits rs1) (fieldFunct3 mat) (fieldOpcode mat)) :
    Row.roundTrips ⟨n, mat, 0x0000707F#32, shapeB f⟩ := by
  intro w hw
  obtain ⟨h3, ho⟩ := fields_of_hits_funct3 hw
  have heven : branchOffsetEven (fieldOffB w) = true := branchOffsetEven_iff.mpr (getLsbD_fieldOffB w 0 (by decide))
  refine ⟨(hwf _ _ _).trans heven, (henc _ _ _).trans ?_⟩
  rw [← h3, ← ho]
  exact wordB_fields w

theorem roundTrips_shapeU {f : Reg → BitVec 20 → Instr} (hwf : ∀ rd imm, (f rd imm).wf = true)
    (henc : ∀ rd imm, encode (f rd imm) = wordU imm (regBits rd) (fieldOpcode mat)) :
    Row.roundTrips ⟨n, mat, 0x0000007F#32, shapeU f⟩ := by
  intro w hw
  have ho := fields_of_hits_opcode hw
  refine ⟨hwf _ _, (henc _ _).trans ?_⟩
  rw [← ho]
  exact wordU_fields w

theorem roundTrips_shapeJ {f : Reg → BitVec 21 → Instr} (hwf : ∀ rd off, (f rd off).wf = jumpOffsetEven off)
    (henc : ∀ rd off, encode (f rd off) = wordJ off (regBits rd) (fieldOpcode mat)) :
    Row.roundTrips ⟨n, mat, 0x0000007F#32, shapeJ f⟩ := by
  intro w hw
  have ho := fields_of_hits_opcode hw
  have heven : jumpOffsetEven (fieldOffJ w) = true := jumpOffsetEven_iff.mpr (getLsbD_fieldOffJ w 0 (by decide))
  refine ⟨(hwf _ _).trans heven, (henc _ _).trans ?_⟩
  rw [← ho]
  exact wordJ_fields w

theorem roundTrips_shapeFixed {i : Instr} (hwf : i.wf = true) (henc : encode i = mat) :
    Row.roundTrips ⟨n, mat, 0xFFFFFFFF#32, shapeFixed i⟩ := by
  intro w hw
  have hmat : w &&& BitVec.allOnes 32 = mat := beq_iff_eq.mp hw
  exact ⟨hwf, henc.trans (hmat.symm.trans BitVec.and_allOnes)⟩

end RoundTrips

theorem upperAndJumpRows_roundTrip : ∀ r ∈ upperAndJumpRows, r.roundTrips := by
  intro r hr
  fin_cases hr
  · exact roundTrips_shapeU (fun _ _ => rfl) (fun _ _ => rfl)
  · exact roundTrips_shapeU (fun _ _ => rfl) (fun _ _ => rfl)
  · exact roundTrips_shapeJ (fun _ _ => rfl) (fun _ _ => rfl)
  · exact roundTrips_shapeI (fun _ _ _ => rfl) (fun _ _ _ => rfl)

theorem branchRows_roundTrip : ∀ r ∈ branchRows, r.roundTrips := by
  intro r hr
  fin_cases hr <;> exact roundTrips_shapeB (fun _ _ _ => rfl) (fun _ _ _ => rfl)

theorem loadRows_roundTrip : ∀ r ∈ loadRows, r.roundTrips := by
  intro r hr
  fin_cases hr <;> exact roundTrips_shapeI (fun _ _ _ => rfl) (fun _ _ _ => rfl)

theorem storeRows_roundTrip : ∀ r ∈ storeRows, r.roundTrips := by
  intro r hr
  fin_cases hr <;> exact roundTrips_shapeS (fun _ _ _ => rfl) (fun _ _ _ => rfl)

theorem opImmRows_roundTrip : ∀ r ∈ opImmRows, r.roundTrips := by
  intro r hr
  fin_cases hr
  iterate 6 exact roundTrips_shapeI (fun _ _ _ => rfl) (fun _ _ _ => rfl)
  iterate 3 exact roundTrips_shapeShift (fun _ _ _ => rfl) (fun _ _ _ => rfl)

theorem opRows_roundTrip : ∀ r ∈ opRows, r.roundTrips := by
  intro r hr
  fin_cases hr <;> exact roundTrips_shapeR (fun _ _ _ => rfl) (fun _ _ _ => rfl)

theorem systemRows_roundTrip : ∀ r ∈ systemRows, r.roundTrips := by
  intro r hr
  fin_cases hr <;> exact roundTrips_shapeFixed rfl rfl

/-- Each part of the table holds the rows of one format or two, so each row round-trips by its format's lemma. -/
theorem opcodeRows_roundTrip {r : Row} (hr : r ∈ opcodeRows) : r.roundTrips := by
  simp only [opcodeRows, List.mem_append, or_assoc] at hr
  rcases hr with hr | hr | hr | hr | hr | hr | hr
  · exact upperAndJumpRows_roundTrip r hr
  · exact branchRows_roundTrip r hr
  · exact loadRows_roundTrip r hr
  · exact storeRows_roundTrip r hr
  · exact opImmRows_roundTrip r hr
  · exact opRows_roundTrip r hr
  · exact systemRows_roundTrip r hr

/-- Settles O2: the word decodes by a row that hits it, and every row round-trips. -/
theorem encodeUndoesDecode : Obligations.EncodeUndoesDecode := by
  intro w i h
  obtain ⟨r, hr, rfl⟩ := (decodeWord_eq_ok_iff w i).mp h
  exact opcodeRows_roundTrip (List.mem_of_find?_eq_some hr) w (List.find?_some (p := fun r : Row => r.hits w) hr)

/-! ### The opcode map (R91 to R99) -/

/-- The bits of the opcode, funct3 and funct7, the only ones a row outside SYSTEM looks at. -/
def fieldsMask : Word := 0xFE00707F#32

/-- What a word keeps of itself in those bits is its three fields. -/
theorem and_fieldsMask (w : Word) :
    w &&& fieldsMask = wordR (fieldFunct7 w) 0#5 0#5 (fieldFunct3 w) 0#5 (fieldOpcode w) := by
  conv_lhs => rw [← wordR_fields w, fieldsMask, wordR_and_mask]

/-- The row tests the whole opcode against `op`, and besides it no bits but those of funct3 and funct7. -/
abbrev Row.testsOpcode (op : BitVec 7) (r : Row) : Prop :=
  (r.mask &&& fieldsMask = r.mask ∧ r.mat &&& fieldsMask = r.mat)
    ∧ fieldOpcode r.mask = BitVec.allOnes 7 ∧ fieldOpcode r.mat = op

/-- The row's test of funct7 and funct3. -/
def Row.hitsFuncts (r : Row) (f7 : BitVec 7) (f3 : BitVec 3) : Bool :=
  f7 &&& fieldFunct7 r.mask == fieldFunct7 r.mat && f3 &&& fieldFunct3 r.mask == fieldFunct3 r.mat

/-- A row that tests an opcode hits the words with that opcode whose funct3 and funct7 it hits. -/
theorem Row.hits_eq {r : Row} {op : BitVec 7} (h : r.testsOpcode op) (w : Word) :
    r.hits w = (fieldOpcode w == op && r.hitsFuncts (fieldFunct7 w) (fieldFunct3 w)) := by
  obtain ⟨⟨hmask, hmat⟩, hall, rfl⟩ := h
  have hw : (w &&& r.mask) &&& fieldsMask = w &&& r.mask := by rw [BitVec.and_assoc, hmask]
  rw [Bool.eq_iff_iff, Row.hits, Row.hitsFuncts]
  simp only [Bool.and_eq_true, beq_iff_eq]
  constructor
  · intro hits
    rw [← hits, fieldOpcode_and, fieldFunct7_and, fieldFunct3_and, hall, BitVec.and_allOnes]
    exact ⟨rfl, rfl, rfl⟩
  · rintro ⟨ho, h7, h3⟩
    rw [← hw, ← hmat, and_fieldsMask, and_fieldsMask r.mat, fieldOpcode_and, fieldFunct7_and, fieldFunct3_and, hall,
      BitVec.and_allOnes, ho, h7, h3]

/-- Rows that all test one opcode hit the words with that opcode whose funct3 and funct7 one of them hits. -/
theorem any_hits_eq {rows : List Row} {op : BitVec 7} (h : ∀ r ∈ rows, r.testsOpcode op) (w : Word) :
    rows.any (·.hits w) = (fieldOpcode w == op && rows.any (·.hitsFuncts (fieldFunct7 w) (fieldFunct3 w))) := by
  induction rows with
  | nil => simp
  | cons r rows ih =>
    obtain ⟨hr, hrows⟩ := List.forall_mem_cons.mp h
    rw [List.any_cons, List.any_cons, ih hrows, Row.hits_eq hr, Bool.and_or_distrib_left]

section OpcodeMap

variable (f7 : BitVec 7) (f3 : BitVec 3) (w : Word) {n : Mnemonic} {mat : Word} {b : Word → Instr}

/-- A row whose mask is the opcode takes every funct7 and funct3. -/
theorem hitsFuncts_opcode (h7 : fieldFunct7 mat = 0#7) (h3 : fieldFunct3 mat = 0#3) :
    Row.hitsFuncts ⟨n, mat, 0x0000007F#32, b⟩ f7 f3 = true := by
  have hno3 : fieldFunct3 0x0000007F#32 = 0#3 := by decide
  have hno7 : fieldFunct7 0x0000007F#32 = 0#7 := by decide
  rw [Row.hitsFuncts, hno3, hno7, h3, h7, BitVec.and_zero, BitVec.and_zero]
  rfl

/-- A row whose mask is the opcode and funct3 takes every funct7. -/
theorem hitsFuncts_funct3 (h7 : fieldFunct7 mat = 0#7) :
    Row.hitsFuncts ⟨n, mat, 0x0000707F#32, b⟩ f7 f3 = (f3 == fieldFunct3 mat) := by
  have hall3 : fieldFunct3 0x0000707F#32 = BitVec.allOnes 3 := by decide
  have hno7 : fieldFunct7 0x0000707F#32 = 0#7 := by decide
  rw [Row.hitsFuncts, hall3, hno7, h7, BitVec.and_zero, BitVec.and_allOnes]
  rfl

/-- A row whose mask is the opcode, funct3 and funct7 takes one value of each. -/
theorem hitsFuncts_funct7 :
    Row.hitsFuncts ⟨n, mat, 0xFE00707F#32, b⟩ f7 f3 = (f7 == fieldFunct7 mat && f3 == fieldFunct3 mat) := by
  have hall3 : fieldFunct3 0xFE00707F#32 = BitVec.allOnes 3 := by decide
  have hall7 : fieldFunct7 0xFE00707F#32 = BitVec.allOnes 7 := by decide
  rw [Row.hitsFuncts, hall3, hall7, BitVec.and_allOnes, BitVec.and_allOnes]

theorem branchRows_hitsFuncts : branchRows.any (·.hitsFuncts f7 f3) = (f3 != 2#3 && f3 != 3#3) := by
  simp (disch := decide) only [branchRows, List.any_cons, List.any_nil, hitsFuncts_funct3]
  revert f3
  decide

theorem loadRows_hitsFuncts : loadRows.any (·.hitsFuncts f7 f3) = (f3 != 3#3 && f3 != 6#3 && f3 != 7#3) := by
  simp (disch := decide) only [loadRows, List.any_cons, List.any_nil, hitsFuncts_funct3]
  revert f3
  decide

theorem storeRows_hitsFuncts : storeRows.any (·.hitsFuncts f7 f3) = (f3 == 0#3 || f3 == 1#3 || f3 == 2#3) := by
  simp (disch := decide) only [storeRows, List.any_cons, List.any_nil, hitsFuncts_funct3]
  revert f3
  decide

theorem opImmRows_hitsFuncts : opImmRows.any (·.hitsFuncts f7 f3)
    = ((f3 != 1#3 && f3 != 5#3) || (f3 == 1#3 && f7 == 0#7) || (f3 == 5#3 && (f7 == 0#7 || f7 == 0b0100000#7))) := by
  simp (disch := decide) only [opImmRows, List.any_cons, List.any_nil, hitsFuncts_funct3, hitsFuncts_funct7, fieldFunct7,
    BitVec.reduceExtractLsb']
  generalize (f7 == 0#7) = zero, (f7 == 0b0100000#7) = alternate
  revert f3 zero alternate
  decide

theorem opRows_hitsFuncts : opRows.any (·.hitsFuncts f7 f3)
    = (f7 == 0#7 || (f7 == 0b0100000#7 && (f3 == 0#3 || f3 == 5#3))) := by
  simp only [opRows, List.any_cons, List.any_nil, hitsFuncts_funct7, fieldFunct7, BitVec.reduceExtractLsb']
  generalize (f7 == 0#7) = zero, (f7 == 0b0100000#7) = alternate
  revert f3 zero alternate
  decide

theorem upperAndJumpRows_any_hits : upperAndJumpRows.any (·.hits w)
    = (fieldOpcode w == 0b0110111#7 || fieldOpcode w == 0b0010111#7 || fieldOpcode w == 0b1101111#7
      || (fieldOpcode w == 0b1100111#7 && fieldFunct3 w == 0#3)) := by
  simp (disch := decide) only [upperAndJumpRows, List.any_cons, List.any_nil, Row.hits_eq (op := 0b0110111#7),
    Row.hits_eq (op := 0b0010111#7), Row.hits_eq (op := 0b1101111#7), Row.hits_eq (op := 0b1100111#7),
    hitsFuncts_opcode, hitsFuncts_funct3, Bool.and_true, Bool.or_false, Bool.or_assoc]
  rfl

theorem systemRows_any_hits : systemRows.any (·.hits w) = (w == 0x00000073#32 || w == 0x00100073#32) := by
  have hall : w &&& 0xFFFFFFFF#32 = w := BitVec.and_allOnes
  simp only [systemRows, List.any_cons, List.any_nil, Row.hits, hall, Bool.or_false]

/-- The executable words are those that a row hits. -/
theorem opcodeRows_any_hits : opcodeRows.any (·.hits w) = Machine.executableWord w := by
  have hbranch : ∀ r ∈ branchRows, r.testsOpcode 0b1100011#7 := by decide
  have hload : ∀ r ∈ loadRows, r.testsOpcode 0b0000011#7 := by decide
  have hstore : ∀ r ∈ storeRows, r.testsOpcode 0b0100011#7 := by decide
  have hopImm : ∀ r ∈ opImmRows, r.testsOpcode 0b0010011#7 := by decide
  have hop : ∀ r ∈ opRows, r.testsOpcode 0b0110011#7 := by decide
  simp only [opcodeRows, List.any_append, upperAndJumpRows_any_hits, any_hits_eq hbranch, branchRows_hitsFuncts,
    any_hits_eq hload, loadRows_hitsFuncts, any_hits_eq hstore, storeRows_hitsFuncts, any_hits_eq hopImm,
    opImmRows_hitsFuncts, any_hits_eq hop, opRows_hitsFuncts, systemRows_any_hits, Bool.and_or_distrib_left, Bool.or_assoc,
    Bool.and_assoc, Machine.executableWord]
  rfl

end OpcodeMap

/-- Settles O4: a word that a row hits decodes by it, and the executable words are those a row hits. -/
theorem onlyTheOpcodeMapDecodes : Obligations.OnlyTheOpcodeMapDecodes := by
  intro w
  rw [← opcodeRows_any_hits]
  refine ⟨fun h => ?_, fun h => ?_⟩
  · obtain ⟨r, hr, hw⟩ := List.any_eq_true.mp h
    exact ⟨_, decodeWord_of_hits hr hw⟩
  · have hnone : opcodeRows.find? (fun r => r.hits w) = none :=
      List.find?_eq_none.mpr fun r hr => List.any_eq_false.mp h r hr
    rw [decodeWord, hnone]

end Sys2Proof

namespace Sys2Proof.Machine

/-! ### The immediates of an operand list (R107) -/

theorem imm12Of_eq_some_iff {v : Int} {imm : BitVec 12} : imm12Of v = some imm ↔ v = imm.toInt := by
  have hlo := BitVec.le_toInt imm
  have hhi := BitVec.toInt_lt (x := imm)
  rw [imm12Of, Option.ite_none_right_eq_some, Option.some.injEq]
  constructor
  · rintro ⟨hv, rfl⟩
    rw [BitVec.toInt_ofInt, Int.bmod_eq_of_le] <;> omega
  · rintro rfl
    exact ⟨by omega, BitVec.ofInt_toInt⟩

/-- The integers below `2^n` are the unsigned values of `n` bits. -/
theorem ofInt_eq_iff_of_lt {n : Nat} {v : Int} (hlo : 0 ≤ v) (hhi : v < 2 ^ n) {x : BitVec n} :
    BitVec.ofInt n v = x ↔ v = x.toNat := by
  obtain ⟨k, rfl⟩ := Int.eq_ofNat_of_zero_le hlo
  have hk : k < 2 ^ n := by exact_mod_cast hhi
  rw [← BitVec.toNat_inj, BitVec.ofInt_natCast, BitVec.toNat_ofNat, Nat.mod_eq_of_lt hk]
  norm_cast

/-- An unsigned field whose greatest value is `top`. -/
theorem unsignedOf_eq_some_iff {n : Nat} {v top : Int} (htop : top + 1 = 2 ^ n) {x : BitVec n} :
    (if 0 ≤ v ∧ v ≤ top then some (BitVec.ofInt n v) else none) = some x ↔ v = x.toNat := by
  rw [Option.ite_none_right_eq_some, Option.some.injEq]
  constructor
  · rintro ⟨hv, h⟩
    exact (ofInt_eq_iff_of_lt (by omega) (by omega)).mp h
  · rintro rfl
    have hlt : (x.toNat : Int) < 2 ^ n := by exact_mod_cast x.isLt
    exact ⟨by omega, (ofInt_eq_iff_of_lt (by omega) hlt).mpr rfl⟩

theorem imm20Of_eq_some_iff {v : Int} {imm : BitVec 20} : imm20Of v = some imm ↔ v = imm.toNat :=
  unsignedOf_eq_some_iff (by norm_num)

theorem shamtOf_eq_some_iff {v : Int} {sh : BitVec 5} : shamtOf v = some sh ↔ v = sh.toNat :=
  unsignedOf_eq_some_iff (by norm_num)

/-! ### Offsets and targets (R87, R89, R90) -/

/-- The target the distance `d` leads to is the address whose distance from `addr` is `d`. -/
theorem targetDistance_eq_iff {addr d : Word} {target : Int} (hlo : 0 ≤ target) (hhi : target < 2 ^ 32) :
    targetDistance addr target = d ↔ target = (wordAdd addr d).toNat := by
  rw [← ofInt_eq_iff_of_lt hlo hhi, targetDistance, wordSub, wordAdd, BitVec.sub_eq_iff_eq_add, BitVec.add_comm]

section Offsets

variable {n : Nat} {lo hi : Int} (hn : 1 < n) (hn32 : n ≤ 32) (hlo : lo = -2 ^ (n - 1)) (hhi : hi = 2 ^ (n - 1) - 2)
  {off : BitVec n}

include hn hn32 hlo hhi in
/-- A distance that fits in `n` bits is the sign extension of its low `n` bits. -/
theorem signExtend_setWidth_of_fits {d : Word} (hd : lo ≤ d.toInt ∧ d.toInt ≤ hi) :
    (d.setWidth n).signExtend 32 = d := by
  obtain ⟨m, rfl⟩ : ∃ m, n = m + 1 := ⟨n - 1, by omega⟩
  rw [Nat.add_sub_cancel] at hlo hhi
  apply BitVec.eq_of_toInt_eq
  rw [BitVec.toInt_signExtend_of_le hn32, ← BitVec.signExtend_eq_setWidth_of_le d hn32,
    BitVec.toInt_signExtend_eq_toInt_bmod_of_le d hn32]
  have hpow : ((2 ^ (m + 1) : Nat) : Int) = 2 * 2 ^ m := by push_cast; ring
  apply Int.bmod_eq_of_le <;> omega

include hn hn32 hlo hhi in
/-- An even offset of `n` bits is an even distance in the range of such offsets. -/
theorem signExtend_fits (he : off.getLsbD 0 = false) :
    (off.signExtend 32).getLsbD 0 = false ∧ lo ≤ (off.signExtend 32).toInt ∧ (off.signExtend 32).toInt ≤ hi := by
  obtain ⟨m, rfl⟩ : ∃ m, n = m + 2 := ⟨n - 2, by omega⟩
  have hhalf : (2 : Int) ^ (m + 2 - 1) = 2 * 2 ^ m := pow_succ' 2 m
  have hpow : ((2 ^ (m + 2) : Nat) : Int) = 2 * (2 * 2 ^ m) := by push_cast; ring
  have hbit : off.toNat % 2 = 0 := by simpa [BitVec.getLsbD, Nat.testBit_zero] using he
  have heven : off.toInt % 2 = 0 := by
    rw [BitVec.toInt_eq_toNat_cond]
    split <;> omega
  have hle := BitVec.le_toInt off
  have hlt := BitVec.toInt_lt (x := off)
  rw [BitVec.toInt_signExtend_of_le hn32]
  refine ⟨?_, by omega, by omega⟩
  rw [BitVec.getLsbD_signExtend]
  simpa using he

include hn32 in
/-- An offset of `n` bits is the low `n` bits of its sign extension. -/
theorem setWidth_signExtend : (off.signExtend 32).setWidth n = off := by
  apply BitVec.eq_of_getLsbD_eq
  intro i hi
  have h32 : i < 32 := by omega
  rw [BitVec.getLsbD_setWidth, BitVec.getLsbD_signExtend]
  simp [hi, h32]

include hn hn32 hlo hhi in
/-- The offsets of a format and the targets they name: a target in range of an even offset, and that offset's target. -/
theorem offset_iff_target {addr : Word} {target : Int} :
    ((0 ≤ target ∧ target < 2 ^ 32 ∧ (targetDistance addr target).getLsbD 0 = false
        ∧ lo ≤ (targetDistance addr target).toInt ∧ (targetDistance addr target).toInt ≤ hi)
      ∧ (targetDistance addr target).setWidth n = off)
    ↔ off.getLsbD 0 = false ∧ target = (wordAdd addr (off.signExtend 32)).toNat := by
  constructor
  · rintro ⟨⟨h0, h32, he, hfits⟩, rfl⟩
    rw [signExtend_setWidth_of_fits hn hn32 hlo hhi hfits, ← targetDistance_eq_iff h0 h32]
    refine ⟨?_, rfl⟩
    rw [BitVec.getLsbD_setWidth, he, Bool.and_false]
  · rintro ⟨he, rfl⟩
    have hlt := (wordAdd addr (off.signExtend 32)).isLt
    have hd : targetDistance addr (wordAdd addr (off.signExtend 32)).toNat = off.signExtend 32 :=
      (targetDistance_eq_iff (by omega) (by omega)).mpr rfl
    rw [hd]
    exact ⟨⟨by omega, by omega, signExtend_fits hn hn32 hlo hhi he⟩, setWidth_signExtend hn32⟩

end Offsets

theorem branchOffsetOf_eq_some_iff {addr : Word} {target : Int} {off : BitVec 13} :
    branchOffsetOf addr target = some off
      ↔ branchOffsetEven off = true ∧ target = (wordAdd addr (off.signExtend 32)).toNat := by
  rw [branchOffsetOf, Option.ite_none_right_eq_some, Option.some.injEq, branchOffsetEven_iff]
  exact offset_iff_target (by decide) (by decide) (by norm_num) (by norm_num)

theorem jumpOffsetOf_eq_some_iff {addr : Word} {target : Int} {off : BitVec 21} :
    jumpOffsetOf addr target = some off
      ↔ jumpOffsetEven off = true ∧ target = (wordAdd addr (off.signExtend 32)).toNat := by
  rw [jumpOffsetOf, Option.ite_none_right_eq_some, Option.some.injEq, jumpOffsetEven_iff]
  exact offset_iff_target (by decide) (by decide) (by norm_num) (by norm_num)

/-! ### Operand lists (R90) -/

section Parse

variable {l : List Operand} {i : Instr} {addr : Word}

theorem eq_of_parseR {f : Reg → Reg → Reg → Instr} (h : parseR f l = some i) :
    ∃ rd rs1 rs2, l = [.reg rd, .reg rs1, .reg rs2] ∧ f rd rs1 rs2 = i := by
  unfold parseR at h
  split at h
  · exact ⟨_, _, _, rfl, Option.some.inj h⟩
  · cases h

theorem eq_of_parseNone {j : Instr} (h : parseNone j l = some i) : l = [] ∧ j = i := by
  unfold parseNone at h
  split at h
  · exact ⟨rfl, Option.some.inj h⟩
  · cases h

theorem eq_of_parseI {f : Reg → Reg → BitVec 12 → Instr} (h : parseI f l = some i) :
    ∃ rd rs1 imm, l = [.reg rd, .reg rs1, .imm (BitVec.toInt imm)] ∧ f rd rs1 imm = i := by
  unfold parseI at h
  split at h
  · obtain ⟨imm, himm, rfl⟩ := Option.map_eq_some_iff.mp h
    obtain rfl := imm12Of_eq_some_iff.mp himm
    exact ⟨_, _, imm, rfl, rfl⟩
  · cases h

theorem eq_of_parseShift {f : Reg → Reg → BitVec 5 → Instr} (h : parseShift f l = some i) :
    ∃ rd rs1 sh, l = [.reg rd, .reg rs1, .imm (BitVec.toNat sh)] ∧ f rd rs1 sh = i := by
  unfold parseShift at h
  split at h
  · obtain ⟨sh, hsh, rfl⟩ := Option.map_eq_some_iff.mp h
    obtain rfl := shamtOf_eq_some_iff.mp hsh
    exact ⟨_, _, sh, rfl, rfl⟩
  · cases h

theorem eq_of_parseMem {f : Reg → Reg → BitVec 12 → Instr} (h : parseMem f l = some i) :
    ∃ r rs1 imm, l = [.reg r, .mem rs1 (BitVec.toInt imm)] ∧ f r rs1 imm = i := by
  unfold parseMem at h
  split at h
  · obtain ⟨imm, himm, rfl⟩ := Option.map_eq_some_iff.mp h
    obtain rfl := imm12Of_eq_some_iff.mp himm
    exact ⟨_, _, imm, rfl, rfl⟩
  · cases h

theorem eq_of_parseB {f : Reg → Reg → BitVec 13 → Instr} (h : parseB addr f l = some i) :
    ∃ rs1 rs2 off, branchOffsetEven off = true
      ∧ l = [.reg rs1, .reg rs2, targetOperand addr (BitVec.signExtend 32 off)] ∧ f rs1 rs2 off = i := by
  unfold parseB at h
  split at h
  · obtain ⟨off, hoff, rfl⟩ := Option.map_eq_some_iff.mp h
    obtain ⟨heven, rfl⟩ := branchOffsetOf_eq_some_iff.mp hoff
    exact ⟨_, _, off, heven, rfl, rfl⟩
  · cases h

theorem eq_of_parseU {f : Reg → BitVec 20 → Instr} (h : parseU f l = some i) :
    ∃ rd imm, l = [.reg rd, .imm (BitVec.toNat imm)] ∧ f rd imm = i := by
  unfold parseU at h
  split at h
  · obtain ⟨imm, himm, rfl⟩ := Option.map_eq_some_iff.mp h
    obtain rfl := imm20Of_eq_some_iff.mp himm
    exact ⟨_, imm, rfl, rfl⟩
  · cases h

theorem eq_of_parseJ {f : Reg → BitVec 21 → Instr} (h : parseJ addr f l = some i) :
    ∃ rd off, jumpOffsetEven off = true ∧ l = [.reg rd, targetOperand addr (BitVec.signExtend 32 off)] ∧ f rd off = i := by
  unfold parseJ at h
  split at h
  · obtain ⟨off, hoff, rfl⟩ := Option.map_eq_some_iff.mp h
    obtain ⟨heven, rfl⟩ := jumpOffsetOf_eq_some_iff.mp hoff
    exact ⟨_, off, heven, rfl, rfl⟩
  · cases h

/-- An even branch offset reads back from its target. -/
theorem parseB_targetOperand {f : Reg → Reg → BitVec 13 → Instr} {rs1 rs2 : Reg} {off : BitVec 13}
    (h : branchOffsetEven off = true) :
    parseB addr f [.reg rs1, .reg rs2, targetOperand addr (off.signExtend 32)] = some (f rs1 rs2 off) := by
  rw [targetOperand, parseB, branchOffsetOf_eq_some_iff.mpr ⟨h, rfl⟩, Option.map_some]

/-- An even `jal` offset reads back from its target. -/
theorem parseJ_targetOperand {f : Reg → BitVec 21 → Instr} {rd : Reg} {off : BitVec 21} (h : jumpOffsetEven off = true) :
    parseJ addr f [.reg rd, targetOperand addr (off.signExtend 32)] = some (f rd off) := by
  rw [targetOperand, parseJ, jumpOffsetOf_eq_some_iff.mpr ⟨h, rfl⟩, Option.map_some]

end Parse

/-- A list that parses is well-formed, and is the decoder's list for what it parses to. -/
theorem eq_operandsOf_of_parseAbstract {addr : Word} {a : AbstractInstr} {i : Instr} (h : parseAbstract addr a = some i) :
    i.wf = true ∧ a = operandsOf addr i := by
  obtain ⟨m, l⟩ := a
  cases m with
  | lui | auipc =>
    obtain ⟨rd, imm, rfl, rfl⟩ := eq_of_parseU h
    exact ⟨rfl, rfl⟩
  | jal =>
    obtain ⟨rd, off, heven, rfl, rfl⟩ := eq_of_parseJ h
    exact ⟨heven, rfl⟩
  | beq | bne | blt | bge | bltu | bgeu =>
    obtain ⟨rs1, rs2, off, heven, rfl, rfl⟩ := eq_of_parseB h
    exact ⟨heven, rfl⟩
  | lb | lh | lw | lbu | lhu | sb | sh | sw =>
    obtain ⟨r, rs1, imm, rfl, rfl⟩ := eq_of_parseMem h
    exact ⟨rfl, rfl⟩
  | jalr | addi | slti | sltiu | xori | ori | andi =>
    obtain ⟨rd, rs1, imm, rfl, rfl⟩ := eq_of_parseI h
    exact ⟨rfl, rfl⟩
  | slli | srli | srai =>
    obtain ⟨rd, rs1, sh, rfl, rfl⟩ := eq_of_parseShift h
    exact ⟨rfl, rfl⟩
  | add | sub | sll | slt | sltu | xor | srl | sra | or | and =>
    obtain ⟨rd, rs1, rs2, rfl, rfl⟩ := eq_of_parseR h
    exact ⟨rfl, rfl⟩
  | ecall | ebreak =>
    obtain ⟨rfl, rfl⟩ := eq_of_parseNone h
    exact ⟨rfl, rfl⟩

/-- Settles O53: each immediate of the list is in the range of its format and reads back as it was. -/
theorem decodedOperandsNeverFailToParse : Obligations.DecodedOperandsNeverFailToParse := by
  intro i addr h
  cases i with
  | lui | auipc => exact Option.map_eq_some_iff.mpr ⟨_, imm20Of_eq_some_iff.mpr rfl, rfl⟩
  | jal =>
    rw [operandsOf, parseAbstract]
    exact parseJ_targetOperand h
  | beq | bne | blt | bge | bltu | bgeu =>
    rw [operandsOf, parseAbstract]
    exact parseB_targetOperand h
  | jalr | lb | lh | lw | lbu | lhu | sb | sh | sw | addi | slti | sltiu | xori | ori | andi =>
    exact Option.map_eq_some_iff.mpr ⟨_, imm12Of_eq_some_iff.mpr rfl, rfl⟩
  | slli | srli | srai => exact Option.map_eq_some_iff.mpr ⟨_, shamtOf_eq_some_iff.mpr rfl, rfl⟩
  | add | sub | sll | slt | sltu | xor | srl | sra | or | and | ecall | ebreak => rfl

/-- Settles O54: a list that parses is the decoder's, and the engine takes Parse or runs the handler by what it parses to. -/
theorem malformedOperandsRaiseParse : Obligations.MalformedOperandsRaiseParse := by
  refine ⟨fun addr a i h => eq_operandsOf_of_parseAbstract h, fun a s => ⟨fun h => ?_, fun i h => ?_⟩⟩
  · exact ⟨s.advancePc.takeFault .parse, by rw [execAbstract, h], faultTaken_takeFault s.advancePc .parse⟩
  · rw [execAbstract, h]
    rfl

end Sys2Proof.Machine
end

section
/-! PROOFS. The statements about the cycle (spec/40_execution_cycle.md): the stack guard, what a dispatched instruction makes
of a step, the faults a step can record, and what a step reports. -/

namespace Sys2Proof.Machine

/-! ### The transitions that are no step of the engine (R121, R130, R131) -/

section Transition

variable {engine rest : State → Host.Outcome State Fault Refusal} {s : State}

/-- Halted, a machine changes nothing (R121). -/
theorem transition_of_halted (hc : configWf s.cfg) (hr : s.runState = .halted) : transition engine s = .next s := by
  rw [transition, if_pos hc, hr]

/-- Suspended with no command, it is held (R130). -/
theorem transition_of_held (hc : configWf s.cfg) (hr : s.runState = .debugSuspended) (hd : s.debugCommands = []) :
    transition engine s = .next s := by
  rw [transition, if_pos hc, hr, hd]

/-- `dbg_resume` makes it run (R131). -/
theorem transition_of_resume {cs : List DebugCommand} (hc : configWf s.cfg) (hr : s.runState = .debugSuspended)
    (hd : s.debugCommands = .dbgResume :: cs) :
    transition engine s = .next { s with debugCommands := cs, runState := .running } := by
  rw [transition, if_pos hc, hr, hd]
  rfl

/-- The engine does not step in these three states alone. -/
theorem not_stepping_cases (hs : ¬stepping s) :
    s.runState = .halted ∨ (s.runState = .debugSuspended ∧ s.debugCommands = [])
      ∨ (s.runState = .debugSuspended ∧ ∃ cs, s.debugCommands = .dbgResume :: cs) := by
  cases hr : s.runState with
  | halted => exact .inl rfl
  | running => exact absurd (.inl hr) hs
  | debugSuspended =>
    match hd : s.debugCommands with
    | [] => exact .inr (.inl ⟨rfl, rfl⟩)
    | .dbgResume :: cs => exact .inr (.inr ⟨rfl, cs, rfl⟩)
    | .dbgStep :: cs => exact absurd (.inr ⟨hr, cs, hd⟩) hs

/-- So a machine with a well-formed map whose engine does not step has a next state. -/
theorem transition_of_not_stepping (hc : configWf s.cfg) (hs : ¬stepping s) : ∃ t, transition engine s = .next t := by
  rcases not_stepping_cases hs with hr | ⟨hr, hd⟩ | ⟨hr, cs, hd⟩
  · exact ⟨_, transition_of_halted hc hr⟩
  · exact ⟨_, transition_of_held hc hr hd⟩
  · exact ⟨_, transition_of_resume hc hr hd⟩

/-! ### The stack guard (R122) -/

/-- The command a debugger has given has no part in the guard. -/
theorem guardPasses_commandTaken : guardPasses (commandTaken s) ↔ guardPasses s := by
  simp [guardPasses]

/-- Past the guard, the cycle is counted and the step goes on (R123). -/
theorem guarded_of_guardPasses (hg : guardPasses s) : guarded rest s = rest s.countCycle := by
  rcases guarded_cases rest s with ⟨hf, -⟩ | ⟨-, h⟩
  · simp [(guardFires_eq_false_iff s).mpr hg] at hf
  · exact h

/-- Otherwise the step is the guard's fault. -/
theorem guarded_of_not_guardPasses (hg : ¬guardPasses s) :
    guarded rest s = .next (s.takeFault (.stackOverflow (s.readReg 2))) := by
  rcases guarded_cases rest s with ⟨-, h⟩ | ⟨hf, -⟩
  · exact h
  · exact absurd ((guardFires_eq_false_iff s).mp hf) hg

/-- A step of a guarded engine that the guard stops takes StackOverflow, and nothing else changes. -/
theorem transition_faultTaken_of_not_guardPasses (hc : configWf s.cfg) (hs : stepping s) (hg : ¬guardPasses s) :
    ∃ t, transition (guarded rest) s = .next t ∧ faultTaken (commandTaken s) t (.stackOverflow (s.readReg 2)) := by
  refine ⟨(commandTaken s).takeFault (.stackOverflow (s.readReg 2)), ?_, faultTaken_takeFault _ _⟩
  rw [transition_of_stepping hc hs, guarded_of_not_guardPasses (mt guardPasses_commandTaken.mp hg), commandTaken_readReg]

end Transition

variable {i : Instr} {s t : State} {F : Fault}

/-! ### What a dispatched instruction makes of a step (R120, R124) -/

/-- The state the handler of a step runs in. -/
theorem countCycle_advancePc_commandTaken (s : State) : (commandTaken s).countCycle.advancePc = handlerState s := by
  unfold handlerState commandTaken
  split <;> rfl

/-- The bytes at pc decode as the word they stand for. -/
theorem decode_bytesAtPc_eq_ok (h : decode (bytesAtPc s) = .ok (i, [])) :
    decodeWord (wordOfBytes (bytesAtPc s)) = .ok i := by
  unfold bytesAtPc at h ⊢
  cases hd : decodeWord (wordOfBytes [s.byteAt s.pc.toNat, s.byteAt (s.pc.toNat + 1), s.byteAt (s.pc.toNat + 2),
      s.byteAt (s.pc.toNat + 3)]) with
  | ok j => simp only [decode, hd, Except.ok.injEq, Prod.mk.injEq, and_true] at h; rw [h]
  | error e => simp [decode, hd] at h

/-- What is fetchable is fetched, when sections share no address. -/
theorem fetch_of_fetchable (hp : s.cfg.map.Pairwise sectionsApart) (h : fetchable s) :
    s.fetch s.pc = .ok (wordOfBytes (bytesAtPc s)) := by
  obtain ⟨hal, S, hS, hlo, hhi, hx⟩ := h
  rw [State.fetch, if_pos ((aligned4_iff s.pc).mpr hal), (resolve_eq_some_iff hp (by decide)).mpr ⟨hS, hlo, hhi⟩]
  exact if_pos hx

/-- What a step dispatches is fetched and decoded. -/
theorem fetch_of_dispatches (hp : s.cfg.map.Pairwise sectionsApart) (h : dispatches s i) :
    ∃ w, s.fetch s.pc = .ok w ∧ decodeWord w = .ok i := by
  obtain ⟨-, hf, hd⟩ := h
  exact ⟨_, fetch_of_fetchable hp hf, decode_bytesAtPc_eq_ok hd⟩

/-- A step of the engine runs the handler of what it dispatches, the cycle counted and pc advanced. -/
theorem engineStep_of_dispatches (hp : s.cfg.map.Pairwise sectionsApart) (h : dispatches s i) :
    engineStep s = exec i s.countCycle.advancePc := by
  obtain ⟨w, hf, hd⟩ := fetch_of_dispatches hp h
  rw [engineStep_of_guardPasses h.1, fetchAndRun, State.countCycle_fetch, State.countCycle_pc, hf]
  simp only [hd]

/-- Settles O13: the engine steps from the state with the command used up, which dispatches the same instruction. -/
theorem stepRunsTheDecodedInstruction : Obligations.StepRunsTheDecodedInstruction := by
  intro s i hc hs hd
  have hp : (commandTaken s).cfg.map.Pairwise sectionsApart := by simpa using hc.1
  rw [step_of_stepping hc hs, engineStep_of_dispatches hp (dispatches_commandTaken.mpr hd),
    countCycle_advancePc_commandTaken]

/-! ### Every step has a next state (R134, R288) -/

/-- A step of the engine has a next state, unless the reference Bridge does not know the number of an `ecall` (R264). -/
theorem engineStep_next_or_refused (s : State) :
    (∃ t, engineStep s = .next t)
    ∨ (s.cfg.bridge = .reference ∧ dispatches s .ecall ∧ s.readReg 17 ≠ 93#32
        ∧ engineStep s = .refused (.syscallUndefined (s.readReg 17))) := by
  rcases engineStep_cases s with ⟨-, he⟩ | ⟨F, -, -, he⟩ | ⟨w, -, -, -, he⟩ | ⟨w, i, hg, hf, hd, he⟩
  · exact .inl ⟨_, he⟩
  · exact .inl ⟨_, he⟩
  · exact .inl ⟨_, he⟩
  · cases hx : exec i s.countCycle.advancePc with
    | next t => exact .inl ⟨t, he.trans hx⟩
    | fault F => exact absurd hx (exec_no_fault i _ F)
    | refused r =>
      obtain ⟨rfl, hb, hn, rfl⟩ := exec_refused hx
      exact .inr ⟨hb, dispatches_of_fetch hg hf hd, hn, he.trans hx⟩

/-- Settles O25: a machine whose engine does not step has a next state, and the engine has one but for that `ecall`. -/
theorem everyStepHasANextState : Obligations.EveryStepHasANextState := by
  intro s hc
  by_cases hs : stepping s
  · have h := engineStep_next_or_refused (commandTaken s)
    rw [← step_of_stepping hc hs, dispatches_commandTaken, commandTaken_cfg, commandTaken_readReg] at h
    exact h.imp_right fun ⟨hb, hd, hn, he⟩ => ⟨hb, hs, hd, hn, he⟩
  · exact .inl (transition_of_not_stepping hc hs)

/-! ### The faults a step can record (R126, R291) -/

/-- A MemoryAccess fault of a read or a write. -/
def dataFault (F : Fault) : Prop := ∃ addr width kind reason, kind ≠ .fetch ∧ F = .memoryAccess addr width kind reason

theorem dataFault_of_memRead {addr : Word} {width : Width} (h : s.memRead addr width = .error F) : dataFault F :=
  ⟨addr, width, .read, .unmapped, by decide, (State.memRead_error h).2⟩

theorem dataFault_of_memWrite {addr v : Word} {width : Width} (h : s.memWrite addr width v = .error F) : dataFault F := by
  rcases State.memWrite_error h with ⟨-, hF⟩ | ⟨S, -, -, hF⟩
  · exact ⟨addr, width, .write, .unmapped, by decide, hF⟩
  · exact ⟨addr, width, .write, .readOnly, by decide, hF⟩

/-- A fault the Bridge's accesses record is of a read or a write, and has halted the engine (R262 e). -/
theorem State.bridgeActs_fault (acts : List BridgeAct) : ∀ s : State, s.fault = none →
    (State.bridgeActs acts s).fault = some F → dataFault F ∧ (State.bridgeActs acts s).runState = .halted := by
  induction acts with
  | nil => intro s hs hF; cases hs.symm.trans hF
  | cons act acts ih =>
    intro s hs
    cases act with
    | setReg r v => exact ih _ (by simpa using hs)
    | load addr width =>
      simp only [State.bridgeActs]
      cases hr : s.memRead addr width with
      | ok v => exact ih s hs
      | error G => rintro ⟨⟩; exact ⟨dataFault_of_memRead hr, rfl⟩
    | store addr width v =>
      simp only [State.bridgeActs]
      cases hw : s.memWrite addr width v with
      | ok u => obtain ⟨S, -, -, rfl⟩ := State.memWrite_ok hw; exact ih _ hs
      | error G => rintro ⟨⟩; exact ⟨dataFault_of_memWrite hw, rfl⟩

/-- What a fault taken in `s` leaves of it, whatever happened to registers and memory before. -/
def haltedIn (s t : State) : Prop :=
  t.runState = .halted ∧ t.exitCode = s.exitCode ∧ t.cfg = s.cfg ∧ t.pc = s.pc ∧ t.cycle = s.cycle

theorem haltedIn_takeFault (s : State) (F : Fault) : haltedIn s (s.takeFault F) := ⟨rfl, rfl, rfl, rfl, rfl⟩

/-- A fault of the Bridge's accesses is of a read or a write, and halts in the state the `ecall` runs in (R262 e). -/
theorem haltedIn_applyAnswer {a : BridgeAnswer} (hs : s.fault = none) (hF : (s.useAnswer.applyAnswer a).fault = some F) :
    dataFault F ∧ haltedIn s (s.useAnswer.applyAnswer a) := by
  have hs' : s.useAnswer.fault = none := by simpa using hs
  match a with
  | .exit code => cases hs'.symm.trans hF
  | .continue acts =>
    obtain ⟨hdata, hr⟩ := State.bridgeActs_fault acts s.useAnswer hs' hF
    obtain ⟨hpc, hcycle, hexit, hcfg, -⟩ := State.bridgeActs_frame s.useAnswer acts
    exact ⟨hdata, hr, hexit.trans (by simp), hcfg.trans (by simp), hpc.trans (by simp), hcycle.trans (by simp)⟩

/-- A fault that a handler records is of a read or a write and halts in the state the handler runs in; it is the handler's
only effect, unless the Bridge of an `ecall` has written first (R262 e, R291). -/
theorem exec_fault (h : exec i s = .next t) (hs : s.fault = none) (hF : t.fault = some F) :
    dataFault F ∧ haltedIn s t ∧ (i = .ecall ∨ t = s.takeFault F) := by
  rcases exec_cases h with ⟨rd, v, rfl⟩ | ⟨rd, v, target, rfl⟩ | ⟨addr, width, v, hw⟩
    | ⟨addr, width, kind, reason, hk, rfl⟩ | ⟨rfl, -, rfl⟩ | ⟨rfl, -, -, rfl⟩ | ⟨rfl, rfl⟩
  · simp [hs] at hF
  · simp [hs] at hF
  · obtain ⟨S, -, -, rfl⟩ := State.memWrite_ok hw
    cases hs.symm.trans hF
  · cases hF
    exact ⟨⟨addr, width, kind, reason, hk, rfl⟩, haltedIn_takeFault s _, .inr rfl⟩
  · obtain ⟨hdata, hhalt⟩ := haltedIn_applyAnswer hs hF
    exact ⟨hdata, hhalt, .inl rfl⟩
  · cases hs.symm.trans hF
  · cases hs.symm.trans hF

/-- EVERY FAULT A STEP OF THE ENGINE CAN RECORD: the guard's, before anything is counted; a fetch's, before pc is advanced;
an unknown word's; or a handler's. -/
theorem engineStep_fault (h : engineStep s = .next t) (hs : s.fault = none) (hF : t.fault = some F) :
    (¬guardPasses s ∧ F = .stackOverflow (s.readReg 2) ∧ t = s.takeFault F)
    ∨ (∃ addr width reason, F = .memoryAccess addr width .fetch reason ∧ t = s.countCycle.takeFault F)
    ∨ (∃ w, F = .unimplemented w ∧ t = s.countCycle.advancePc.takeFault F)
    ∨ (∃ i, dispatches s i ∧ dataFault F ∧ haltedIn s.countCycle.advancePc t
        ∧ (i = .ecall ∨ t = s.countCycle.advancePc.takeFault F)) := by
  rcases engineStep_cases s with ⟨hg, he⟩ | ⟨G, -, hf, he⟩ | ⟨w, -, -, -, he⟩ | ⟨w, i, hg, hf, hd, he⟩ <;> rw [he] at h
  · cases h; cases hF
    exact .inl ⟨fun hp => by simp [(guardFires_eq_false_iff s).mpr hp] at hg, rfl, rfl⟩
  · cases h; cases hF
    refine .inr (.inl ?_)
    rcases State.fetch_error hf with ⟨-, hG⟩ | ⟨-, -, hG⟩ | ⟨-, -, hG⟩ <;> exact ⟨_, _, _, hG, rfl⟩
  · cases h; cases hF
    exact .inr (.inr (.inl ⟨w, rfl, rfl⟩))
  · exact .inr (.inr (.inr ⟨i, dispatches_of_fetch hg hf hd, exec_fault h hs hF⟩))

/-- Only a step of the engine records a fault. -/
theorem engineStep_of_fault (h : step s = .next t) (hs : s.fault = none) (hF : t.fault = some F) :
    engineStep (commandTaken s) = .next t := by
  rcases step_next h with ⟨-, rfl⟩ | ⟨-, rest, -, -, rfl⟩ | ⟨-, he⟩
  · cases hs.symm.trans hF
  · cases hs.symm.trans hF
  · exact he

/-! ### The statements about faults -/

/-- Settles O15: the guard stops the step in its fault; and no other fault of a step is StackOverflow. -/
theorem stackGuardFiresBeforeTheFetch : Obligations.StackGuardFiresBeforeTheFetch := by
  intro s hc hs
  refine ⟨fun hlt => transition_faultTaken_of_not_guardPasses hc hs (Nat.not_le.mpr hlt), fun hge t sp h hnone hF => ?_⟩
  have hg : guardPasses (commandTaken s) := guardPasses_commandTaken.mpr (Nat.not_lt.mp hge)
  rcases engineStep_fault (engineStep_of_fault h hnone hF) (by simpa using hnone) hF with
    ⟨hn, -⟩ | ⟨_, _, _, hX, -⟩ | ⟨_, hX, -⟩ | ⟨_, -, ⟨_, _, _, _, -, hX⟩, -⟩
  · exact hn hg
  · cases hX
  · cases hX
  · cases hX

/-- Settles O24: each fault of the engine is taken in a state of its own, which differs from the one the step starts in by
the count and the advance of pc that come before it. -/
theorem faultsArePrecise : Obligations.FaultsArePrecise := by
  intro s t F h hs hF
  rcases engineStep_fault (engineStep_of_fault h hs hF) (by simpa using hs) hF with
    ⟨-, rfl, rfl⟩ | ⟨_, _, _, rfl, rfl⟩ | ⟨_, rfl, rfl⟩ | ⟨i, hd, ⟨_, _, kind, _, hk, rfl⟩, hhalt, hx⟩
  · simp [sameRegs, sameMemory]
  · simp [sameRegs, sameMemory]
  · simp [sameRegs, sameMemory]
  · obtain ⟨hr, hexit, hcfg, hpc, hcycle⟩ := hhalt
    refine ⟨hr, by simpa using hexit, by simpa using hcfg, ?_, ?_⟩
    · rcases hx with rfl | rfl
      · exact .inl (dispatches_commandTaken.mp hd)
      · exact .inr ⟨fun r => by simp, fun a => by simp⟩
    · cases kind with
      | fetch => exact absurd rfl hk
      | read | write => exact ⟨by simpa using hpc, by simpa using hcycle⟩

/-! ### Reports (R128, R129) -/

/-- The engine is at a breakpoint exactly when its step dispatches `ebreak`. -/
theorem atBreakpoint_iff (hp : s.cfg.map.Pairwise sectionsApart) : s.atBreakpoint = true ↔ dispatches s .ebreak := by
  rw [State.atBreakpoint, Bool.and_eq_true, Bool.not_eq_true']
  constructor
  · rintro ⟨hg, hw⟩
    cases hf : s.fetch s.pc with
    | error F => simp [hf] at hw
    | ok w => exact dispatches_of_fetch hg hf (by simpa [hf] using hw)
  · intro hd
    obtain ⟨w, hf, hw⟩ := fetch_of_dispatches hp hd
    exact ⟨(guardFires_eq_false_iff s).mpr hd.1, by simp [hf, hw]⟩

/-- A step of the machine that its engine takes reports what the engine reports. -/
theorem stepReport_of_stepping (hs : stepping s) : stepReport s = engineReport (commandTaken s) := by
  rcases hs with hr | ⟨hr, rest, hd⟩
  · simp [stepReport, commandTaken, hr]
  · simp [stepReport, commandTaken, hr, hd]

/-- One that its engine does not take has a report in the halted state alone. -/
theorem stepReport_of_not_stepping (hs : ¬stepping s) {r : StepReport} (h : stepReport s = some r) :
    s.runState = .halted ∧ r = .halted s.exitCode := by
  rcases not_stepping_cases hs with hr | ⟨hr, hd⟩ | ⟨hr, cs, hd⟩
  · rw [stepReport, hr] at h
    cases h; exact ⟨hr, rfl⟩
  · rw [stepReport, hr, hd] at h
    cases h
  · rw [stepReport, hr, hd] at h
    cases h

/-- The three reports of an engine step: it has halted the engine; it was of `ebreak`, which suspends the engine; or
neither, and the engine state is as it was. -/
theorem engineReport_cases (hp : s.cfg.map.Pairwise sectionsApart) (h : engineStep s = .next t) :
    (t.runState = .halted ∧ engineReport s = some (.halted t.exitCode))
    ∨ (dispatches s .ebreak ∧ t.runState = .debugSuspended
        ∧ engineReport s = some (if s.runState = .debugSuspended then .debugTrapPropagated else .debugTrap))
    ∨ (¬dispatches s .ebreak ∧ t.runState ≠ .halted ∧ t.runState = s.runState ∧ engineReport s = some .continued) := by
  unfold engineReport
  rw [h]
  by_cases hh : t.runState = .halted
  · exact .inl ⟨hh, if_pos hh⟩
  by_cases hd : dispatches s .ebreak
  · have ht : t = s.countCycle.advancePc.takeDebugTrap := by
      rw [engineStep_of_dispatches hp hd] at h
      cases h; rfl
    refine .inr (.inl ⟨hd, by rw [ht]; rfl, ?_⟩)
    simp only [if_neg hh, (atBreakpoint_iff hp).mpr hd, if_true]
    split <;> rfl
  · have hb : s.atBreakpoint = false := Bool.eq_false_iff.mpr fun hb => hd ((atBreakpoint_iff hp).mp hb)
    refine .inr (.inr ⟨hd, hh, ?_, by simp [hh, hb]⟩)
    simpa [hh, hd] using engineStep_runState h

/-- Settles O14: `transition` and `stepReport` look at the halted state first. -/
theorem haltedStepChangesNothing : Obligations.HaltedStepChangesNothing := by
  intro s hc hr
  exact ⟨transition_of_halted hc hr, by rw [stepReport, hr]⟩

/-- Settles O19: the three reports of an engine step; a machine whose engine does not step reports only that it has halted. -/
theorem reportsTellTheEngineState : Obligations.ReportsTellTheEngineState := by
  intro s t h
  rcases step_next h with ⟨hs, rfl⟩ | ⟨hs, rest, hr, -, rfl⟩ | ⟨hs, he⟩
  · refine ⟨fun h' => absurd h' hs, fun h' => absurd h' hs, fun r hrep => ?_⟩
    obtain ⟨hr, rfl⟩ := stepReport_of_not_stepping hs hrep
    exact ⟨hr, rfl⟩
  · refine ⟨fun h' => absurd h' hs, fun h' => absurd h' hs, fun r hrep => ?_⟩
    simp [(stepReport_of_not_stepping hs hrep).1] at hr
  · have hp : (commandTaken s).cfg.map.Pairwise sectionsApart := by simpa using (step_cases h).1.1
    have hcases := engineReport_cases hp he
    rw [← stepReport_of_stepping hs, dispatches_commandTaken, commandTaken_runState] at hcases
    rcases hcases with ⟨hh, hrep⟩ | ⟨hd, ht, hrep⟩ | ⟨-, hh, ht, hrep⟩ <;> rw [hrep]
    · exact ⟨fun _ => ⟨_, rfl⟩, fun _ hn => absurd hh hn, fun r hr => by cases hr; exact ⟨hh, rfl⟩⟩
    · refine ⟨fun _ => ⟨_, rfl⟩, fun _ _ hn => absurd hd hn, fun r hr => ?_⟩
      cases hr
      rcases hs with hrun | ⟨hsusp, -⟩
      · simp [hrun, ht]
      · simp [hsusp, ht]
    · exact ⟨fun _ => ⟨_, rfl⟩, fun _ _ _ => rfl, fun r hr => by cases hr; exact ⟨ht, hh⟩⟩

/-- A step that dispatches `ebreak` suspends the engine, and its report says whether it was suspended before. -/
theorem step_of_dispatches_ebreak (hc : configWf s.cfg) (hs : stepping s) (hd : dispatches s .ebreak) :
    step s = .next (handlerState s).takeDebugTrap
      ∧ stepReport s = some (if s.runState = .debugSuspended then .debugTrapPropagated else .debugTrap) := by
  have hstep : step s = .next (handlerState s).takeDebugTrap := stepRunsTheDecodedInstruction s .ebreak hc hs hd
  have hp : (commandTaken s).cfg.map.Pairwise sectionsApart := by simpa using hc.1
  refine ⟨hstep, ?_⟩
  rw [step_of_stepping hc hs] at hstep
  rw [stepReport_of_stepping hs]
  rcases engineReport_cases hp hstep with ⟨hh, -⟩ | ⟨-, -, hrep⟩ | ⟨hn, -⟩
  · cases hh
  · rw [hrep, commandTaken_runState]
  · exact absurd (dispatches_commandTaken.mpr hd) hn

/-- Settles O48: the two ways an engine comes to step. -/
theorem breakpointReportsTrapOrPropagates : Obligations.BreakpointReportsTrapOrPropagates := by
  intro s hc hd
  refine ⟨fun hr => ?_, fun rest hr hcmd => ?_⟩
  · obtain ⟨hstep, hrep⟩ := step_of_dispatches_ebreak hc (.inl hr) hd
    simp [hstep, hrep, hr, handlerState, commandTaken, State.takeDebugTrap]
  · obtain ⟨hstep, hrep⟩ := step_of_dispatches_ebreak hc (.inr ⟨hr, rest, hcmd⟩) hd
    simp [hstep, hrep, hr, hcmd, handlerState, commandTaken, State.takeDebugTrap]

/-! ### A machine handed its instructions -/

/-- Settles O60: `abstractStep` is a transition, and its engine is guarded. -/
theorem aHandedInstructionFollowsTheCycle : Obligations.AHandedInstructionFollowsTheCycle := by
  intro a s hc
  refine ⟨transition_of_halted hc, transition_of_held hc, fun rest => transition_of_resume hc,
    transition_faultTaken_of_not_guardPasses hc, fun hs hg => ?_⟩
  rw [abstractStep, transition_of_stepping hc hs, abstractEngineStep,
    guarded_of_guardPasses (guardPasses_commandTaken.mpr hg), State.countCycle, commandTaken_cycle]

end Sys2Proof.Machine
end

section
/-! PROOFS. The laws of the Word unit (spec/41_word_alu.md): a Word is an integer mod 2^32, so `wordAdd` and `wordSub` have
the laws of a commutative group. -/

namespace Sys2Proof.Machine

/-! ### Addition and subtraction (R158) -/

/-- The negation of a Word, as the Word unit computes it. -/
theorem wordSub_zero_left (b : Word) : wordSub 0#32 b = -b :=
  BitVec.zero_sub b

/-- Subtraction adds the negated Word. -/
theorem wordSub_eq_wordAdd_wordSub_zero (a b : Word) : wordSub a b = wordAdd a (wordSub 0#32 b) := by
  rw [wordSub_zero_left, wordSub, wordAdd, BitVec.sub_eq_add_neg]

/-- Settles O6: the group laws of wrap-around addition; the last clause negates the most negative Word. -/
theorem wordArithmeticWrapsRoundTrip : Obligations.WordArithmeticWrapsRoundTrip := by
  refine ⟨fun a b => ?roundTrip, fun a b => ?comm, fun a b c => ?assoc, wordSub_eq_wordAdd_wordSub_zero, ?mostNegative⟩
  case roundTrip => exact BitVec.add_sub_cancel a b
  case comm => exact BitVec.add_comm a b
  case assoc => exact BitVec.add_assoc a b c
  case mostNegative =>
    calc wordSub 0#32 0x80000000#32 = -BitVec.intMin 32 := wordSub_zero_left _
      _ = BitVec.intMin 32 := BitVec.neg_intMin

end Sys2Proof.Machine
end

section
/-! PROOFS. The integer computational instructions (spec/42_integer_computational.md): what the Word unit computes, read in
integers and in bits, and the statements about the instructions, each of which writes one such Word to `rd`. -/

namespace Sys2Proof.Machine

/-! ### An instruction that writes a register, and its word -/

/-- An instruction whose handler gives a result in `rd` does nothing else (R170). -/
theorem givesResult_of_exec {i : Instr} {s : State} {rd : Reg} {v w : Word} (he : exec i s = giveResult rd v s)
    (hv : v = w) : givesResult i s rd w :=
  ⟨s.writeReg rd v, he, hv ▸ registerResult_writeReg s rd v, s.writeReg_pc rd v⟩

/-- The bits of a well-formed instruction's word under its row's mask are the row's match, and the word decodes back. -/
theorem encodedBy_of_rowOf {i : Instr} {n : Mnemonic} {mat mask : Word} {build : Word → Instr} (hwf : i.wf = true)
    (hr : rowOf i.mnemonic = some ⟨n, mat, mask, build⟩) : encodedBy i mask mat := by
  refine ⟨?_, decodeWord_encode hwf⟩
  cases i with
  | lui | auipc => cases hr; exact wordU_and_mask _ _ _
  | jal => cases hr; exact wordJ_and_mask _ _ _
  | beq | bne | blt | bge | bltu | bgeu => cases hr; exact wordB_and_mask _ _ _ _ _
  | jalr | lb | lh | lw | lbu | lhu | addi | slti | sltiu | xori | ori | andi => cases hr; exact wordI_and_mask _ _ _ _ _
  | sb | sh | sw => cases hr; exact wordS_and_mask _ _ _ _ _
  | slli | srli | srai | add | sub | sll | slt | sltu | xor | srl | sra | or | and =>
    cases hr; exact wordR_and_mask _ _ _ _ _ _
  | ecall | ebreak => cases hr; rfl

/-! ### Sums and differences in integers (R141, R142) -/

theorem wordAdd_eq_ofNat (a b : Word) : wordAdd a b = BitVec.ofNat 32 (a.toNat + b.toNat) :=
  BitVec.add_def a b

/-- Reducing two integers to Words and subtracting reduces their difference. -/
theorem wordSub_ofInt_ofInt (x y : Int) :
    wordSub (BitVec.ofInt 32 x) (BitVec.ofInt 32 y) = BitVec.ofInt 32 (x - y) := by
  rw [Int.sub_eq_add_neg, BitVec.ofInt_add, BitVec.ofInt_neg, wordSub, BitVec.sub_eq_add_neg]

/-- A Word is its unsigned reading, reduced. -/
theorem word_ofInt_toNat (a : Word) : BitVec.ofInt 32 a.toNat = a := by
  rw [BitVec.ofInt_natCast, BitVec.ofNat_toNat, BitVec.setWidth_eq]

theorem wordSub_eq_ofInt (a b : Word) : wordSub a b = BitVec.ofInt 32 (a.toNat - b.toNat : Int) := by
  rw [← wordSub_ofInt_ofInt, word_ofInt_toNat, word_ofInt_toNat]

/-! ### Bit by bit (R143 to R145) -/

theorem getLsbD_wordAnd (a b : Word) (k : Nat) : (wordAnd a b).getLsbD k = (a.getLsbD k && b.getLsbD k) :=
  BitVec.getLsbD_and

theorem getLsbD_wordOr (a b : Word) (k : Nat) : (wordOr a b).getLsbD k = (a.getLsbD k || b.getLsbD k) :=
  BitVec.getLsbD_or

theorem getLsbD_wordXor (a b : Word) (k : Nat) : (wordXor a b).getLsbD k = (a.getLsbD k ^^ b.getLsbD k) :=
  BitVec.getLsbD_xor

/-! ### Immediates as Words (R84, R88) -/

/-- The immediate's Word is its signed value, reduced. -/
theorem immWord_eq_ofInt (imm : BitVec 12) : immWord imm = BitVec.ofInt 32 imm.toInt := rfl

/-- Sign extension keeps the signed value. -/
theorem immWord_toInt (imm : BitVec 12) : (immWord imm).toInt = imm.toInt :=
  BitVec.toInt_signExtend_of_le (by decide)

/-- Sign extension repeats the sign bit above the immediate's own bits. -/
theorem getLsbD_immWord (imm : BitVec 12) {k : Nat} (hk : k < 32) :
    (immWord imm).getLsbD k = if k < 12 then imm.getLsbD k else imm.msb := by
  rw [immWord, BitVec.getLsbD_signExtend, decide_eq_true hk, Bool.true_and]

theorem wordAdd_immWord (a : Word) (imm : BitVec 12) :
    wordAdd a (immWord imm) = BitVec.ofInt 32 (a.toInt + imm.toInt) := by
  rw [BitVec.ofInt_add, BitVec.ofInt_toInt, immWord_eq_ofInt, wordAdd]

/-- Twelve zero bits below the immediate multiply it by 4096. -/
theorem upperWord_eq_ofNat (imm20 : BitVec 20) : upperWord imm20 = BitVec.ofNat 32 (imm20.toNat * 4096) := by
  apply BitVec.eq_of_toNat_eq
  rw [upperWord, BitVec.toNat_append, BitVec.toNat_ofNat, BitVec.toNat_ofNat, Nat.shiftLeft_eq, Nat.zero_mod, Nat.or_zero]
  exact (Nat.mod_eq_of_lt (by omega)).symm

/-! ### Shifts in integers (R147 to R150) -/

/-- The low 5 bits are the amount modulo 32. -/
theorem shiftAmount_toNat (b : Word) : (shiftAmount b).toNat = b.toNat % 32 := by
  rw [shiftAmount, BitVec.extractLsb'_toNat, Nat.shiftRight_zero]

theorem shiftLeft_eq_ofNat (a : Word) (sh : BitVec 5) :
    shiftLeft a sh = BitVec.ofNat 32 (a.toNat * 2 ^ sh.toNat) := by
  apply BitVec.eq_of_toNat_eq
  rw [shiftLeft, BitVec.toNat_shiftLeft, BitVec.toNat_ofNat, Nat.shiftLeft_eq]

theorem shiftRightLogical_eq_ofNat (a : Word) (sh : BitVec 5) :
    shiftRightLogical a sh = BitVec.ofNat 32 (a.toNat / 2 ^ sh.toNat) := by
  rw [shiftRightLogical, ← Nat.shiftRight_eq_div_pow, ← BitVec.toNat_ushiftRight, BitVec.ofNat_toNat, BitVec.setWidth_eq]

/-- The arithmetic shift divides the signed value, rounding down. -/
theorem shiftRightArith_eq_ofInt (a : Word) (sh : BitVec 5) :
    shiftRightArith a sh = BitVec.ofInt 32 (Int.fdiv a.toInt (2 ^ sh.toNat)) := by
  rw [Int.fdiv_eq_ediv_of_nonneg _ (by positivity), shiftRightArith, BitVec.sshiftRight, Int.shiftRight_eq_div_pow]
  norm_cast

/-! ### Comparisons as Words (R152 to R154, R186) -/

theorem boolWord_condLtS (a b : Word) : boolWord (condLtS a b) = if a.toInt < b.toInt then 1#32 else 0#32 := by
  simp only [boolWord, condLtS, decide_eq_true_eq]

theorem boolWord_condLtU (a b : Word) : boolWord (condLtU a b) = if a.toNat < b.toNat then 1#32 else 0#32 := by
  simp only [boolWord, condLtU, decide_eq_true_eq]

/-! ### What `auipc` adds to (R17, R191) -/

theorem auipcBase_of_zero {s : State} (h : s.cfg.auipcBias = .zero) : auipcBase s = BitVec.ofInt 32 (s.pc.toNat - 4) := by
  rw [← wordSub_ofInt_ofInt, word_ofInt_toNat, auipcBase, h]
  exact BitVec.add_zero _

theorem auipcBase_of_four {s : State} (h : s.cfg.auipcBias = .four) : auipcBase s = BitVec.ofInt 32 s.pc.toNat := by
  rw [word_ofInt_toNat, auipcBase, h]
  exact BitVec.sub_add_cancel s.pc 4#32

/-- The sum `auipc` gives, in integers, from any base. -/
theorem wordAdd_upperWord (x : Int) (imm20 : BitVec 20) :
    wordAdd (BitVec.ofInt 32 x) (upperWord imm20) = BitVec.ofInt 32 (x + imm20.toNat * 4096) := by
  rw [upperWord_eq_ofNat, ← BitVec.ofInt_natCast, wordAdd, ← BitVec.ofInt_add]
  norm_cast

/-! ### The statements -/

/-- Settles O30: the Word sum and difference are those of the unsigned readings, reduced. -/
theorem addAndSubWrap : Obligations.AddAndSubWrap := by
  intro rd rs1 rs2 s
  refine ⟨?addResult, encodedBy_of_rowOf rfl rfl, ?subResult, encodedBy_of_rowOf rfl rfl⟩
  case addResult => exact givesResult_of_exec rfl (wordAdd_eq_ofNat _ _)
  case subResult => exact givesResult_of_exec rfl (wordSub_eq_ofInt _ _)

/-- Settles O31: the three operations, bit by bit. -/
theorem andOrXorAreBitwise : Obligations.AndOrXorAreBitwise := by
  intro rd rs1 rs2 s
  refine ⟨⟨_, givesResult_of_exec rfl rfl, ?andBits⟩, encodedBy_of_rowOf rfl rfl,
    ⟨_, givesResult_of_exec rfl rfl, ?orBits⟩, encodedBy_of_rowOf rfl rfl,
    ⟨_, givesResult_of_exec rfl rfl, ?xorBits⟩, encodedBy_of_rowOf rfl rfl⟩
  case andBits => exact getLsbD_wordAnd _ _
  case orBits => exact getLsbD_wordOr _ _
  case xorBits => exact getLsbD_wordXor _ _

/-- Settles O32: the immediate's Word has its signed value, and repeats its sign bit. -/
theorem immediateFormsSignExtend : Obligations.ImmediateFormsSignExtend := by
  intro rd rs1 imm s
  refine ⟨?addiResult, encodedBy_of_rowOf rfl rfl,
    ⟨_, givesResult_of_exec rfl rfl, fun k hk => ?andiBits⟩, encodedBy_of_rowOf rfl rfl,
    ⟨_, givesResult_of_exec rfl rfl, fun k hk => ?oriBits⟩, encodedBy_of_rowOf rfl rfl,
    ⟨_, givesResult_of_exec rfl rfl, fun k hk => ?xoriBits⟩, encodedBy_of_rowOf rfl rfl⟩
  case addiResult => exact givesResult_of_exec rfl (wordAdd_immWord _ _)
  case andiBits => rw [getLsbD_wordAnd, getLsbD_immWord imm hk]
  case oriBits => rw [getLsbD_wordOr, getLsbD_immWord imm hk]
  case xoriBits => rw [getLsbD_wordXor, getLsbD_immWord imm hk]

/-- Settles O33: the amount is `x[rs2]` modulo 32. -/
theorem registerShiftsMaskTheAmount : Obligations.RegisterShiftsMaskTheAmount := by
  intro rd rs1 rs2 s
  rw [← shiftAmount_toNat]
  refine ⟨?sllResult, encodedBy_of_rowOf rfl rfl, ?srlResult, encodedBy_of_rowOf rfl rfl, ?sraResult,
    encodedBy_of_rowOf rfl rfl⟩
  case sllResult => exact givesResult_of_exec rfl (shiftLeft_eq_ofNat _ _)
  case srlResult => exact givesResult_of_exec rfl (shiftRightLogical_eq_ofNat _ _)
  case sraResult => exact givesResult_of_exec rfl (shiftRightArith_eq_ofInt _ _)

/-- Settles O34: the same shifts, by the field itself. -/
theorem immediateShiftsUseTheField : Obligations.ImmediateShiftsUseTheField := by
  intro rd rs1 shamt s
  refine ⟨?slliResult, encodedBy_of_rowOf rfl rfl, ?srliResult, encodedBy_of_rowOf rfl rfl, ?sraiResult,
    encodedBy_of_rowOf rfl rfl⟩
  case slliResult => exact givesResult_of_exec rfl (shiftLeft_eq_ofNat _ _)
  case srliResult => exact givesResult_of_exec rfl (shiftRightLogical_eq_ofNat _ _)
  case sraiResult => exact givesResult_of_exec rfl (shiftRightArith_eq_ofInt _ _)

/-- Settles O35: a comparison's Word; the immediate's Word has its signed value in both immediate forms. -/
theorem comparisonsGiveOneOrZero : Obligations.ComparisonsGiveOneOrZero := by
  refine ⟨fun rd rs1 rs2 s => ⟨?sltResult, encodedBy_of_rowOf rfl rfl, ?sltuResult, encodedBy_of_rowOf rfl rfl⟩,
    fun rd rs1 imm s => ⟨?sltiResult, encodedBy_of_rowOf rfl rfl, ?sltiuResult, encodedBy_of_rowOf rfl rfl⟩⟩
  case sltResult => exact givesResult_of_exec rfl (boolWord_condLtS _ _)
  case sltuResult => exact givesResult_of_exec rfl (boolWord_condLtU _ _)
  case sltiResult =>
    rw [← immWord_toInt]
    exact givesResult_of_exec rfl (boolWord_condLtS _ _)
  case sltiuResult =>
    rw [← immWord_eq_ofInt]
    exact givesResult_of_exec rfl (boolWord_condLtU _ _)

/-- Settles O36: `auipc`'s base in integers, for each bias, and the immediate times 4096. -/
theorem upperImmediates : Obligations.UpperImmediates := by
  intro rd imm20 s
  refine ⟨?luiResult, encodedBy_of_rowOf rfl rfl, fun hbias => ?zeroResult, fun hbias => ?fourResult,
    encodedBy_of_rowOf rfl rfl⟩
  case luiResult => exact givesResult_of_exec rfl (upperWord_eq_ofNat _)
  case zeroResult => exact givesResult_of_exec rfl (by rw [auipcBase_of_zero hbias, wordAdd_upperWord])
  case fourResult => exact givesResult_of_exec rfl (by rw [auipcBase_of_four hbias, wordAdd_upperWord])

end Sys2Proof.Machine
end

section
/-! PROOFS. Loads and stores (spec/43_loads_stores.md): the effective address in integers, the bytes an access reads as one
value, and what an instruction does whose handler is `loadInto` or `storeFrom`. -/

namespace Sys2Proof

/-! ### Bytes read as one value (R156) -/

/-- One more byte in front of the others is one more byte at the low end of their word. -/
theorem setWidth_wordOfBytes_cons (b : Byte) (bs : List Byte) {n : Nat} (hn : n + 8 ≤ 32) :
    (wordOfBytes (b :: bs)).setWidth (n + 8) = (wordOfBytes bs).setWidth n ++ b := by
  apply BitVec.eq_of_getLsbD_eq
  intro i hi
  have h32 : i < 32 := by omega
  rw [wordOfBytes, BitVec.getLsbD_setWidth, BitVec.getLsbD_or, BitVec.getLsbD_setWidth, BitVec.getLsbD_shiftLeft,
    BitVec.getLsbD_append, BitVec.getLsbD_setWidth]
  by_cases h8 : i < 8
  · simp [hi, h32, h8]
  · have hn8 : i - 8 < n := by omega
    have hb : b.getLsbD i = false := BitVec.getLsbD_of_ge b i (by omega)
    simp [hi, h32, h8, hn8, hb]

theorem setWidth_wordOfBytes_singleton (b : Byte) : (wordOfBytes [b]).setWidth 8 = b := by
  simp [wordOfBytes]

end Sys2Proof

namespace Sys2Proof.Machine

section Values

variable (s : State) (a : Nat)

theorem setWidth_getBytes_one : (wordOfBytes (Memory.getBytes s.mem a 1)).setWidth 8 = s.byteAt a :=
  setWidth_wordOfBytes_singleton _

theorem setWidth_getBytes_two :
    (wordOfBytes (Memory.getBytes s.mem a 2)).setWidth 16 = (s.byteAt (a + 1) ++ s.byteAt a : BitVec 16) := by
  rw [← setWidth_getBytes_one s (a + 1)]
  exact setWidth_wordOfBytes_cons _ _ (by decide)

theorem setWidth_getBytes_three : (wordOfBytes (Memory.getBytes s.mem a 3)).setWidth 24
    = (s.byteAt (a + 2) ++ s.byteAt (a + 1) ++ s.byteAt a : BitVec 24) := by
  rw [← setWidth_getBytes_two s (a + 1)]
  exact setWidth_wordOfBytes_cons _ _ (by decide)

/-! What each load makes of its bytes (R202 to R206). -/

theorem sext8_getBytes_one :
    sext8 (wordOfBytes (Memory.getBytes s.mem a 1)) = BitVec.ofInt 32 (s.byteAt a).toInt := by
  rw [sext8, setWidth_getBytes_one, BitVec.signExtend]

theorem zext8_getBytes_one :
    zext8 (wordOfBytes (Memory.getBytes s.mem a 1)) = BitVec.ofNat 32 (s.byteAt a).toNat := by
  rw [zext8, setWidth_getBytes_one, BitVec.ofNat_toNat]

theorem sext16_getBytes_two : sext16 (wordOfBytes (Memory.getBytes s.mem a 2))
    = BitVec.ofInt 32 (s.byteAt (a + 1) ++ s.byteAt a : BitVec 16).toInt := by
  rw [sext16, setWidth_getBytes_two, BitVec.signExtend]

theorem zext16_getBytes_two : zext16 (wordOfBytes (Memory.getBytes s.mem a 2))
    = BitVec.ofNat 32 (s.byteAt (a + 1) ++ s.byteAt a : BitVec 16).toNat := by
  rw [zext16, setWidth_getBytes_two, BitVec.ofNat_toNat]

theorem extNone_getBytes_four : extNone (wordOfBytes (Memory.getBytes s.mem a 4))
    = (s.byteAt (a + 3) ++ s.byteAt (a + 2) ++ s.byteAt (a + 1) ++ s.byteAt a : BitVec 32) := by
  rw [extNone, ← setWidth_getBytes_three s (a + 1), ← BitVec.setWidth_eq (wordOfBytes _)]
  exact setWidth_wordOfBytes_cons _ _ (by decide)

end Values

/-! ### The effective address (R200) -/

/-- The sum of the base and the immediate wraps modulo 2^32. -/
theorem toNat_effectiveAddress (s : State) (rs1 : Reg) (imm : BitVec 12) :
    ((effectiveAddress s rs1 imm).toNat : Int) = ((s.readReg rs1).toInt + imm.toInt) % 2 ^ 32 := by
  rw [effectiveAddress, wordAdd_immWord, BitVec.toNat_ofInt]
  exact Int.toNat_of_nonneg (Int.emod_nonneg _ (by decide))

/-! ### An instruction that loads or stores (R201, R207) -/

/-- An instruction whose handler takes a fault has no other effect (R127). -/
theorem takesFault_of_exec {i : Instr} {s : State} {F : Fault} (he : exec i s = .next (s.takeFault F)) :
    takesFault i s F :=
  ⟨_, he, faultTaken_takeFault s F⟩

section Access

variable {s t : State} {ea v w : Word} {width : Width} {rd : Reg} {extend : Word → Word} {i : Instr} {F : Fault}

theorem loadInto_of_memRead_ok (h : s.memRead ea width = .ok v) :
    loadInto rd ea width extend s = giveResult rd (extend v) s := by
  rw [loadInto, h, giveResult]

theorem loadInto_of_memRead_error (h : s.memRead ea width = .error F) :
    loadInto rd ea width extend s = .next (s.takeFault F) := by
  rw [loadInto, h]

theorem storeFrom_of_memWrite_ok (h : s.memWrite ea width v = .ok t) : storeFrom v ea width s = .next t := by
  rw [storeFrom, h]

theorem storeFrom_of_memWrite_error (h : s.memWrite ea width v = .error F) :
    storeFrom v ea width s = .next (s.takeFault F) := by
  rw [storeFrom, h]

/-- A load from a range that one section holds gives the bytes, extended. -/
theorem givesResult_of_load (he : exec i s = loadInto rd ea width extend s) (h : holdsRange s ea.toNat width.bytes)
    (hw : extend (wordOfBytes (Memory.getBytes s.mem ea.toNat width.bytes)) = w) : givesResult i s rd w := by
  obtain ⟨S, hS, hlo, hhi⟩ := h
  obtain ⟨T, hT⟩ := resolve_isSome hS hlo hhi
  exact givesResult_of_exec (he.trans (loadInto_of_memRead_ok (State.memRead_mapped hT))) hw

/-- A load from a range that no one section holds faults as unmapped. -/
theorem takesFault_of_load_unmapped (he : exec i s = loadInto rd ea width extend s)
    (h : ¬holdsRange s ea.toNat width.bytes) : takesFault i s (.memoryAccess ea width .read .unmapped) :=
  takesFault_of_exec (he.trans
    (loadInto_of_memRead_error (State.memRead_unmapped (resolve_none_of_not_holdsRange h))))

/-- A store to a range of a section that may be written puts the value's low bytes there. -/
theorem stores_of_store (hc : configWf s.cfg) (he : exec i s = storeFrom v ea width s)
    (h : writableRange s ea.toNat width.bytes) : stores i s ea.toNat width.bytes v := by
  obtain ⟨-, -, hwrites⟩ := memWriteChecksThenWritesItsBytesOnly s ea v width hc
  obtain ⟨t, ht, hres⟩ := hwrites h
  exact ⟨t, he.trans (storeFrom_of_memWrite_ok ht), hres⟩

/-- A store to a range that no one section holds faults as unmapped. -/
theorem takesFault_of_store_unmapped (he : exec i s = storeFrom v ea width s)
    (h : ¬holdsRange s ea.toNat width.bytes) : takesFault i s (.memoryAccess ea width .write .unmapped) :=
  takesFault_of_exec (he.trans
    (storeFrom_of_memWrite_error (State.memWrite_unmapped (resolve_none_of_not_holdsRange h))))

/-- A store to a range of a read-only section faults as read-only. -/
theorem takesFault_of_store_readOnly (hc : configWf s.cfg) (he : exec i s = storeFrom v ea width s)
    (h : readOnlyRange s ea.toNat width.bytes) : takesFault i s (.memoryAccess ea width .write .readOnly) := by
  obtain ⟨-, hreadOnly, -⟩ := memWriteChecksThenWritesItsBytesOnly s ea v width hc
  exact takesFault_of_exec (he.trans (storeFrom_of_memWrite_error (hreadOnly h)))

end Access

/-! ### The alignment check (R49, R211) -/

section Alignment

variable {s : State} {rd rs1 rs2 : Reg} {imm : BitVec 12}

theorem exec_lw_of_aligned (h : (effectiveAddress s rs1 imm).toNat % 4 = 0) :
    exec (.lw rd rs1 imm) s = loadInto rd (effectiveAddress s rs1 imm) .word extNone s :=
  if_pos ((aligned4_iff _).mpr h)

theorem exec_lw_of_misaligned (h : (effectiveAddress s rs1 imm).toNat % 4 ≠ 0) : exec (.lw rd rs1 imm) s
    = .next (s.takeFault (.memoryAccess (effectiveAddress s rs1 imm) .word .read .misaligned)) :=
  if_neg (mt (aligned4_iff _).mp h)

theorem exec_sw_of_aligned (h : (effectiveAddress s rs1 imm).toNat % 4 = 0) :
    exec (.sw rs2 rs1 imm) s = storeFrom (s.readReg rs2) (effectiveAddress s rs1 imm) .word s :=
  if_pos ((aligned4_iff _).mpr h)

theorem exec_sw_of_misaligned (h : (effectiveAddress s rs1 imm).toNat % 4 ≠ 0) : exec (.sw rs2 rs1 imm) s
    = .next (s.takeFault (.memoryAccess (effectiveAddress s rs1 imm) .word .write .misaligned)) :=
  if_neg (mt (aligned4_iff _).mp h)

end Alignment

/-! ### The statements -/

/-- Settles O37: the handlers are `loadInto` with no alignment check; what they load is the bytes' value, extended. -/
theorem byteAndHalfwordLoads : Obligations.ByteAndHalfwordLoads := by
  intro rd rs1 imm s ea a
  refine ⟨toNat_effectiveAddress s rs1 imm, fun h => ⟨?lb, ?lbu⟩, fun h => ⟨?lbUnmapped, ?lbuUnmapped⟩,
    fun h => ⟨?lh, ?lhu⟩, fun h => ⟨?lhUnmapped, ?lhuUnmapped⟩, encodedBy_of_rowOf rfl rfl, encodedBy_of_rowOf rfl rfl,
    encodedBy_of_rowOf rfl rfl, encodedBy_of_rowOf rfl rfl⟩
  case lb => exact givesResult_of_load rfl h (sext8_getBytes_one s a)
  case lbu => exact givesResult_of_load rfl h (zext8_getBytes_one s a)
  case lh => exact givesResult_of_load rfl h (sext16_getBytes_two s a)
  case lhu => exact givesResult_of_load rfl h (zext16_getBytes_two s a)
  case lbUnmapped | lbuUnmapped | lhUnmapped | lhuUnmapped => exact takesFault_of_load_unmapped rfl h

/-- Settles O38: past the alignment check `lw` is `loadInto`, and what it loads is the four bytes. -/
theorem wordLoads : Obligations.WordLoads := by
  intro rd rs1 imm s ea a
  refine ⟨toNat_effectiveAddress s rs1 imm, fun hal h => ?loads, fun hmis => ?misaligned, fun hal h => ?unmapped,
    encodedBy_of_rowOf rfl rfl⟩
  case loads => exact givesResult_of_load (exec_lw_of_aligned hal) h (extNone_getBytes_four s a)
  case misaligned => exact takesFault_of_exec (exec_lw_of_misaligned hmis)
  case unmapped => exact takesFault_of_load_unmapped (exec_lw_of_aligned hal) h

/-- Settles O39: the handlers are `storeFrom` with no alignment check; in a well-formed map the section of the range
decides. -/
theorem byteAndHalfwordStores : Obligations.ByteAndHalfwordStores := by
  intro rs2 rs1 imm s hc ea a
  refine ⟨toNat_effectiveAddress s rs1 imm, fun h => ?sb, fun h => ?sbUnmapped, fun h => ?sbReadOnly, fun h => ?sh,
    fun h => ?shUnmapped, fun h => ?shReadOnly, encodedBy_of_rowOf rfl rfl, encodedBy_of_rowOf rfl rfl⟩
  case sb => exact stores_of_store (width := .byte) hc rfl h
  case sh => exact stores_of_store (width := .half) hc rfl h
  case sbUnmapped | shUnmapped => exact takesFault_of_store_unmapped rfl h
  case sbReadOnly | shReadOnly => exact takesFault_of_store_readOnly hc rfl h

/-- Settles O40: past the alignment check `sw` is `storeFrom`. -/
theorem wordStores : Obligations.WordStores := by
  intro rs2 rs1 imm s hc ea a
  refine ⟨toNat_effectiveAddress s rs1 imm, fun hal h => ?stores, fun hmis => ?misaligned, fun hal h => ?unmapped,
    fun hal h => ?readOnly, encodedBy_of_rowOf rfl rfl⟩
  case stores => exact stores_of_store (width := .word) hc (exec_sw_of_aligned hal) h
  case misaligned => exact takesFault_of_exec (exec_sw_of_misaligned hmis)
  case unmapped => exact takesFault_of_store_unmapped (exec_sw_of_aligned hal) h
  case readOnly => exact takesFault_of_store_readOnly hc (exec_sw_of_aligned hal) h

end Sys2Proof.Machine
end

section
/-! PROOFS. Control transfer (spec/44_control_transfer.md): the targets in integers, the comparisons of the branches, and what
an instruction does whose handler is `branchIf` or `jumpAndLink`. -/

namespace Sys2Proof.Machine

/-! ### Targets in integers (R220, R235, R236) -/

/-- The address of the instruction itself: a handler finds pc already advanced (R17). -/
theorem insnAddr_eq_ofInt (s : State) : s.insnAddr = BitVec.ofInt 32 (s.pc.toNat - 4) :=
  wordSub_eq_ofInt s.pc 4#32

/-- A branch's target, in integers, from the branch's own address. -/
theorem branchTarget_eq_ofInt (s : State) (off : BitVec 13) :
    branchTarget s off = BitVec.ofInt 32 (s.pc.toNat - 4 + off.toInt) := by
  rw [branchTarget, insnAddr_eq_ofInt, BitVec.signExtend, wordAdd, ← BitVec.ofInt_add]

/-- So is `jal`'s. -/
theorem jumpTarget_eq_ofInt (s : State) (off : BitVec 21) :
    jumpTarget s off = BitVec.ofInt 32 (s.pc.toNat - 4 + off.toInt) := by
  rw [jumpTarget, insnAddr_eq_ofInt, BitVec.signExtend, wordAdd, ← BitVec.ofInt_add]

/-- Every bit but bit 0 is kept, and bit 0 is 0. -/
theorem wordAnd_evenMask (w : Word) : wordAnd w 0xFFFFFFFE#32 = w >>> 1 <<< 1 := by
  have hmask : ∀ k < 32, (0xFFFFFFFE#32).getLsbD k = !decide (k < 1) := by decide
  apply BitVec.eq_of_getLsbD_eq
  intro k hk
  rw [getLsbD_wordAnd, hmask k hk, BitVec.getLsbD_shiftLeft, BitVec.getLsbD_ushiftRight]
  cases k with
  | zero => simp
  | succ k => simp [hk, Nat.add_comm 1 k]

/-- Clearing bit 0 rounds down to an even number. -/
theorem toNat_wordAnd_evenMask (w : Word) : (wordAnd w 0xFFFFFFFE#32).toNat = w.toNat / 2 * 2 := by
  rw [wordAnd_evenMask, BitVec.toNat_shiftLeft, BitVec.toNat_ushiftRight, Nat.shiftLeft_eq, Nat.shiftRight_eq_div_pow]
  omega

/-- The sum wraps before bit 0 is cleared. -/
theorem toNat_registerTarget (s : State) (rs1 : Reg) (imm : BitVec 12) :
    ((registerTarget s rs1 imm).toNat : Int) = ((s.readReg rs1).toInt + imm.toInt) % 2 ^ 32 / 2 * 2 := by
  rw [← toNat_effectiveAddress, registerTarget, toNat_wordAnd_evenMask]
  norm_cast

/-- With no immediate the target is the register's, bit 0 cleared. -/
theorem registerTarget_zero (s : State) (rs1 : Reg) : registerTarget s rs1 0#12 = s.readReg rs1 &&& 0xFFFFFFFE#32 :=
  congrArg (wordAnd · 0xFFFFFFFE#32) (BitVec.add_zero (s.readReg rs1))

/-! ### The comparisons (R152 to R154) -/

section Comparisons

variable (a b : Word)

theorem condEq_iff : condEq a b = true ↔ a = b :=
  beq_iff_eq

theorem condNe_iff : condNe a b = true ↔ a ≠ b := by
  rw [condNe, Bool.not_eq_true', ← Bool.not_eq_true, condEq_iff]

theorem condLtS_iff : condLtS a b = true ↔ a.toInt < b.toInt :=
  decide_eq_true_iff

theorem condGeS_iff : condGeS a b = true ↔ b.toInt ≤ a.toInt := by
  rw [condGeS, Bool.not_eq_true', ← Bool.not_eq_true, condLtS_iff, Int.not_lt]

theorem condLtU_iff : condLtU a b = true ↔ a.toNat < b.toNat :=
  decide_eq_true_iff

theorem condGeU_iff : condGeU a b = true ↔ b.toNat ≤ a.toNat := by
  rw [condGeU, Bool.not_eq_true', ← Bool.not_eq_true, condLtU_iff, Nat.not_lt]

end Comparisons

/-! ### An instruction that branches or jumps (R220, R230) -/

section Transfer

variable {s : State} {i : Instr} {target u : Word} {rd : Reg}

/-- An instruction whose handler goes to a target on a condition does nothing else (R220). -/
theorem branches_of_exec {c : Bool} {taken : Prop} (he : exec i s = branchIf c u s) (hc : c = true ↔ taken)
    (hu : u = target) : branches i s taken target := by
  subst hu
  by_cases h : taken
  · rw [branchIf, if_pos (hc.mpr h)] at he
    exact ⟨_, he, fun _ => rfl, fun hn => absurd h hn, fun _ => rfl, fun _ => rfl, by simp [sameControl]⟩
  · rw [branchIf, if_neg (mt hc.mp h)] at he
    exact ⟨_, he, fun ht => absurd ht h, fun _ => rfl, fun _ => rfl, fun _ => rfl, by simp [sameControl]⟩

/-- An instruction whose handler links and jumps does nothing else (R230). -/
theorem links_of_exec (he : exec i s = jumpAndLink rd target s) :
    ∃ t, exec i s = .next t ∧ registerResult s t rd s.pc ∧ t.pc = target :=
  ⟨_, he, registerResult_writeReg_writePc s rd s.pc target, rfl⟩

/-- Linking in x0 writes no register (R13). -/
theorem jumps_of_exec (he : exec i s = jumpAndLink 0 target s) :
    ∃ t, exec i s = .next t ∧ t.pc = target ∧ sameRegs s t ∧ sameMemory s t ∧ sameControl s t :=
  ⟨s.writePc target, he, rfl, fun _ => rfl, fun _ => rfl, by simp [sameControl]⟩

end Transfer

/-! ### The statements -/

/-- Settles O41: each handler is `branchIf` of its own comparison. -/
theorem branchesCompareAndGo : Obligations.BranchesCompareAndGo := by
  intro rs1 rs2 off s a b target
  have htarget : branchTarget s off = target := branchTarget_eq_ofInt s off
  refine ⟨?beq, ?bne, ?blt, ?bge, ?bltu, ?bgeu, fun heven => ⟨encodedBy_of_rowOf heven rfl, encodedBy_of_rowOf heven rfl,
    encodedBy_of_rowOf heven rfl, encodedBy_of_rowOf heven rfl, encodedBy_of_rowOf heven rfl,
    encodedBy_of_rowOf heven rfl⟩⟩
  case beq => exact branches_of_exec rfl (condEq_iff a b) htarget
  case bne => exact branches_of_exec rfl (condNe_iff a b) htarget
  case blt => exact branches_of_exec rfl (condLtS_iff a b) htarget
  case bge => exact branches_of_exec rfl (condGeS_iff a b) htarget
  case bltu => exact branches_of_exec rfl (condLtU_iff a b) htarget
  case bgeu => exact branches_of_exec rfl (condGeU_iff a b) htarget

/-- Settles O42: the handler is `jumpAndLink` to the instruction's own address plus the offset. -/
theorem jalLinksAndJumps : Obligations.JalLinksAndJumps := by
  intro rd off s
  rw [← jumpTarget_eq_ofInt]
  exact ⟨links_of_exec rfl, fun heven => encodedBy_of_rowOf heven rfl⟩

/-- Settles O43: the handler is `jumpAndLink` to a target computed in the state before the link. -/
theorem jalrJumpsFromTheOldBase : Obligations.JalrJumpsFromTheOldBase := by
  intro rd rs1 imm s
  obtain ⟨t, he, hlink, hpc⟩ := links_of_exec (i := .jalr rd rs1 imm) (s := s) rfl
  exact ⟨⟨t, he, hlink, hpc ▸ toNat_registerTarget s rs1 imm⟩, encodedBy_of_rowOf rfl rfl⟩

/-- Settles O44: the branches of O41 with the operands swapped, and with x0, which reads 0, as one of them. -/
theorem pseudoBranchesKeepTheComparison : Obligations.PseudoBranchesKeepTheComparison := by
  intro rs rt off s a b target
  obtain ⟨-, -, hbgt, hble, hbgtu, hbleu, -⟩ := branchesCompareAndGo rt rs off s
  obtain ⟨hbeqz, hbnez, hbltz, hbgez, -⟩ := branchesCompareAndGo rs 0 off s
  obtain ⟨-, -, hbgtz, hblez, -⟩ := branchesCompareAndGo 0 rs off s
  exact ⟨⟨rfl, hbgt⟩, ⟨rfl, hble⟩, ⟨rfl, hbgtu⟩, ⟨rfl, hbleu⟩, ⟨rfl, hbeqz⟩, ⟨rfl, hbnez⟩, ⟨rfl, hbltz⟩, ⟨rfl, hbgez⟩,
    ⟨rfl, hbgtz⟩, ⟨rfl, hblez⟩⟩

/-- Settles O45: `jal` and `jalr` that link in x0 or x1, `jalr` with no immediate. -/
theorem pseudoJumpsAreJalAndJalr : Obligations.PseudoJumpsAreJalAndJalr := by
  intro rs off s target
  have htarget : jumpTarget s off = target := jumpTarget_eq_ofInt s off
  rw [← htarget, ← registerTarget_zero, ← registerTarget_zero]
  obtain ⟨t, he, hlink, hpc⟩ := links_of_exec (i := .jal 1 off) (s := s) rfl
  exact ⟨⟨rfl, jumps_of_exec rfl⟩, ⟨rfl, t, he, hpc, hlink⟩, ⟨rfl, jumps_of_exec rfl⟩, ⟨rfl, jumps_of_exec rfl⟩⟩

end Sys2Proof.Machine
end

section
/-! PROOFS. The system instructions (spec/45_system.md): what an `ecall` does with the Bridge's answer. -/

namespace Sys2Proof.Machine

/-! ### The answer an `ecall` takes (R261, R264) -/

section Answer

variable {s : State}

/-- Under the OPEN Bridge an `ecall` uses up the answer to x17 and x10, and does what it says. -/
theorem exec_ecall_of_host (hb : s.cfg.bridge = .host) :
    exec .ecall s = .next (s.useAnswer.applyAnswer (s.hostAnswer (s.readReg 17) (s.readReg 10))) := by
  rw [exec, execEcall, hb]; rfl

/-- Under the reference Bridge number 93 is an exit with the argument. -/
theorem exec_ecall_of_reference (hb : s.cfg.bridge = .reference) (hn : s.readReg 17 = 93#32) :
    exec .ecall s = .next (s.takeExit (s.readReg 10)) := by
  have ha : referenceBridge (s.readReg sysNumReg) (s.readReg sysArgReg) = some (.exit (s.readReg 10)) := if_pos hn
  rw [exec, execEcall, hb]
  simp only [ha]
  rfl

/-- Under the reference Bridge no other number has an answer. -/
theorem exec_ecall_refused_of_reference (hb : s.cfg.bridge = .reference) (hn : s.readReg 17 ≠ 93#32) :
    exec .ecall s = .refused (.syscallUndefined (s.readReg 17)) := by
  have ha : referenceBridge (s.readReg sysNumReg) (s.readReg sysArgReg) = none := if_neg hn
  rw [exec, execEcall, hb]
  simp only [ha]
  rfl

/-- With no input to come, an answer used up is a draw counted. -/
theorem State.useAnswer_of_nil (h : s.bridgeAnswers = []) :
    s.useAnswer = { s with bridgeDraws := s.bridgeDraws + 1 } := by
  rw [State.useAnswer, h]

/-- With an input to come, the answer used up is that input, and nothing is drawn. -/
theorem State.useAnswer_of_ne_nil (h : s.bridgeAnswers ≠ []) :
    s.useAnswer = { s with bridgeAnswers := s.bridgeAnswers.tail } := by
  obtain ⟨a, as, has⟩ := List.exists_cons_of_ne_nil h
  rw [State.useAnswer, has]; rfl

theorem State.useAnswer_bridgeAnswers : s.useAnswer.bridgeAnswers = s.bridgeAnswers.tail := by
  by_cases h : s.bridgeAnswers = []
  · rw [State.useAnswer_of_nil h, h]; rfl
  · rw [State.useAnswer_of_ne_nil h]

theorem State.useAnswer_bridgeDraws_of_ne_nil (h : s.bridgeAnswers ≠ []) :
    s.useAnswer.bridgeDraws = s.bridgeDraws := by
  rw [State.useAnswer_of_ne_nil h]

theorem State.useAnswer_bridgeDraws_of_nil (h : s.bridgeAnswers = []) :
    s.useAnswer.bridgeDraws = s.bridgeDraws + 1 := by
  rw [State.useAnswer_of_nil h]

end Answer

/-! ### What an answer leaves alone (R262) -/

section Contract

variable (s : State) (a : BridgeAnswer)

/-- No answer writes pc, the counter or the Debugger's commands. -/
theorem State.applyAnswer_frame : (s.applyAnswer a).pc = s.pc ∧ (s.applyAnswer a).cycle = s.cycle
    ∧ (s.applyAnswer a).debugCommands = s.debugCommands := by
  match a with
  | .exit code => exact ⟨rfl, rfl, rfl⟩
  | .continue acts =>
    obtain ⟨hpc, hcycle, -, -, hcommands, -⟩ := State.bridgeActs_frame s acts
    exact ⟨hpc, hcycle, hcommands⟩

/-- `t` has the engine state, the fault record and the exit code of `s`. -/
def sameEngine (s t : State) : Prop := t.runState = s.runState ∧ t.fault = s.fault ∧ t.exitCode = s.exitCode

/-- Accesses that do not fault leave the engine as it is; one that does records a MemoryAccess fault and halts (R262 e). -/
theorem State.bridgeActs_engine (acts : List BridgeAct) : sameEngine s (State.bridgeActs acts s)
    ∨ ((State.bridgeActs acts s).runState = .halted ∧ (State.bridgeActs acts s).exitCode = s.exitCode
        ∧ ∃ addr width kind reason, (State.bridgeActs acts s).fault = some (.memoryAccess addr width kind reason)) := by
  have hkeeps := State.bridgeActs_keeps (sameEngine s) (fun u r v hu => by simpa [sameEngine] using hu)
    (fun u t addr width v hw hu => by obtain ⟨S, -, -, rfl⟩ := State.memWrite_ok hw; exact hu) acts s ⟨rfl, rfl, rfl⟩
  rcases hkeeps with hsame | ⟨u, addr, width, kind, reason, ⟨-, -, hexit⟩, hfault⟩
  · exact .inl hsame
  · rw [hfault]
    exact .inr ⟨rfl, hexit, addr, width, kind, reason, rfl⟩

/-- The three ends of an answer: the engine is as it was, has exited, or has taken a MemoryAccess fault. -/
theorem State.applyAnswer_engine : sameEngine s (s.applyAnswer a)
    ∨ ((s.applyAnswer a).runState = .halted ∧ (s.applyAnswer a).fault = s.fault)
    ∨ ((s.applyAnswer a).runState = .halted ∧ (s.applyAnswer a).exitCode = s.exitCode
        ∧ ∃ addr width kind reason, (s.applyAnswer a).fault = some (.memoryAccess addr width kind reason)) := by
  match a with
  | .exit code => exact .inr (.inl ⟨rfl, rfl⟩)
  | .continue acts => exact (State.bridgeActs_engine s acts).imp_right .inr

end Contract

/-! ### The Bridge's accesses, one at a time (R262 a to c, e) -/

section Accesses

variable {s t : State} {acts : List BridgeAct} {addr v w : Word} {width : Width} {F : Fault}

theorem State.bridgeActs_load_of_ok (h : s.memRead addr width = .ok w) :
    State.bridgeActs (.load addr width :: acts) s = State.bridgeActs acts s := by
  rw [State.bridgeActs, h]

theorem State.bridgeActs_load_of_error (h : s.memRead addr width = .error F) :
    State.bridgeActs (.load addr width :: acts) s = s.takeFault F := by
  rw [State.bridgeActs, h]

theorem State.bridgeActs_store_of_ok (h : s.memWrite addr width v = .ok t) :
    State.bridgeActs (.store addr width v :: acts) s = State.bridgeActs acts t := by
  rw [State.bridgeActs, h]

theorem State.bridgeActs_store_of_error (h : s.memWrite addr width v = .error F) :
    State.bridgeActs (.store addr width v :: acts) s = s.takeFault F := by
  rw [State.bridgeActs, h]

end Accesses

/-! ### The Bridge's accesses do not look at the answers to come -/

/-- The same state with other answers to come. -/
def State.withAnswers (s : State) (as : List BridgeAnswer) : State := { s with bridgeAnswers := as }

section WithAnswers

variable {s t : State} {as rest : List BridgeAnswer} {acts : List BridgeAct} {act : BridgeAct} {addr v : Word}
  {width : Width} {F : Fault}

theorem State.withAnswers_writeReg (r : Reg) :
    (s.withAnswers as).writeReg r v = (s.writeReg r v).withAnswers as := by
  unfold State.writeReg; split <;> rfl

theorem State.withAnswers_memRead : (s.withAnswers as).memRead addr width = s.memRead addr width := rfl

theorem State.withAnswers_memWrite_of_ok (h : s.memWrite addr width v = .ok t) :
    (s.withAnswers as).memWrite addr width v = .ok (t.withAnswers as) := by
  obtain ⟨S, hS, hro, rfl⟩ := State.memWrite_ok h
  exact State.memWrite_of_writable hS hro

theorem State.withAnswers_memWrite_of_error (h : s.memWrite addr width v = .error F) :
    (s.withAnswers as).memWrite addr width v = .error F := by
  rcases State.memWrite_error h with ⟨hnone, rfl⟩ | ⟨S, hS, hro, rfl⟩
  · exact State.memWrite_unmapped hnone
  · exact State.memWrite_of_readOnly hS hro

/-- With a `Continue` to come, an `ecall` uses it up and makes its accesses. -/
theorem exec_ecall_continue (hb : s.cfg.bridge = .host) :
    exec .ecall (s.withAnswers (.continue acts :: rest)) = .next (State.bridgeActs acts (s.withAnswers rest)) :=
  exec_ecall_of_host hb

/-- An access that takes `s` to `t` comes to the `ecall` in `t` with the rest of the accesses. -/
theorem exec_ecall_continue_cons (hb : s.cfg.bridge = .host) (hcfg : t.cfg = s.cfg)
    (h : State.bridgeActs (act :: acts) (s.withAnswers rest) = State.bridgeActs acts (t.withAnswers rest)) :
    exec .ecall (s.withAnswers (.continue (act :: acts) :: rest))
      = exec .ecall (t.withAnswers (.continue acts :: rest)) := by
  rw [exec_ecall_continue hb, exec_ecall_continue (hcfg ▸ hb), h]

/-- An access that faults ends the `ecall` in its fault. -/
theorem exec_ecall_continue_fault (hb : s.cfg.bridge = .host)
    (h : State.bridgeActs (act :: acts) (s.withAnswers rest) = (s.withAnswers rest).takeFault F) :
    exec .ecall (s.withAnswers (.continue (act :: acts) :: rest)) = .next ((s.withAnswers rest).takeFault F) := by
  rw [exec_ecall_continue hb, h]

/-- The free value does what the same answer does as the one input to come, a draw counted. -/
theorem exec_ecall_of_nil (hb : s.cfg.bridge = .host) (h : s.bridgeAnswers = []) : exec .ecall s
    = exec .ecall { s with bridgeAnswers := [s.hostAnswer (s.readReg 17) (s.readReg 10)],
                           bridgeDraws := s.bridgeDraws + 1 } := by
  have hdrawn : s.useAnswer = { s with bridgeAnswers := [], bridgeDraws := s.bridgeDraws + 1 } := by
    rw [State.useAnswer_of_nil h, ← h]
  rw [exec_ecall_of_host hb, hdrawn, exec_ecall_of_host]
  · rfl
  · exact hb

end WithAnswers

/-! ### The statements -/

/-- Settles O50: each access is one equation of `bridgeActs`, in the state the answer has been used up in. -/
theorem ecallContinueAppliesTheAccesses : Obligations.EcallContinueAppliesTheAccesses := by
  intro s acts rest hb
  refine ⟨fun h => ?noAccess, exec_ecall_of_nil hb, fun r v => ?setReg, fun addr width h => ?load,
    fun addr width h => ?loadFault, fun addr width v t hw => ?store, fun addr width v F hw => ?storeFault⟩
  case noAccess =>
    have hs : s = s.withAnswers (.continue [] :: rest) := by rw [← h]; rfl
    rw [hs]
    exact exec_ecall_continue hb
  case setReg =>
    refine exec_ecall_continue_cons hb (s.writeReg_cfg r v) ?_
    rw [State.bridgeActs, State.withAnswers_writeReg]
  case load =>
    obtain ⟨S, hS, hlo, hhi⟩ := h
    obtain ⟨T, hT⟩ := resolve_isSome hS hlo hhi
    exact exec_ecall_continue_cons hb rfl
      (State.bridgeActs_load_of_ok (State.withAnswers_memRead.trans (State.memRead_mapped hT)))
  case loadFault =>
    have hr := State.memRead_unmapped (resolve_none_of_not_holdsRange h)
    exact exec_ecall_continue_fault hb (State.bridgeActs_load_of_error (State.withAnswers_memRead.trans hr))
  case store =>
    obtain ⟨-, -, -, -, -, -, -, -, hcfg, -⟩ := storeResult_memWrite hw
    exact exec_ecall_continue_cons hb hcfg (State.bridgeActs_store_of_ok (State.withAnswers_memWrite_of_ok hw))
  case storeFault =>
    exact exec_ecall_continue_fault hb (State.bridgeActs_store_of_error (State.withAnswers_memWrite_of_error hw))

/-- Settles O51: the Bridge writes through `writeReg` and `memWrite` alone, which keep code and configuration, and an
answer ends in one of three ways. -/
theorem theBridgeKeepsItsContract : Obligations.TheBridgeKeepsItsContract := by
  intro s hc hb
  have he := exec_ecall_of_host hb
  obtain ⟨hcfg, hcode⟩ := (carries_keepsCode hc.1 .ecall).exec he ⟨rfl, fun _ _ _ _ _ _ => rfl⟩
  obtain ⟨hpc, hcycle, hcommands⟩ := s.useAnswer.applyAnswer_frame (s.hostAnswer (s.readReg 17) (s.readReg 10))
  have hengine := s.useAnswer.applyAnswer_engine (s.hostAnswer (s.readReg 17) (s.readReg 10))
  exact ⟨_, he, hpc.trans s.useAnswer_pc, hcycle.trans s.useAnswer_cycle, hcfg, State.readReg_zero _,
    hcommands.trans s.useAnswer_debugCommands, hcode, by simpa [sameEngine] using hengine⟩

/-- Settles O49: an exit is `takeExit` once the answer has been used up. -/
theorem ecallExitHaltsWithTheCode : Obligations.EcallExitHaltsWithTheCode := by
  intro s code hb ha
  have he : exec .ecall s = .next (s.useAnswer.takeExit code) := by rw [exec_ecall_of_host hb, ha]; rfl
  exact ⟨_, he, rfl, rfl, s.useAnswer_fault, s.useAnswer_readReg, s.useAnswer_byteAt, s.useAnswer_pc, s.useAnswer_cycle,
    s.useAnswer_cfg, s.useAnswer_debugCommands, State.useAnswer_bridgeAnswers,
    State.useAnswer_bridgeDraws_of_ne_nil, State.useAnswer_bridgeDraws_of_nil⟩

/-- Settles O52: the reference Bridge's two branches. -/
theorem referenceBridgeExitsOnNinetyThree : Obligations.ReferenceBridgeExitsOnNinetyThree := by
  intro s hb
  exact ⟨exec_ecall_of_reference hb, exec_ecall_refused_of_reference hb⟩

end Sys2Proof.Machine
end

section
/-! PROOFS. The statements about exceptions (spec/60_exceptions.md): the fault of a word with no row, where a section that is
loaded goes and why it may not, and the debug trap. -/

namespace Sys2Proof.Machine

/-! ### A word with no row (R104, R125, R286) -/

section Unknown

variable {s : State} {w : Word} {e : Reject}

/-- The only reason the decoder gives for a word is that it is `Unknown` (R104). -/
theorem eq_unknown_of_decodeWord_eq_error (h : decodeWord w = .error e) : e = .unknown w := by
  unfold decodeWord at h
  split at h <;> cases h
  rfl

/-- Bytes at pc that do not decode are rejected for the word they stand for. -/
theorem decode_bytesAtPc_eq_error (h : decode (bytesAtPc s) = .error e) :
    decodeWord (wordOfBytes (bytesAtPc s)) = .error e := by
  simp only [bytesAtPc, decode] at h
  split at h
  · cases h
  · next hd => cases h; exact hd

/-- A fetched word that is no instruction ends the step in its fault, with the cycle counted and pc advanced (R125). -/
theorem engineStep_of_decodeWord_eq_error (hg : guardPasses s) (hf : s.fetch s.pc = .ok w)
    (hd : decodeWord w = .error e) : engineStep s = .next (s.countCycle.advancePc.takeFault (.unimplemented w)) := by
  rw [engineStep_of_guardPasses hg, fetchAndRun, State.countCycle_fetch, State.countCycle_pc, hf]
  simp only [hd]

end Unknown

/-- Settles O17: the engine fetches the word and rejects it, and takes the fault where a handler would have run. -/
theorem unknownWordIsUnimplemented : Obligations.UnknownWordIsUnimplemented := by
  intro s w hc hs hg hf hd
  have hdw := decode_bytesAtPc_eq_error hd
  cases eq_unknown_of_decodeWord_eq_error hdw
  have hfetch : (commandTaken s).fetch (commandTaken s).pc = .ok (wordOfBytes (bytesAtPc s)) := by
    simpa using fetch_of_fetchable hc.1 hf
  refine ⟨rfl, _, ?_, faultTaken_takeFault (handlerState s) _⟩
  rw [step_of_stepping hc hs, engineStep_of_decodeWord_eq_error (guardPasses_commandTaken.mpr hg) hfetch hdw,
    countCycle_advancePc_commandTaken]

/-! ### Loading one section (R284, R322) -/

section LoadSection

variable {relocBase base : Nat} {map : List MemSection} {placement : Placement} {S : MemSection}

/-- The rounded highest end is the first free multiple of 4. -/
theorem leastFree_roundUp4_highestEnd (relocBase : Nat) (map : List MemSection) :
    leastFree relocBase map (roundUp4 (highestEnd relocBase map)) := by
  obtain ⟨hr, hT⟩ := le_highestEnd relocBase map
  obtain ⟨h4, hle, hlt⟩ := roundUp4_spec (highestEnd relocBase map)
  refine ⟨⟨h4, hr.trans hle, fun T h => (hT T h).trans hle⟩, fun n hn4 hnr hnT => ?_⟩
  have hn : highestEnd relocBase map ≤ n := highestEnd_le hnr hnT
  omega

/-- A section that would pass 2^32 is not placed, whatever it overlaps. -/
theorem loadSection_outOfMemory (hb : placementBase relocBase map placement = base) (h : base + S.size > 2 ^ 32) :
    loadSection relocBase map placement S = .error .outOfMemory := by
  rw [loadSection, hb, if_pos h]

/-- A section that fits is not placed over another. -/
theorem loadSection_overlap (hb : placementBase relocBase map placement = base) (h : base + S.size ≤ 2 ^ 32)
    (hT : ∃ T ∈ map, ¬sectionsApart { S with base := base } T) :
    loadSection relocBase map placement S = .error .overlap := by
  obtain ⟨T, hmem, hover⟩ := hT
  rw [loadSection, hb, if_neg (Nat.not_lt.mpr h), if_neg fun hapart => hover (hapart T hmem)]

/-- A section that fits apart from every other is placed. -/
theorem loadSection_of_apart (hb : placementBase relocBase map placement = base) (h : base + S.size ≤ 2 ^ 32)
    (hT : ∀ T ∈ map, sectionsApart { S with base := base } T) :
    loadSection relocBase map placement S = .ok { S with base := base } := by
  rw [loadSection, hb, if_neg (Nat.not_lt.mpr h), if_pos hT]

end LoadSection

/-- Settles O57: each placement against the checks in their order; a relocatable section stands above every other. -/
theorem loadSectionPlacesAsDeclaredOrAbove : Obligations.LoadSectionPlacesAsDeclaredOrAbove := by
  intro relocBase map S
  refine ⟨fun base => loadSection_outOfMemory rfl, fun base => loadSection_overlap rfl,
    fun base => loadSection_of_apart rfl, fun b hb h => ?_,
    fun b hb => loadSection_outOfMemory (roundUp4_highestEnd_of_leastFree hb), _,
    leastFree_roundUp4_highestEnd relocBase map⟩
  have hbase := roundUp4_highestEnd_of_leastFree hb
  obtain ⟨⟨-, -, habove⟩, -⟩ := hb
  exact loadSection_of_apart hbase h fun T hT => .inr (habove T hT)

/-! ### The debug trap (R265, R293) -/

/-- The handler of `ebreak` is the debug trap. -/
theorem exec_ebreak (s : State) : exec .ebreak s = .next s.takeDebugTrap := rfl

/-- Settles O47: the frame of `takeDebugTrap`. -/
theorem ebreakSuspendsAndNothingElse : Obligations.EbreakSuspendsAndNothingElse := by
  intro s
  refine ⟨⟨s.takeDebugTrap, exec_ebreak s, ?_⟩, by decide⟩
  simp [sameRegs, sameMemory]

end Sys2Proof.Machine
end

section
/-! PROOFS. The statements that remain: the long `li` (spec/30_encoding.md section 6), a word placed at pc, the words written
out from the formats, and the Debugger's commands. -/

namespace Sys2Proof.Machine

/-! ### The parts of a constant (R110) -/

section Constant

variable (c : Word)

theorem liIsShort_iff : liIsShort c = true ↔ -2048 ≤ c.toInt ∧ c.toInt ≤ 2047 := by
  simp [liIsShort]

/-- The constants of 12 signed bits are what `addi` makes of their low 12 bits. -/
theorem immWord_liLow_of_short (h : -2048 ≤ c.toInt ∧ c.toInt ≤ 2047) : immWord (liLow c) = c := by
  apply BitVec.eq_of_toInt_eq
  rw [immWord_toInt, liLow, ← BitVec.setWidth_eq_extractLsb' (by decide), ← BitVec.signExtend_eq_setWidth_of_le c (by decide),
    BitVec.toInt_signExtend_eq_toInt_bmod_of_le c (by decide)]
  apply Int.bmod_eq_of_le <;> omega

/-- `lo` is the low 12 bits of its own sign extension. -/
theorem liLow_immWord (imm : BitVec 12) : liLow (immWord imm) = imm := by
  rw [liLow, ← BitVec.setWidth_eq_extractLsb' (by decide)]
  exact setWidth_signExtend (by decide)

/-- What `lo` leaves of the constant has no low bits. -/
theorem liLow_wordSub_immWord : liLow (wordSub c (immWord (liLow c))) = 0#12 := by
  have hsum : wordSub c (immWord (liLow c)) + immWord (liLow c) = c := BitVec.sub_add_cancel c _
  have hlow : liLow (wordSub c (immWord (liLow c))) + liLow (immWord (liLow c)) = liLow c := by
    conv_rhs => rw [← hsum]
    exact (BitVec.extractLsb'_add (by decide)).symm
  rw [liLow_immWord] at hlow
  exact BitVec.add_left_eq_self.mp hlow

/-- So its high 20 bits are all of it. -/
theorem upperWord_liHigh : upperWord (liHigh c) = wordSub c (immWord (liLow c)) := by
  rw [upperWord, ← liLow_wordSub_immWord c]
  exact BitVec.extractLsb'_append_extractLsb'

/-- What `lui` gives and what `addi` adds to it make up the constant. -/
theorem wordAdd_upperWord_liHigh : wordAdd (upperWord (liHigh c)) (immWord (liLow c)) = c := by
  rw [upperWord_liHigh]
  exact BitVec.sub_add_cancel c _

end Constant

/-! ### Two results in one register -/

section TwoResults

variable (s : State) (rd : Reg)

/-- Of two writes to a register the second stands (R13). -/
theorem State.writeReg_writeReg (v w : Word) : (s.writeReg rd v).writeReg rd w = s.writeReg rd w := by
  by_cases hrd : rd = 0
  · subst hrd; rfl
  · simp [State.writeReg, hrd]

/-- A result in `rd` that is a sum with an earlier result there; in x0 both are discarded (R13). -/
theorem registerResult_writeReg_wordAdd (v w : Word) :
    registerResult s ((s.writeReg rd v).writeReg rd (wordAdd ((s.writeReg rd v).readReg rd) w)) rd (wordAdd v w) := by
  by_cases hrd : rd = 0
  · subst hrd; exact registerResult_writeReg s 0 (wordAdd v w)
  · rw [State.writeReg_writeReg, State.readReg_writeReg_same, if_neg hrd]
    exact registerResult_writeReg s rd (wordAdd v w)

end TwoResults

/-- Settles O46: the short constant is `addi`'s immediate; a long one is the sum of what `lui` gives and what `addi` adds. -/
theorem loadImmediateLoadsTheConstant : Obligations.LoadImmediateLoadsTheConstant := by
  intro rd c s
  refine ⟨fun h => ?_, fun h => ?_⟩
  · have hv : wordAdd (s.readReg 0) (immWord (liLow c)) = c := by
      rw [immWord_liLow_of_short c h]
      exact BitVec.zero_add c
    exact ⟨.addi rd 0 (liLow c), if_pos ((liIsShort_iff c).mpr h), givesResult_of_exec rfl hv⟩
  · have hresult := registerResult_writeReg_wordAdd s rd (upperWord (liHigh c)) (immWord (liLow c))
    rw [wordAdd_upperWord_liHigh] at hresult
    exact ⟨.lui rd (liHigh c), .addi rd rd (liLow c), s.writeReg rd (upperWord (liHigh c)),
      if_neg (mt (liIsShort_iff c).mp h), rfl, _, rfl, hresult, by rw [State.writeReg_pc, State.writeReg_pc]⟩

/-! ### A word placed at pc (log entry 17) -/

section Placed

variable (s : State) (w : Word)

/-- A word's own bits are those placed. -/
theorem State.withFetchWord_toNat : s.withFetchWord 32 w.toNat = s.placeWordAtPc w := by
  rw [State.withFetchWord, Nat.mod_eq_of_lt w.isLt, BitVec.ofNat_toNat, BitVec.setWidth_eq]

/-- The bytes at pc are the word's. -/
theorem bytesAtPc_placeWordAtPc : bytesAtPc (s.placeWordAtPc w) = bytesOfWord 4 w :=
  Memory.getBytes_setBytes (bytesOfWord 4 w) s.mem s.pc.toNat

/-- The map has a code section there, its own or the one added. -/
theorem exists_exec_mem_mapWithCodeAt (map : List MemSection) (a : Nat) :
    ∃ S ∈ mapWithCodeAt map a, S.base ≤ a ∧ a + 4 ≤ S.base + S.size ∧ S.exec = true := by
  unfold mapWithCodeAt
  split
  · next h =>
    obtain ⟨S, hS, hx⟩ := (Option.any_eq_true _ _).mp h
    obtain ⟨hmem, hlo, hhi⟩ := resolve_some hS
    exact ⟨S, hmem, hlo, hhi, hx⟩
  · exact ⟨oneWordSection a, List.mem_append_right map (List.mem_singleton_self _), le_rfl, le_rfl, rfl⟩

end Placed

/-- A word placed at an aligned pc, where the guard passes, is what the step dispatches. -/
theorem dispatches_placeWordAtPc {s : State} {w : Word} {i : Instr} (hg : guardPasses s) (hal : s.pc.toNat % 4 = 0)
    (hd : decodeWord w = .ok i) : dispatches (s.placeWordAtPc w) i := by
  refine ⟨hg, ⟨hal, exists_exec_mem_mapWithCodeAt s.cfg.map s.pc.toNat⟩, ?_⟩
  have hdec := decode_bytesOfWord w []
  rw [List.append_nil, hd] at hdec
  rw [bytesAtPc_placeWordAtPc, hdec]
  rfl

/-- Settles O58: after reset the guard passes and pc is aligned, and the map stays well-formed with the code section added,
so the step runs the handler in `handlerState`. -/
theorem placedWordRunsFirstAfterReset : Obligations.PlacedWordRunsFirstAfterReset := by
  intro w i hd
  have hc : configWf { Config.atReset with map := mapWithCodeAt Config.atReset.map Config.entryPcAtReset.toNat } := by decide
  have hg : guardPasses State.reset := by
    unfold guardPasses
    decide
  have hdis : dispatches (State.reset.placeWordAtPc w) i := dispatches_placeWordAtPc hg (by decide) hd
  rw [State.withFetchWord_toNat]
  exact ⟨_, stepRunsTheDecodedInstruction _ i hc (.inl rfl) hdis, rfl, rfl, fun _ => rfl⟩

/-! ### Words of each format -/

/-- The word a well-formed instruction is encoded in decodes to it. -/
theorem decodeWord_of_encode_eq {i : Instr} {w : Word} (hwf : i.wf = true) (he : encode i = w) : decodeWord w = .ok i :=
  he ▸ decodeWord_encode hwf

/-- Settles O5: each word but the last is the encoding of its instruction; the last is not in the opcode map. -/
theorem sampleWordsDecode : Obligations.SampleWordsDecode := by
  refine ⟨decodeWord_of_encode_eq rfl ?_, decodeWord_of_encode_eq rfl ?_, decodeWord_of_encode_eq rfl ?_,
    decodeWord_of_encode_eq rfl ?_, decodeWord_of_encode_eq rfl ?_, decodeWord_of_encode_eq rfl ?_,
    decodeWord_of_encode_eq rfl ?_, decodeWord_of_encode_eq rfl ?_, decodeWord_of_encode_eq rfl ?_,
    (onlyTheOpcodeMapDecodes 0x027302B3#32).2 ?_⟩
  all_goals decide

/-! ### The Debugger's commands (R130, R131) -/

/-- Settles O18: the transitions of a suspended machine; its engine steps on `dbg_step` alone. -/
theorem debuggerCommandsMoveASuspendedEngine : Obligations.DebuggerCommandsMoveASuspendedEngine := by
  intro s hc hr
  refine ⟨fun hd => ⟨transition_of_held hc hr hd, ?_⟩, fun rest hd => ⟨transition_of_resume hc hr hd, ?_⟩, fun rest hd => ?_⟩
  · rw [stepReport, hr, hd]
  · rw [stepReport, hr, hd]
  · rw [step_of_stepping hc (.inr ⟨hr, rest, hd⟩), commandTaken, if_pos hr, hd, List.tail_cons]

end Sys2Proof.Machine
end
